-- ==== Sys2Proof/Word.lean ====
section
/-! DEFINITION. The unit of data, the command word, the peripheral index and the small enumerations the commands name
(spec 00_scope.md R8, 30_encoding.md R65 to R72, 10_state.md R29). -/

namespace Sys2Proof

/-- The one data unit of the block (R8): 8 bits, no other width. -/
abbrev Byte := BitVec 8

/-- A command word or an event record (R65): 16 bits, in every state (R76). -/
abbrev Word := BitVec 16

/-- The unsigned 4-bit `idx` field (R66). Whether the peripheral exists is `idx < MAX_UARTS` (R77). -/
abbrev Idx := Fin 16

/-- `parity` of the settings (R29). -/
inductive Parity where
  | none
  | even
  | odd
deriving DecidableEq, Repr

/-- `stop_bits` of the settings (R29). -/
inductive StopBits where
  | one
  | two
deriving DecidableEq, Repr

/-- The buffer select `sel` of the direct ring commands (R71): the rx ring or the tx ring. -/
inductive RingSel where
  | rx
  | tx
deriving DecidableEq, Repr

/-- `Settings` (R29). `baud` is below 2^32 whenever a command has put it here (R72, checked by R79 step 3). -/
structure Settings where
  baud   : Nat
  stop   : StopBits
  parity : Parity
deriving DecidableEq, Repr

/-- The out-of-band operand record of a command (R65, R72). A command reads the entries its row of R72 names; the
numbers are naturals so that an operand outside its range can be written and refused (R81). -/
structure Operands where
  nRx   : Nat := 0
  nTx   : Nat := 0
  baud  : Nat := 0
  bytes : List Byte := []
  len   : Nat := 0
  byte  : Nat := 0
deriving DecidableEq, Repr

/-- A record with nothing in it: the operands of a command that has none. -/
def Operands.zero : Operands := { nRx := 0, nTx := 0, baud := 0, bytes := [], len := 0, byte := 0 }

end Sys2Proof
end

