-- ==== Sys2Proof/Config.lean ====
section
/-! DEFINITION. The implementation parameters of one model instance (spec 00_scope.md R7), the check made when an
instance is built (42_baud.md R109), the fixture instance of 95_test_vectors.md section 0, and the free choices of the
external core. -/

namespace Sys2Proof

/-- `RECONFIG_POLICY` (R132). -/
inductive ReconfigPolicy where
  | reject
  | proceed
deriving DecidableEq, Repr

/-- One LUT entry (R108); the key is the baud rate (90_conflicts.md C1). -/
structure LutEntry where
  baud    : Nat
  divisor : Nat
  dbl     : Bool
deriving DecidableEq, Repr

/-- `CTRL_LAYOUT`: the bit position of every field of the control images (R33). -/
structure CtrlLayout where
  u2x   : Nat
  rxcie : Nat
  txcie : Nat
  udrie : Nat
  rxen  : Nat
  txen  : Nat
  ws2   : Nat
  mode1 : Nat
  mode0 : Nat
  pm1   : Nat
  pm0   : Nat
  sb    : Nat
  ws11  : Nat
  ws10  : Nat
  cpol  : Nat
deriving DecidableEq, Repr

/-- The default layout of R33. PRESUMED (log 14): the family's, by the spec's own mark. -/
def CtrlLayout.default : CtrlLayout :=
  { u2x := 1, rxcie := 7, txcie := 6, udrie := 5, rxen := 4, txen := 3, ws2 := 2,
    mode1 := 7, mode0 := 6, pm1 := 5, pm0 := 4, sb := 3, ws11 := 2, ws10 := 1, cpol := 0 }

/-- One index's row of `REG_MAP`: register addresses and vector numbers (R57). No rule reads an address. -/
structure RegAddrs where
  ucsrA      : Nat
  ucsrB      : Nat
  ucsrC      : Nat
  ubrrL      : Nat
  ubrrH      : Nat
  udr        : Nat
  rxVector   : Nat
  udreVector : Nat
deriving DecidableEq, Repr

/-- USART0 of the ATmega328P, the reference row of R57. PRESUMED (log 14), by the spec's own mark. -/
def RegAddrs.usart0 : RegAddrs :=
  { ucsrA := 0xC0, ucsrB := 0xC1, ucsrC := 0xC2, ubrrL := 0xC4, ubrrH := 0xC5, udr := 0xC6,
    rxVector := 18, udreVector := 19 }

/-- `DIV_W` (R7): the width of the divisor register. -/
abbrev divW : Nat := 12

/-- The parameters as they are given to an instance, before the check (R7). -/
structure Params where
  maxUarts  : Nat
  fCpu      : Nat
  baudLut   : List LutEntry
  layout    : CtrlLayout
  regMap    : List RegAddrs
  policy    : ReconfigPolicy
  badSource : Bool
deriving DecidableEq, Repr

/-- The check made when an instance is built: the ranges of R7 and R108, R109 (a), and R109 (b) read with R110: at
16 MHz the table holds (9600, 103, 0), and as its first entry for 9600, so that `select(9600)` is R110's (log 15). An
empty table passes at any other frequency (R109 c) and duplicate keys do. -/
def Params.wf (p : Params) : Bool :=
  decide (1 ≤ p.maxUarts) && decide (p.maxUarts ≤ 16) && decide (0 < p.fCpu) &&
  p.baudLut.all (fun e => decide (e.divisor < 2 ^ divW) && decide (e.baud < 2 ^ 32)) &&
  (p.fCpu != 16000000 || p.baudLut.find? (fun e => e.baud == 9600) == some ⟨9600, 103, false⟩)

/-- The parameters of a built instance. Parameters that fail the check have no instance: "a table that fails is
refused, not run" (R109). -/
structure Config where
  params : Params
  ok     : params.wf = true
deriving DecidableEq, Repr

/-- Building an instance; `none` is the refusal of R109. -/
def Config.build (p : Params) : Option Config :=
  if h : p.wf = true then some ⟨p, h⟩ else none

abbrev Config.maxUarts (c : Config) : Nat := c.params.maxUarts
abbrev Config.fCpu (c : Config) : Nat := c.params.fCpu
abbrev Config.baudLut (c : Config) : List LutEntry := c.params.baudLut
abbrev Config.layout (c : Config) : CtrlLayout := c.params.layout
abbrev Config.policy (c : Config) : ReconfigPolicy := c.params.policy
abbrev Config.badSource (c : Config) : Bool := c.params.badSource

/-- The fixture parameters of 95_test_vectors.md section 0. DESIGN CHOICE (log 1) as the parameters of `State.reset`. -/
def Params.fixture : Params :=
  { maxUarts := 2
    fCpu := 16000000
    baudLut := [⟨2400, 416, false⟩, ⟨4800, 207, false⟩, ⟨9600, 103, false⟩, ⟨19200, 51, false⟩,
                ⟨38400, 25, false⟩, ⟨57600, 34, true⟩, ⟨115200, 16, true⟩]
    layout := CtrlLayout.default
    regMap := [RegAddrs.usart0]
    policy := .reject
    badSource := false }

def Config.fixture : Config := ⟨Params.fixture, by decide⟩

/-- The free choices of the external core (R172 overrun, R173 busy write, R174 drain while disabled): an
uninterpreted outcome for each draw, at the counter `State.choices` (log 4). A statement holds for every value. -/
opaque Config.freeChoice : Nat → Bool

end Sys2Proof
end

