-- ==== Sys2Proof/Syntax.lean ====
section
/-! DEFINITION. The commands and event records of spec/opcode_table.json, one constructor per row in the table's order,
each with the fields of its word and the operands of its row of R72. -/

namespace Sys2Proof

/-- One constructor per row of the opcode table (30_encoding.md R67 to R72). -/
inductive Instr where
  | construct (idx : Idx) (nRx nTx : Nat)                                  -- R118
  | destruct (idx : Idx)                                                   -- R120
  | configure (idx : Idx) (par : Parity) (stb : StopBits) (baud : Nat)     -- R129
  | write (idx : Idx) (bytes : List Byte)                                  -- R133
  | read (idx : Idx) (len : Nat)                                           -- R135
  | flush (idx : Idx)                                                      -- R136
  | ovfRead (idx : Idx)                                                    -- R137
  | ovfClear (idx : Idx)                                                   -- R138
  | badRead (idx : Idx)                                                    -- R139
  | csEnter                                                                -- R100
  | csExit                                                                 -- R101
  | rbPush (idx : Idx) (sel : RingSel) (b : Nat)                           -- R89
  | rbPop (idx : Idx) (sel : RingSel)                                      -- R90
  | rbFull (idx : Idx) (sel : RingSel)                                     -- R91
  | rbEmpty (idx : Idx) (sel : RingSel)                                    -- R92
  | rbSize (idx : Idx) (sel : RingSel)                                     -- R93
  | rbCapacity (idx : Idx) (sel : RingSel)                                 -- R94
  | baudSelect (baud : Nat)                                                -- R112
  | evRxc (idx : Idx)                                                      -- R153, event record
  | evUdre (idx : Idx)                                                     -- R154, event record
deriving DecidableEq, Repr

/-- The event records of a trace, which the foreground may not issue (R75). -/
def Instr.isEvent : Instr → Bool
  | .construct _ _ _ => false
  | .destruct _ => false
  | .configure _ _ _ _ => false
  | .write _ _ => false
  | .read _ _ => false
  | .flush _ => false
  | .ovfRead _ => false
  | .ovfClear _ => false
  | .badRead _ => false
  | .csEnter => false
  | .csExit => false
  | .rbPush _ _ _ => false
  | .rbPop _ _ => false
  | .rbFull _ _ => false
  | .rbEmpty _ _ => false
  | .rbSize _ _ => false
  | .rbCapacity _ _ => false
  | .baudSelect _ => false
  | .evRxc _ => true
  | .evUdre _ => true

/-- The index a command or event acts on; `none` for the global commands (R66). -/
def Instr.idx? : Instr → Option Idx
  | .construct i _ _ => some i
  | .destruct i => some i
  | .configure i _ _ _ => some i
  | .write i _ => some i
  | .read i _ => some i
  | .flush i => some i
  | .ovfRead i => some i
  | .ovfClear i => some i
  | .badRead i => some i
  | .csEnter => none
  | .csExit => none
  | .rbPush i _ _ => some i
  | .rbPop i _ => some i
  | .rbFull i _ => some i
  | .rbEmpty i _ => some i
  | .rbSize i _ => some i
  | .rbCapacity i _ => some i
  | .baudSelect _ => none
  | .evRxc i => some i
  | .evUdre i => some i

/-- The commands that act on a driver: the per-index commands other than CONSTRUCT (R78). -/
def Instr.isDriverCommand : Instr → Bool
  | .construct _ _ _ => false
  | .destruct _ => true
  | .configure _ _ _ _ => true
  | .write _ _ => true
  | .read _ _ => true
  | .flush _ => true
  | .ovfRead _ => true
  | .ovfClear _ => true
  | .badRead _ => true
  | .csEnter => false
  | .csExit => false
  | .rbPush _ _ _ => true
  | .rbPop _ _ => true
  | .rbFull _ _ => true
  | .rbEmpty _ _ => true
  | .rbSize _ _ => true
  | .rbCapacity _ _ => true
  | .baudSelect _ => false
  | .evRxc _ => false
  | .evUdre _ => false

end Sys2Proof
end

