-- ==== Sys2Proof/WellFormed.lean ====
section
/-! DEFINITION. Well-formed instructions: the operands lie in the ranges of 30_encoding.md R72 and R81. The fields of the
command word are in range by their types. A foreground command that is not well formed decodes, and raises
F_BAD_OPERAND when it is issued (R79 step 3). -/

namespace Sys2Proof

/-- The largest capacity and length (R72, R81). -/
abbrev maxLength : Nat := 65535

/-- A ring capacity in range: 1 to 65535 (R81). -/
def capacityInRange (n : Nat) : Bool := decide (1 ≤ n) && decide (n ≤ maxLength)

/-- A length in range: 0 to 65535 (R81). -/
def lengthInRange (n : Nat) : Bool := decide (n ≤ maxLength)

/-- A baud rate in range: `Nat32` (R72). -/
def baudInRange (n : Nat) : Bool := decide (n < 2 ^ 32)

/-- A byte operand in range: 0 to 255 (R72). -/
def byteInRange (n : Nat) : Bool := decide (n ≤ 255)

/-- The operand ranges of R72; a command with no operands is in range. -/
def Instr.wf : Instr → Bool
  | .construct _ nRx nTx => capacityInRange nRx && capacityInRange nTx
  | .destruct _ => true
  | .configure _ _ _ baud => baudInRange baud
  | .write _ bytes => lengthInRange bytes.length
  | .read _ len => lengthInRange len
  | .flush _ => true
  | .ovfRead _ => true
  | .ovfClear _ => true
  | .badRead _ => true
  | .csEnter => true
  | .csExit => true
  | .rbPush _ _ b => byteInRange b
  | .rbPop _ _ => true
  | .rbFull _ _ => true
  | .rbEmpty _ _ => true
  | .rbSize _ _ => true
  | .rbCapacity _ _ => true
  | .baudSelect baud => baudInRange baud
  | .evRxc _ => true
  | .evUdre _ => true

end Sys2Proof
end

