-- ==== Sys2Proof/Decode.lean ====
section
/-! DEFINITION. Decoding a command word with its operand record, total, every illegal word rejected by name
(30_encoding.md R65 to R76); the encoder from the same fields; the opcode table as data. -/

namespace Sys2Proof

/-- `v[hi:lo]` as an unsigned number (R9). -/
def Word.field (w : Word) (hi lo : Nat) : Nat := w.toNat / 2 ^ lo % 2 ^ (hi + 1 - lo)

/-- The `op` field (R65). -/
def Word.op (w : Word) : Nat := w.field 15 12

/-- The `idx` field (R65, R66). -/
def Word.idx (w : Word) : Idx := Fin.ofNat 16 (w.field 11 8)

/-- The `sub` field (R65). -/
def Word.sub (w : Word) : Nat := w.field 7 0

/-- Why a word is illegal (R74). -/
inductive DecodeError where
  /-- op 0x0, 0xE or 0xF -/
  | reservedOp
  /-- a bit of `sub` that must be 0 is set -/
  | nonzeroSub
  /-- CONFIGURE with par = 11 -/
  | reservedParity
  /-- FLAGS with sub[1:0] = 11 -/
  | reservedFlag
  /-- RB with prim = 110 or 111 -/
  | reservedPrim
  /-- a global command with idx ≠ 0000 -/
  | nonzeroIdx
deriving DecidableEq, Repr

/-- A word whose whole `sub` must be 0x00 (R68). -/
def decodePlain (w : Word) (i : Instr) : Except DecodeError Instr :=
  if w.sub = 0 then .ok i else .error .nonzeroSub

/-- A global command: `idx` must be 0000 as well (R66). -/
def decodeGlobal (w : Word) (i : Instr) : Except DecodeError Instr :=
  if w.field 11 8 = 0 then decodePlain w i else .error .nonzeroIdx

/-- CONFIGURE (R69). -/
def decodeConfigure (w : Word) (o : Operands) : Except DecodeError Instr :=
  if w.field 7 3 = 0 then
    let stb := if w.field 0 0 = 0 then StopBits.one else StopBits.two
    match w.field 2 1 with
    | 0 => .ok (.configure w.idx .none stb o.baud)
    | 1 => .ok (.configure w.idx .even stb o.baud)
    | 2 => .ok (.configure w.idx .odd stb o.baud)
    | _ => .error .reservedParity
  else .error .nonzeroSub

/-- FLAGS (R70). -/
def decodeFlags (w : Word) : Except DecodeError Instr :=
  if w.field 7 2 = 0 then
    match w.field 1 0 with
    | 0 => .ok (.ovfRead w.idx)
    | 1 => .ok (.ovfClear w.idx)
    | 2 => .ok (.badRead w.idx)
    | _ => .error .reservedFlag
  else .error .nonzeroSub

/-- RB (R71). -/
def decodeRing (w : Word) (o : Operands) : Except DecodeError Instr :=
  if w.field 6 3 = 0 then
    let sel := if w.field 7 7 = 0 then RingSel.rx else RingSel.tx
    match w.field 2 0 with
    | 0 => .ok (.rbPush w.idx sel o.byte)
    | 1 => .ok (.rbPop w.idx sel)
    | 2 => .ok (.rbFull w.idx sel)
    | 3 => .ok (.rbEmpty w.idx sel)
    | 4 => .ok (.rbSize w.idx sel)
    | 5 => .ok (.rbCapacity w.idx sel)
    | _ => .error .reservedPrim
  else .error .nonzeroSub

/-- The opcode map (R67). The operand entries a command has none of are not read (R72, log 12). -/
def decode (w : Word) (o : Operands) : Except DecodeError Instr :=
  match w.op with
  | 0x1 => decodePlain w (.construct w.idx o.nRx o.nTx)
  | 0x2 => decodePlain w (.destruct w.idx)
  | 0x3 => decodeConfigure w o
  | 0x4 => decodePlain w (.write w.idx o.bytes)
  | 0x5 => decodePlain w (.read w.idx o.len)
  | 0x6 => decodePlain w (.flush w.idx)
  | 0x7 => decodeFlags w
  | 0x8 => decodeGlobal w .csEnter
  | 0x9 => decodeGlobal w .csExit
  | 0xA => decodeRing w o
  | 0xB => decodeGlobal w (.baudSelect o.baud)
  | 0xC => decodePlain w (.evRxc w.idx)
  | 0xD => decodePlain w (.evUdre w.idx)
  | _ => .error .reservedOp

/-! ### The encoder -/

/-- A command word from its three fields (R65). -/
def wordOf (op : Nat) (idx : Idx) (sub : Nat) : Word := BitVec.ofNat 16 (op * 4096 + idx.val * 256 + sub)

/-- The parity code `par` (R69). -/
def parCode : Parity → Nat
  | .none => 0
  | .even => 1
  | .odd => 2

/-- The stop code `stb` (R69). -/
def stbCode : StopBits → Nat
  | .one => 0
  | .two => 1

/-- The buffer select `sel` (R71). -/
def selCode : RingSel → Nat
  | .rx => 0
  | .tx => 1

/-- The command word or event record of an instruction (R67 to R71, R80). -/
def encodeWord : Instr → Word
  | .construct i _ _ => wordOf 0x1 i 0
  | .destruct i => wordOf 0x2 i 0
  | .configure i par stb _ => wordOf 0x3 i (parCode par * 2 + stbCode stb)
  | .write i _ => wordOf 0x4 i 0
  | .read i _ => wordOf 0x5 i 0
  | .flush i => wordOf 0x6 i 0
  | .ovfRead i => wordOf 0x7 i 0
  | .ovfClear i => wordOf 0x7 i 1
  | .badRead i => wordOf 0x7 i 2
  | .csEnter => wordOf 0x8 0 0
  | .csExit => wordOf 0x9 0 0
  | .rbPush i sel _ => wordOf 0xA i (selCode sel * 128 + 0)
  | .rbPop i sel => wordOf 0xA i (selCode sel * 128 + 1)
  | .rbFull i sel => wordOf 0xA i (selCode sel * 128 + 2)
  | .rbEmpty i sel => wordOf 0xA i (selCode sel * 128 + 3)
  | .rbSize i sel => wordOf 0xA i (selCode sel * 128 + 4)
  | .rbCapacity i sel => wordOf 0xA i (selCode sel * 128 + 5)
  | .baudSelect _ => wordOf 0xB 0 0
  | .evRxc i => wordOf 0xC i 0
  | .evUdre i => wordOf 0xD i 0

/-- The operand record of an instruction (R72). -/
def encodeOperands : Instr → Operands
  | .construct _ nRx nTx => { Operands.zero with nRx := nRx, nTx := nTx }
  | .destruct _ => .zero
  | .configure _ _ _ baud => { Operands.zero with baud := baud }
  | .write _ bytes => { Operands.zero with bytes := bytes }
  | .read _ len => { Operands.zero with len := len }
  | .flush _ => .zero
  | .ovfRead _ => .zero
  | .ovfClear _ => .zero
  | .badRead _ => .zero
  | .csEnter => .zero
  | .csExit => .zero
  | .rbPush _ _ b => { Operands.zero with byte := b }
  | .rbPop _ _ => .zero
  | .rbFull _ _ => .zero
  | .rbEmpty _ _ => .zero
  | .rbSize _ _ => .zero
  | .rbCapacity _ _ => .zero
  | .baudSelect baud => { Operands.zero with baud := baud }
  | .evRxc _ => .zero
  | .evUdre _ => .zero

/-- The word and the operand record of an instruction. -/
def encode (i : Instr) : Word × Operands := (encodeWord i, encodeOperands i)

/-! ### Assembler shorthand -/

/-- `CS { c1; ...; cn }` (R82 a): the commands it expands to. -/
def csBlock (cs : List Instr) : List Instr := .csEnter :: cs ++ [.csExit]

/-- `OVF_TAKE uI` (R82 b): read and clear the overflow flag with no receive event between. -/
def ovfTake (i : Idx) : List Instr := csBlock [.ovfRead i, .ovfClear i]

/-- `uI` (R80). -/
def asmIdx (i : Idx) : String := "u" ++ toString i.val

/-- `uI.rx` or `uI.tx` (R80). -/
def asmRing (i : Idx) : RingSel → String
  | .rx => asmIdx i ++ ".rx"
  | .tx => asmIdx i ++ ".tx"

/-- `parity=` in CONFIGURE (R80). -/
def asmParity : Parity → String
  | .none => "none"
  | .even => "even"
  | .odd => "odd"

/-- `stop=` in CONFIGURE (R80). -/
def asmStop : StopBits → String
  | .one => "one"
  | .two => "two"

/-- The assembler syntax of an instruction (R80), numbers in decimal. -/
def Instr.asm : Instr → String
  | .construct i nRx nTx => "CONSTRUCT " ++ asmIdx i ++ ", rx=" ++ toString nRx ++ ", tx=" ++ toString nTx
  | .destruct i => "DESTRUCT " ++ asmIdx i
  | .configure i par stb baud =>
    "CONFIGURE " ++ asmIdx i ++ ", baud=" ++ toString baud ++ ", stop=" ++ asmStop stb ++ ", parity=" ++ asmParity par
  | .write i bytes =>
    "WRITE " ++ asmIdx i ++ ", [" ++ String.intercalate ", " (bytes.map (fun b => toString b.toNat)) ++ "]"
  | .read i len => "READ " ++ asmIdx i ++ ", " ++ toString len
  | .flush i => "FLUSH " ++ asmIdx i
  | .ovfRead i => "OVF_READ " ++ asmIdx i
  | .ovfClear i => "OVF_CLEAR " ++ asmIdx i
  | .badRead i => "BAD_READ " ++ asmIdx i
  | .csEnter => "CS_ENTER"
  | .csExit => "CS_EXIT"
  | .rbPush i sel b => "RB_PUSH " ++ asmRing i sel ++ ", " ++ toString b
  | .rbPop i sel => "RB_POP " ++ asmRing i sel
  | .rbFull i sel => "RB_FULL " ++ asmRing i sel
  | .rbEmpty i sel => "RB_EMPTY " ++ asmRing i sel
  | .rbSize i sel => "RB_SIZE " ++ asmRing i sel
  | .rbCapacity i sel => "RB_CAPACITY " ++ asmRing i sel
  | .baudSelect baud => "BAUD_SELECT " ++ toString baud
  | .evRxc i => "EV_RXC " ++ asmIdx i
  | .evUdre i => "EV_UDRE " ++ asmIdx i

/-! ### The opcode table as data -/

/-- A row of spec/opcode_table.json: its mnemonic, match and mask. -/
structure Row where
  mnemonic : String
  pattern  : Word
  mask     : Word
deriving DecidableEq, Repr

/-- A word has the row's fixed bits. -/
abbrev Row.fits (r : Row) (w : Word) : Prop := w &&& r.mask = r.pattern

/-- The table, in its order. -/
def opcodeTable : List Row :=
  [⟨"CONSTRUCT", 0x1000, 0xF0FF⟩, ⟨"DESTRUCT", 0x2000, 0xF0FF⟩, ⟨"CONFIGURE", 0x3000, 0xF0F8⟩,
   ⟨"WRITE", 0x4000, 0xF0FF⟩, ⟨"READ", 0x5000, 0xF0FF⟩, ⟨"FLUSH", 0x6000, 0xF0FF⟩,
   ⟨"OVF_READ", 0x7000, 0xF0FF⟩, ⟨"OVF_CLEAR", 0x7001, 0xF0FF⟩, ⟨"BAD_READ", 0x7002, 0xF0FF⟩] ++
  [⟨"CS_ENTER", 0x8000, 0xFFFF⟩, ⟨"CS_EXIT", 0x9000, 0xFFFF⟩,
   ⟨"RB_PUSH", 0xA000, 0xF07F⟩, ⟨"RB_POP", 0xA001, 0xF07F⟩, ⟨"RB_FULL", 0xA002, 0xF07F⟩,
   ⟨"RB_EMPTY", 0xA003, 0xF07F⟩, ⟨"RB_SIZE", 0xA004, 0xF07F⟩, ⟨"RB_CAPACITY", 0xA005, 0xF07F⟩,
   ⟨"BAUD_SELECT", 0xB000, 0xFFFF⟩, ⟨"EV_RXC", 0xC000, 0xF0FF⟩, ⟨"EV_UDRE", 0xD000, 0xF0FF⟩]

/-- The row of an instruction. -/
def Instr.row : Instr → Row
  | .construct _ _ _ => ⟨"CONSTRUCT", 0x1000, 0xF0FF⟩
  | .destruct _ => ⟨"DESTRUCT", 0x2000, 0xF0FF⟩
  | .configure _ _ _ _ => ⟨"CONFIGURE", 0x3000, 0xF0F8⟩
  | .write _ _ => ⟨"WRITE", 0x4000, 0xF0FF⟩
  | .read _ _ => ⟨"READ", 0x5000, 0xF0FF⟩
  | .flush _ => ⟨"FLUSH", 0x6000, 0xF0FF⟩
  | .ovfRead _ => ⟨"OVF_READ", 0x7000, 0xF0FF⟩
  | .ovfClear _ => ⟨"OVF_CLEAR", 0x7001, 0xF0FF⟩
  | .badRead _ => ⟨"BAD_READ", 0x7002, 0xF0FF⟩
  | .csEnter => ⟨"CS_ENTER", 0x8000, 0xFFFF⟩
  | .csExit => ⟨"CS_EXIT", 0x9000, 0xFFFF⟩
  | .rbPush _ _ _ => ⟨"RB_PUSH", 0xA000, 0xF07F⟩
  | .rbPop _ _ => ⟨"RB_POP", 0xA001, 0xF07F⟩
  | .rbFull _ _ => ⟨"RB_FULL", 0xA002, 0xF07F⟩
  | .rbEmpty _ _ => ⟨"RB_EMPTY", 0xA003, 0xF07F⟩
  | .rbSize _ _ => ⟨"RB_SIZE", 0xA004, 0xF07F⟩
  | .rbCapacity _ _ => ⟨"RB_CAPACITY", 0xA005, 0xF07F⟩
  | .baudSelect _ => ⟨"BAUD_SELECT", 0xB000, 0xFFFF⟩
  | .evRxc _ => ⟨"EV_RXC", 0xC000, 0xF0FF⟩
  | .evUdre _ => ⟨"EV_UDRE", 0xD000, 0xF0FF⟩

/-! ### The table's words, for the host -/

/-- The word that a table row's bits are: one 16-bit word, the bits above `nbits` 0. -/
def tableWord (nbits w : Nat) : Word := BitVec.ofNat 16 (w % 2 ^ nbits)

/-- The instruction the decoder reads from a table row's bits, its operand record empty. `none` for a row wider than a
word (there is none, R76) and for an illegal word. -/
def decodeTableWord (nbits w : Nat) : Option Instr :=
  if nbits ≤ 16 ∧ w < 2 ^ nbits then
    match decode (tableWord nbits w) .zero with
    | .ok i => some i
    | .error _ => none
  else none

end Sys2Proof
end

