-- ==== Sys2Proof/Machine/State.lean ====
section
/-! DEFINITION. The state of the block, of the external cores and of the run's inputs and observations, as plain data
(spec 10_state.md R20 to R46), with its reset value (R42), and the reasons a step can stop. -/

namespace Sys2Proof.Machine

/-- The storage of a ring (R25, R50 a): (slot, byte) pairs, slots strictly rising. A slot that is not listed has been
written by no push and has no value (R44). -/
abbrev Memory := List Host.Cell

/-- A ring (R25). -/
structure Ring where
  N     : Nat
  store : Memory
  head  : Nat
  tail  : Nat
  count : Nat
deriving DecidableEq, Repr

/-- `fresh(N)`: a ring at construction (R43). -/
def Ring.fresh (n : Nat) : Ring := { N := n, store := [], head := 0, tail := 0, count := 0 }

/-- A driver instance (R24). -/
structure Driver where
  rx          : Ring
  tx          : Ring
  overwritten : Bool
  bad         : Bool
  settings    : Option Settings
deriving DecidableEq, Repr

/-- A driver at construction (R43). -/
def Driver.fresh (nRx nTx : Nat) : Driver :=
  { rx := Ring.fresh nRx, tx := Ring.fresh nTx, overwritten := false, bad := false, settings := none }

/-- Control image B (R31). -/
structure CtrlB where
  rxcie : Bool
  txcie : Bool
  udrie : Bool
  rxen  : Bool
  txen  : Bool
  ws2   : Bool
deriving DecidableEq, Repr

/-- Control image B at reset (R42). -/
def CtrlB.reset : CtrlB :=
  { rxcie := false, txcie := false, udrie := false, rxen := false, txen := false, ws2 := false }

/-- Control image C (R32). -/
structure CtrlC where
  mode : BitVec 2
  pm   : BitVec 2
  sb   : Bool
  ws10 : BitVec 2
  cpol : Bool
deriving DecidableEq, Repr

/-- Control image C at reset (R42). -/
def CtrlC.reset : CtrlC := { mode := 0b00, pm := 0b00, sb := false, ws10 := 0b11, cpol := false }

/-- One peripheral index: its registry slot (R23), its control state (R30 to R35) and its external core (R39, R40). -/
structure Port where
  reg      : Option Driver
  u2x      : Bool
  ctrlB    : CtrlB
  ctrlC    : CtrlC
  div      : BitVec divW
  rxHold   : Option Byte
  txdReg   : Byte
  txdEmpty : Bool
  lineOut  : List Byte
deriving DecidableEq, Repr

/-- A peripheral index at reset (R42). `txdReg` is 0 by DESIGN CHOICE (log 5): R42 gives it "no value". -/
def Port.reset : Port :=
  { reg := none, u2x := false, ctrlB := CtrlB.reset, ctrlC := CtrlC.reset, div := 0, rxHold := none,
    txdReg := 0, txdEmpty := true, lineOut := [] }

/-- The fault register's contents: one constructor per row of R164, with what the row records. -/
inductive FaultRecord where
  /-- A foreground word illegal by R74 or R75. -/
  | illegalCommand (word : Word)
  /-- RB_PUSH on a full ring (R89). -/
  | ringOverrun (word : Word) (idx : Idx) (sel : RingSel)
  /-- RB_POP on an empty ring (R90). -/
  | ringUnderrun (word : Word) (idx : Idx) (sel : RingSel)
  /-- A direct ring command with I = 1 (R88). -/
  | unguardedAccess (word : Word)
  /-- CS_EXIT with no open section (R101). -/
  | csUnderflow (word : Word)
  /-- An operand out of range (R72, R81). -/
  | badOperand (word : Word) (operands : Operands)
  /-- A read of a slot no push wrote (R51): the ring by its index and select, and the slot. -/
  | unwrittenSlot (idx : Idx) (sel : RingSel) (slot : Nat)
deriving DecidableEq, Repr

/-- The fault code (R164). -/
def FaultRecord.code : FaultRecord → Nat
  | .illegalCommand _ => 1
  | .ringOverrun _ _ _ => 2
  | .ringUnderrun _ _ _ => 3
  | .unguardedAccess _ => 4
  | .csUnderflow _ => 5
  | .badOperand _ _ => 6
  | .unwrittenSlot _ _ _ => 7

/-- Status codes (R161). No rule returns `eNotSupported` (R163). -/
inductive Status where
  | ok
  | eDuplicate
  | eIndexRange
  | eBaudUnsupported
  | eTxBusy
  | eNotConstructed
  | eNotSupported
deriving DecidableEq, Repr

/-- The 8-bit status code (R161). -/
def Status.code : Status → BitVec 8
  | .ok => 0
  | .eDuplicate => 1
  | .eIndexRange => 2
  | .eBaudUnsupported => 3
  | .eTxBusy => 4
  | .eNotConstructed => 5
  | .eNotSupported => 6

/-- The results of a reply (R73), by the shapes the command rules give. -/
inductive Results where
  /-- no results -/
  | empty
  /-- RB_POP (R90) -/
  | byte (b : Byte)
  /-- RB_FULL, RB_EMPTY, OVF_READ, BAD_READ -/
  | flag (v : Bool)
  /-- RB_SIZE, RB_CAPACITY -/
  | number (n : Nat)
  /-- BAUD_SELECT (R112) -/
  | baud (found : Bool) (div : Nat) (dbl : Bool)
  /-- WRITE (R133) -/
  | written (k : Nat)
  /-- READ (R135) -/
  | read (out : List Byte) (read available capacity : Nat)
deriving DecidableEq, Repr

/-- The reply of a command (R73). -/
structure Reply where
  status  : Status
  results : Results
deriving DecidableEq, Repr

/-- A command of the foreground's program: a word and its operand record (R65). -/
structure Command where
  word     : Word
  operands : Operands
deriving DecidableEq, Repr

/-- One choice of the schedule (R166): which agent takes the next step. -/
inductive Turn where
  /-- the foreground's next command step (R13 a) -/
  | foreground
  /-- the dispatcher delivers the event the record names (R13 b, R75) -/
  | dispatch (record : Word)
  /-- the environment step RX_ARRIVE(i, b) (R172) -/
  | rxArrive (i : Idx) (b : Byte)
  /-- the environment step TX_DRAIN(i) (R174) -/
  | txDrain (i : Idx)
  /-- the environment step HW_FAULT(i) (R178) -/
  | hwFault (i : Idx)
  /-- the reset event (R185) -/
  | reset
deriving DecidableEq, Repr

/-- A WRITE between its two phases (R133, R134): its index and the count W1 enqueued. -/
structure PendingWrite where
  idx     : Idx
  written : Nat
deriving DecidableEq, Repr

/-- The whole state: the instance's parameters, which no step writes (log 1); the block and its external cores
(R20); and the run's inputs and observations (log 2, 3, 4, 9). `ports` has a place for each value of the idx field;
the first MAX_UARTS exist (log 10). -/
structure State where
  cfg      : Config
  I        : Bool
  csStack  : List Bool
  ports    : Vector Port 16
  fault    : Option FaultRecord
  sched    : List Turn
  program  : List Command
  pending  : Option PendingWrite
  replies  : List Reply
  choices  : Nat
deriving DecidableEq, Repr

/-- The values of R42 for an instance with the parameters `c`, with no input waiting. -/
def State.resetWith (c : Config) : State :=
  { cfg := c, I := false, csStack := [], ports := Vector.replicate 16 Port.reset, fault := none,
    sched := [], program := [], pending := none, replies := [], choices := 0 }

/-- The machine right after reset (R42, R185), with the fixture parameters (log 1). -/
def State.reset : State := State.resetWith Config.fixture

/-- Why a step stops the model. The faults of R164 are not here: they are recorded in `State.fault` by a next state. -/
inductive Fault where
  /-- Raised by every agent's step when a fault is recorded: the block is halted (R79 step 1, R165; `stuck` in U16).
  Safe: the spec has no step there. -/
  | halted
  /-- Raised by a ring access to a slot index of N or more, which does not exist (R51). Unreachable from reset
  (R26 b). Safe: the model stops (log 7). -/
  | slotOutOfRange
  /-- Raised by WRITE's second phase when its driver is gone, which R134 excludes. Unreachable from reset.
  Safe: the model stops (log 13). -/
  | lostDriver
deriving DecidableEq, Repr

/-- Why the model has no meaning for a step. -/
inductive Refusal where
  /-- Raised by an arm of `exec` whose instruction has no meaning yet; no arm is one. Safe. -/
  | notModelled (mnemonic : String)
deriving DecidableEq, Repr

/-- The outcome of a step. -/
abbrev Outcome := Host.Outcome State Fault Refusal

end Sys2Proof.Machine
end

