-- ==== Sys2Proof/Machine/Ops.lean ====
section
/-! DEFINITION. The named operations over ring storage, rings, per-index state, the external data registers and the
control flow of a command: replies, raising a fault, critical sections, handler entry and return. -/

namespace Sys2Proof.Machine

/-! ### Ring storage (20_memory.md R51) -/

/-- The byte a slot holds; a slot not listed holds no value (R44). -/
def Memory.read : Memory → Nat → Option Byte
  | [], _ => none
  | (a, b) :: m, k => if a = k then some b else Memory.read m k

/-- The storage with slot `k` set to `b`, in canonical form. -/
def Memory.write : Memory → Nat → Byte → Memory
  | [], k, b => [(k, b)]
  | (a, c) :: m, k, b =>
    if k < a then (k, b) :: (a, c) :: m
    else if k = a then (k, b) :: m
    else (a, c) :: Memory.write m k b

/-- The canonical form: slots strictly rising. An unlisted slot has no value, so no entry can equal it. -/
abbrev Memory.wf (m : Memory) : Prop := m.Pairwise (fun x y => x.1 < y.1)

/-- Why a slot access has no result (R51). -/
inductive SlotError where
  /-- the slot was written by no push: F_UNWRITTEN_SLOT -/
  | unwritten (slot : Nat)
  /-- the slot does not exist (log 7) -/
  | outOfRange (slot : Nat)
deriving DecidableEq, Repr

/-- `MemRead(r, k, 1)` (R51). -/
def Ring.memRead (r : Ring) (k : Nat) : Except SlotError Byte :=
  if k < r.N then
    match r.store.read k with
    | some b => .ok b
    | none => .error (.unwritten k)
  else .error (.outOfRange k)

/-- `MemWrite(r, k, 1, b)` (R51). -/
def Ring.memWrite (r : Ring) (k : Nat) (b : Byte) : Except SlotError Ring :=
  if k < r.N then .ok { r with store := r.store.write k b } else .error (.outOfRange k)

/-! ### Ring functions (40_ring_buffer.md R85 to R87) -/

/-- `(p + 1) mod N` (R10). -/
def Ring.succ (r : Ring) (p : Nat) : Nat := if p + 1 = r.N then 0 else p + 1

/-- `ring_push(r, b)` (R85). -/
def ringPush (r : Ring) (b : Byte) : Except SlotError Ring :=
  match r.memWrite r.tail b with
  | .error e => .error e
  | .ok r' => .ok { r' with tail := r.succ r.tail, count := r.count + 1 }

/-- `ring_pop(r)` (R86): the byte and the ring without it. The slot is not cleared. -/
def ringPop (r : Ring) : Except SlotError (Byte × Ring) :=
  match r.memRead r.head with
  | .error e => .error e
  | .ok b => .ok (b, { r with head := r.succ r.head, count := r.count - 1 })

/-- `ring_push_overwrite(r, b)` (R87): whether a byte was evicted, and the ring. -/
def ringPushOverwrite (r : Ring) (b : Byte) : Except SlotError (Bool × Ring) :=
  if r.count = r.N then
    match ringPop r with
    | .error e => .error e
    | .ok (_, r₁) =>
      match ringPush r₁ b with
      | .error e => .error e
      | .ok r₂ => .ok (true, r₂)
  else
    match ringPush r b with
    | .error e => .error e
    | .ok r₁ => .ok (false, r₁)

/-- WRITE's enqueue loop (R133): push while bytes remain and the ring is not full; the count pushed, and the ring. -/
def ringPushMany (r : Ring) : List Byte → Except SlotError (Nat × Ring)
  | [] => .ok (0, r)
  | b :: bs =>
    if r.count < r.N then
      match ringPush r b with
      | .error e => .error e
      | .ok r₁ =>
        match ringPushMany r₁ bs with
        | .error e => .error e
        | .ok (k, r₂) => .ok (k + 1, r₂)
    else .ok (0, r)

/-- READ's dequeue loop (R135): `k` pops, oldest first. -/
def ringPopMany (r : Ring) : Nat → Except SlotError (List Byte × Ring)
  | 0 => .ok ([], r)
  | k + 1 =>
    match ringPop r with
    | .error e => .error e
    | .ok (b, r₁) =>
      match ringPopMany r₁ k with
      | .error e => .error e
      | .ok (bs, r₂) => .ok (b :: bs, r₂)

/-- The bytes a ring holds, oldest first: the sequence of R96. -/
def Ring.contents (r : Ring) : List Byte :=
  (List.range r.count).filterMap (fun j => r.store.read ((r.head + j) % r.N))

/-! ### Per-index state -/

/-- The state of peripheral index `i` (R66). -/
def State.port (s : State) (i : Idx) : Port := s.ports[i]

/-- The state with peripheral index `i` replaced. -/
def State.setPort (s : State) (i : Idx) (p : Port) : State := { s with ports := s.ports.set i p }

/-- `reg[i] <- r` (R23). -/
def State.setReg (s : State) (i : Idx) (r : Option Driver) : State := s.setPort i { s.port i with reg := r }

/-- `I <- v` (R21). -/
def State.setI (s : State) (v : Bool) : State := { s with I := v }

/-- `cs_stack <- v` (R22). -/
def State.setCsStack (s : State) (v : List Bool) : State := { s with csStack := v }

/-- A WRITE begins or ends its wait for the second phase (R134). -/
def State.setPending (s : State) (v : Option PendingWrite) : State := { s with pending := v }

/-- The schedule still to come. -/
def State.setSched (s : State) (v : List Turn) : State := { s with sched := v }

/-- The foreground's commands still to come. -/
def State.setProgram (s : State) (v : List Command) : State := { s with program := v }

/-- One free choice of the external core has been drawn (log 4). -/
def State.draw (s : State) : State := { s with choices := s.choices + 1 }

/-- Peripheral index `i` exists: `i < MAX_UARTS` (R7, R77). -/
abbrev State.present (s : State) (i : Idx) : Prop := i.val < s.cfg.maxUarts

/-- The ring a `sel` names (R88). -/
def Driver.ring (d : Driver) : RingSel → Ring
  | .rx => d.rx
  | .tx => d.tx

/-- The driver with the ring a `sel` names replaced. -/
def Driver.setRing (d : Driver) (sel : RingSel) (r : Ring) : Driver :=
  match sel with
  | .rx => { d with rx := r }
  | .tx => { d with tx := r }

/-! ### How a command or a handler ends (R10, R73, R165) -/

/-- The end of a command phase or handler. A raised fault carries no state: "performs no other write of the faulting
command" (R165). -/
inductive Reaction where
  /-- `return (status, results)` with the state left -/
  | reply (r : Reply) (t : State)
  /-- a phase or handler that gives no reply, with the state left -/
  | quiet (t : State)
  /-- `raise F(info)` -/
  | raise (f : FaultRecord)
  /-- the model stops -/
  | stop (f : Fault)
deriving DecidableEq, Repr

/-- `return (OK, results)`. -/
def Reaction.ok (results : Results) (t : State) : Reaction := .reply ⟨.ok, results⟩ t

/-- `err E`: the error status, no results and no effect on `s` (R10, R73). -/
def Reaction.err (e : Status) (s : State) : Reaction := .reply ⟨e, .empty⟩ s

/-- The reaction with its state changed. -/
def Reaction.map (f : State → State) : Reaction → Reaction
  | .reply r t => .reply r (f t)
  | .quiet t => .quiet (f t)
  | .raise x => .raise x
  | .stop x => .stop x

/-- The state after a reply has been given (R73, R14). -/
def State.answer (t : State) (r : Reply) : State := { t with replies := t.replies ++ [r] }

/-- Raising a fault (R165): the record is set and nothing else is written. The block is then halted. -/
def State.raise (s : State) (f : FaultRecord) : State := { s with fault := some f }

/-- The outcome of a reaction to a command or event that found the state `s`. -/
def settle (s : State) : Reaction → Outcome
  | .reply r t => .next (t.answer r)
  | .quiet t => .next t
  | .raise f => .next (s.raise f)
  | .stop f => .fault f

/-- A slot access without a result ends the command: F_UNWRITTEN_SLOT (R51), or a stop (log 7). -/
def slotFault (i : Idx) (sel : RingSel) : SlotError → Reaction
  | .unwritten k => .raise (.unwrittenSlot i sel k)
  | .outOfRange _ => .stop .slotOutOfRange

/-- `CS { body }` (R102): save I, clear it, run the body, restore I exactly, on every exit path (R128). -/
def criticalSection (body : State → Reaction) (s : State) : Reaction :=
  (body (s.setI false)).map (fun t => t.setI s.I)

/-! ### Taking an interrupt and returning from it (R152, R168, R169) -/

/-- Handler entry: I is cleared. The foreground's position is saved outside the block (R168). -/
def State.handlerEntry (s : State) : State := s.setI false

/-- Handler return: I is set. No other state is restored (R169). -/
def State.handlerReturn (s : State) : State := s.setI true

/-- A delivered handler, one atomic step (R152). -/
def handler (body : State → Reaction) (s : State) : Reaction :=
  (body s.handlerEntry).map State.handlerReturn

/-! ### The external data registers (60_exceptions.md R172, R173) -/

/-- `RxdRead(i)` (R172 b): the held byte, and the state with the receive register empty. `none`: no byte to return. -/
def rxdRead (i : Idx) (s : State) : Option (Byte × State) :=
  match (s.port i).rxHold with
  | none => none
  | some b => some (b, s.setPort i { s.port i with rxHold := none })

/-- `TxdWrite(i, b)` (R173). While the register holds a byte, the free choice (log 4) decides whether `b` replaces it
or is dropped. -/
def txdWrite (i : Idx) (b : Byte) (s : State) : State :=
  if (s.port i).txdEmpty then s.setPort i { s.port i with txdReg := b, txdEmpty := false }
  else if Config.freeChoice s.choices then
    (s.setPort i { s.port i with txdReg := b }).draw
  else s.draw

end Sys2Proof.Machine
end

