-- ==== Sys2Proof/Machine/Operands.lean ====
section
/-! DEFINITION. The operand forms of the commands and the checks made on them before a command's own, in the order of
30_encoding.md R79. Step 2, the illegal word, is made when the word is decoded (Machine/Schedule.lean). -/

namespace Sys2Proof.Machine

/-- Steps 1 and 3 of R79: a halted block takes no step (R165), an operand out of range raises F_BAD_OPERAND with the
word and the operand record (R72, R81, R164). -/
def foreground (i : Instr) (s : State) (body : Reaction) : Outcome :=
  if s.fault.isSome then .fault .halted
  else settle s (if i.wf then body else .raise (.badOperand (encodeWord i) (encodeOperands i)))

/-- Step 4 of R79: E_INDEX_RANGE for an index that does not exist (R77). -/
def perIndex (i : Idx) (s : State) (body : Reaction) : Reaction :=
  if s.present i then body else .err .eIndexRange s

/-- Steps 4 and 5 of R79: E_NOT_CONSTRUCTED for an empty slot (R78). -/
def perDriver (i : Idx) (s : State) (body : Driver → Reaction) : Reaction :=
  perIndex i s
    (match (s.port i).reg with
     | none => .err .eNotConstructed s
     | some d => body d)

/-- The guard of the direct ring commands (R88): I = 0, else F_UNGUARDED_ACCESS. The body gets the driver and the
ring `sel` names. -/
def guardedRing (w : Word) (i : Idx) (sel : RingSel) (s : State) (body : Driver → Ring → Reaction) : Reaction :=
  perDriver i s (fun d => if s.I then .raise (.unguardedAccess w) else body d (d.ring sel))

end Sys2Proof.Machine
end

