-- ==== Sys2Proof/Machine/Baud.lean ====
section
/-! DEFINITION. The baud LUT and its query (42_baud.md R108 to R112). -/

namespace Sys2Proof.Machine

/-- `select(baud)` (R111): the first entry, in table order, whose key is the rate. -/
def select : List LutEntry → Nat → Option (Nat × Bool)
  | [], _ => none
  | e :: es, baud => if e.baud = baud then some (e.divisor, e.dbl) else select es baud

/-- BAUD_SELECT (R112). -/
def execBaudSelect (baud : Nat) (s : State) : Outcome :=
  foreground (.baudSelect baud) s <|
    match select s.cfg.baudLut baud with
    | some (div, dbl) => .ok (.baud true div dbl) s
    | none => .ok (.baud false 0 false) s

end Sys2Proof.Machine
end

