-- ==== Sys2Proof/Machine/CriticalSection.lean ====
section
/-! DEFINITION. The explicit critical sections (41_critical_section.md R100, R101). -/

namespace Sys2Proof.Machine

/-- CS_ENTER (R100). -/
def execCsEnter (s : State) : Outcome :=
  foreground .csEnter s <| .ok .empty ((s.setCsStack (s.csStack ++ [s.I])).setI false)

/-- CS_EXIT (R101). -/
def execCsExit (s : State) : Outcome :=
  foreground .csExit s <|
    match s.csStack.getLast? with
    | none => .raise (.csUnderflow (encodeWord .csExit))
    | some v => .ok .empty ((s.setI v).setCsStack s.csStack.dropLast)

end Sys2Proof.Machine
end

