-- ==== Sys2Proof/Machine/Flags.lean ====
section
/-! DEFINITION. The control images and flags: the enable bits of image B, CONFIGURE's images (44_driver_ops.md R130), the
packing of the images into bytes (10_state.md R33), the divisor's two bytes (20_memory.md R53), and the tx path state
(10_state.md R45). -/

namespace Sys2Proof.Machine

/-- `UDRIE[i] <- v`. -/
def State.setUdrie (s : State) (i : Idx) (v : Bool) : State :=
  s.setPort i { s.port i with ctrlB := { (s.port i).ctrlB with udrie := v } }

/-- DESTRUCT's clear of the enable bits (R120); WS2 keeps its value. -/
def CtrlB.clearEnables (b : CtrlB) : CtrlB :=
  { b with rxcie := false, txcie := false, udrie := false, rxen := false, txen := false }

/-- The code PM of a parity (R46). -/
def parityField : Parity → BitVec 2
  | .none => 0b00
  | .even => 0b10
  | .odd => 0b11

/-- The code SB of a stop-bit count (R46). -/
def stopField : StopBits → Bool
  | .one => false
  | .two => true

/-- `imgB` of R130. -/
def imageB (d : Driver) : CtrlB :=
  { rxcie := true, txcie := false, udrie := decide (0 < d.tx.count), rxen := true, txen := true, ws2 := false }

/-- `imgC` of R130. -/
def imageC (st : Settings) : CtrlC :=
  { mode := 0b00, pm := parityField st.parity, sb := stopField st.stop, ws10 := 0b11, cpol := false }

/-! ### Derived views -/

/-- The two states of the tx path (R45, R156). -/
inductive TxPath where
  | idle
  | draining
deriving DecidableEq, Repr

/-- The tx path state is UDRIE (R45). R45 gives it for a registered driver only, and R156 calls an empty slot "(no
driver)"; that UDRIE is read there too, so an empty slot with UDRIE 0 is `idle`, is a DESIGN CHOICE (log 16). -/
def Port.txPath (p : Port) : TxPath := if p.ctrlB.udrie then .draining else .idle

/-- One bit of an image byte. -/
def bitAt (pos : Nat) (v : Bool) : Byte := if v then 1#8 <<< pos else 0#8

/-- Image A as the block writes it: U2X, and 0 in the other writable bits (R33). -/
def Port.byteA (l : CtrlLayout) (p : Port) : Byte := bitAt l.u2x p.u2x

/-- Image B as a byte (R33). -/
def Port.byteB (l : CtrlLayout) (p : Port) : Byte :=
  bitAt l.rxcie p.ctrlB.rxcie ||| bitAt l.txcie p.ctrlB.txcie ||| bitAt l.udrie p.ctrlB.udrie |||
  bitAt l.rxen p.ctrlB.rxen ||| bitAt l.txen p.ctrlB.txen ||| bitAt l.ws2 p.ctrlB.ws2

/-- Image C as a byte (R33). -/
def Port.byteC (l : CtrlLayout) (p : Port) : Byte :=
  bitAt l.mode1 (p.ctrlC.mode.getLsbD 1) ||| bitAt l.mode0 (p.ctrlC.mode.getLsbD 0) |||
  bitAt l.pm1 (p.ctrlC.pm.getLsbD 1) ||| bitAt l.pm0 (p.ctrlC.pm.getLsbD 0) ||| bitAt l.sb p.ctrlC.sb |||
  bitAt l.ws11 (p.ctrlC.ws10.getLsbD 1) ||| bitAt l.ws10 (p.ctrlC.ws10.getLsbD 0) ||| bitAt l.cpol p.ctrlC.cpol

/-- The high register of a two-register DIV: DIV[11:8] in bits 3:0, bits 7:4 written 0 (R53). -/
def Port.divHigh (p : Port) : Byte := BitVec.ofNat 8 (p.div.toNat / 256)

/-- The low register of a two-register DIV: DIV[7:0] (R53). -/
def Port.divLow (p : Port) : Byte := BitVec.ofNat 8 (p.div.toNat % 256)

end Sys2Proof.Machine
end

