-- ==== Sys2Proof/Machine/DriverCommands.lean ====
section
/-! DEFINITION. The driver commands (44_driver_ops.md R128 to R139). Each runs its body in one critical section (R128). -/

namespace Sys2Proof.Machine

/-- CONFIGURE's writes on a match (R113, R129, R131): DIV and U2X, image C, image B, the driver's settings. -/
def configurePort (p : Port) (d : Driver) (st : Settings) (div : Nat) (dbl : Bool) : Port :=
  { p with div := BitVec.ofNat divW div, u2x := dbl, ctrlC := imageC st, ctrlB := imageB d,
           reg := some { d with settings := some st } }

/-- CONFIGURE (R129, R132). -/
def execConfigure (i : Idx) (par : Parity) (stb : StopBits) (baud : Nat) (s : State) : Outcome :=
  foreground (.configure i par stb baud) s <| perDriver i s fun d =>
    criticalSection (fun u =>
      match select u.cfg.baudLut baud with
      | none => .err .eBaudUnsupported u
      | some (div, dbl) =>
        if u.cfg.policy = .reject ∧ 0 < d.tx.count then .err .eTxBusy u
        else .ok .empty (u.setPort i
          (configurePort (u.port i) d { baud := baud, stop := stb, parity := par } div dbl))) s

/-- WRITE's first phase W1 (R133): enqueue until the ring is full. The reply comes with W2, the foreground's next
step. -/
def execWrite (i : Idx) (bytes : List Byte) (s : State) : Outcome :=
  foreground (.write i bytes) s <| perDriver i s fun d =>
    criticalSection (fun u =>
      match ringPushMany d.tx bytes with
      | .error e => slotFault i .tx e
      | .ok (k, tx) =>
        .quiet ((u.setReg i (some { d with tx := tx })).setPending (some { idx := i, written := k }))) s

/-- `flush_body(i)` (R136), answering `r` at its end. -/
def flushBody (i : Idx) (d : Driver) (r : Reply) : State → Reaction :=
  criticalSection (fun u =>
    if 0 < d.tx.count then
      match ringPop d.tx with
      | .error e => slotFault i .tx e
      | .ok (b, tx) => .reply r (txdWrite i b ((u.setReg i (some { d with tx := tx })).setUdrie i true))
    else .reply r (u.setUdrie i false))

/-- WRITE's second phase W2 (R133): flush, then the reply with the count W1 enqueued. -/
def writePhase2 (p : PendingWrite) (s : State) : Outcome :=
  settle s
    (match (s.port p.idx).reg with
     | none => .stop .lostDriver
     | some d => flushBody p.idx d ⟨.ok, .written p.written⟩ (s.setPending none))

/-- READ (R135). -/
def execRead (i : Idx) (len : Nat) (s : State) : Outcome :=
  foreground (.read i len) s <| perDriver i s fun d =>
    criticalSection (fun u =>
      let k := min len d.rx.count
      match ringPopMany d.rx k with
      | .error e => slotFault i .rx e
      | .ok (out, rx) =>
        .ok (.read out k rx.count d.rx.N) (u.setReg i (some { d with rx := rx }))) s

/-- FLUSH (R136). -/
def execFlush (i : Idx) (s : State) : Outcome :=
  foreground (.flush i) s <| perDriver i s fun d => flushBody i d ⟨.ok, .empty⟩ s

/-- OVF_READ (R137). -/
def execOvfRead (i : Idx) (s : State) : Outcome :=
  foreground (.ovfRead i) s <| perDriver i s fun d =>
    criticalSection (fun u => .ok (.flag d.overwritten) u) s

/-- OVF_CLEAR (R138). -/
def execOvfClear (i : Idx) (s : State) : Outcome :=
  foreground (.ovfClear i) s <| perDriver i s fun d =>
    criticalSection (fun u => .ok .empty (u.setReg i (some { d with overwritten := false }))) s

/-- BAD_READ (R139). -/
def execBadRead (i : Idx) (s : State) : Outcome :=
  foreground (.badRead i) s <| perDriver i s fun d =>
    criticalSection (fun u => .ok (.flag d.bad) u) s

end Sys2Proof.Machine
end

