-- ==== Sys2Proof/Machine/Handlers.lean ====
section
/-! DEFINITION. Event delivery and the two interrupt handlers (45_handlers.md R150 to R155). -/

namespace Sys2Proof.Machine

/-- `rxc_pending[i]` (R37). -/
def Port.rxcPending (p : Port) : Bool := p.rxHold.isSome

/-- `udre_pending[i]` (R37). -/
def Port.udrePending (p : Port) : Bool := p.txdEmpty

/-- The RXC delivery condition, less the fault register (R150). -/
def rxcDeliverable (i : Idx) (s : State) : Bool :=
  decide (s.present i) && s.I && (s.port i).ctrlB.rxcie && (s.port i).rxcPending

/-- The UDRE delivery condition, less the fault register (R151). -/
def udreDeliverable (i : Idx) (s : State) : Bool :=
  decide (s.present i) && s.I && (s.port i).ctrlB.udrie && (s.port i).udrePending

/-- The body of the receive-complete handler (R153). -/
def rxcBody (i : Idx) (s : State) : Reaction :=
  match rxdRead i s with
  | none => .quiet s
  | some (b, u) =>
    match (u.port i).reg with
    | none => .quiet u
    | some d =>
      match ringPushOverwrite d.rx b with
      | .error e => slotFault i .rx e
      | .ok (evicted, rx) =>
        .quiet (u.setReg i (some { d with rx := rx, overwritten := d.overwritten || evicted }))

/-- The body of the data-register-empty handler (R154, R155). -/
def udreBody (i : Idx) (s : State) : Reaction :=
  match (s.port i).reg with
  | none => .quiet (s.setUdrie i false)
  | some d =>
    if 0 < d.tx.count then
      match ringPop d.tx with
      | .error e => slotFault i .tx e
      | .ok (b, tx) => .quiet (txdWrite i b (s.setReg i (some { d with tx := tx })))
    else .quiet (s.setUdrie i false)

/-- One dispatcher step: a halted block takes none (R165), a condition that holds delivers the event, one that does not
leaves the state (log 2). -/
def deliver (deliverable : Bool) (body : State → Reaction) (s : State) : Outcome :=
  if s.fault.isSome then .fault .halted
  else if deliverable then settle s (handler body s)
  else .next s

/-- EV_RXC (R150, R152, R153). -/
def execEvRxc (i : Idx) (s : State) : Outcome := deliver (rxcDeliverable i s) (rxcBody i) s

/-- EV_UDRE (R151, R152, R154). -/
def execEvUdre (i : Idx) (s : State) : Outcome := deliver (udreDeliverable i s) (udreBody i) s

end Sys2Proof.Machine
end

