-- ==== Sys2Proof/Machine/Lifecycle.lean ====
section
/-! DEFINITION. Construction and destruction of a driver (43_lifecycle.md R118 to R120). -/

namespace Sys2Proof.Machine

/-- CONSTRUCT (R118, R119): check and install inside the critical section; on success I becomes 1 after its release. -/
def execConstruct (i : Idx) (nRx nTx : Nat) (s : State) : Outcome :=
  foreground (.construct i nRx nTx) s <| perIndex i s <|
    match (s.port i).reg with
    | some _ => criticalSection (Reaction.err .eDuplicate) s
    | none =>
      (criticalSection (fun u => .ok .empty (u.setReg i (some (Driver.fresh nRx nTx)))) s).map
        (fun t => t.setI true)

/-- DESTRUCT (R120). -/
def execDestruct (i : Idx) (s : State) : Outcome :=
  foreground (.destruct i) s <| perDriver i s fun _ =>
    criticalSection (fun u =>
      .ok .empty (u.setPort i { u.port i with ctrlB := (u.port i).ctrlB.clearEnables, reg := none })) s

end Sys2Proof.Machine
end

