-- ==== Sys2Proof/Machine/RingCommands.lean ====
section
/-! DEFINITION. The direct ring commands (40_ring_buffer.md R88 to R94). -/

namespace Sys2Proof.Machine

/-- RB_PUSH (R89). -/
def execRbPush (i : Idx) (sel : RingSel) (b : Nat) (s : State) : Outcome :=
  let w := encodeWord (.rbPush i sel b)
  foreground (.rbPush i sel b) s <| guardedRing w i sel s fun d r =>
    if r.count = r.N then .raise (.ringOverrun w i sel)
    else
      match ringPush r (BitVec.ofNat 8 b) with
      | .error e => slotFault i sel e
      | .ok r' => .ok .empty (s.setReg i (some (d.setRing sel r')))

/-- RB_POP (R90). -/
def execRbPop (i : Idx) (sel : RingSel) (s : State) : Outcome :=
  let w := encodeWord (.rbPop i sel)
  foreground (.rbPop i sel) s <| guardedRing w i sel s fun d r =>
    if r.count = 0 then .raise (.ringUnderrun w i sel)
    else
      match ringPop r with
      | .error e => slotFault i sel e
      | .ok (b, r') => .ok (.byte b) (s.setReg i (some (d.setRing sel r')))

/-- RB_FULL (R91). -/
def execRbFull (i : Idx) (sel : RingSel) (s : State) : Outcome :=
  foreground (.rbFull i sel) s <| guardedRing (encodeWord (.rbFull i sel)) i sel s fun _ r =>
    .ok (.flag (decide (r.count = r.N))) s

/-- RB_EMPTY (R92). -/
def execRbEmpty (i : Idx) (sel : RingSel) (s : State) : Outcome :=
  foreground (.rbEmpty i sel) s <| guardedRing (encodeWord (.rbEmpty i sel)) i sel s fun _ r =>
    .ok (.flag (decide (r.count = 0))) s

/-- RB_SIZE (R93). -/
def execRbSize (i : Idx) (sel : RingSel) (s : State) : Outcome :=
  foreground (.rbSize i sel) s <| guardedRing (encodeWord (.rbSize i sel)) i sel s fun _ r =>
    .ok (.number r.count) s

/-- RB_CAPACITY (R94). -/
def execRbCapacity (i : Idx) (sel : RingSel) (s : State) : Outcome :=
  foreground (.rbCapacity i sel) s <| guardedRing (encodeWord (.rbCapacity i sel)) i sel s fun _ r =>
    .ok (.number r.N) s

end Sys2Proof.Machine
end

