-- ==== Sys2Proof/Machine/Dispatch.lean ====
section
/-! DEFINITION. The meaning of each row of the opcode table, one arm per constructor. -/

namespace Sys2Proof.Machine

def exec (i : Instr) (s : State) : Host.Outcome State Fault Refusal :=
  match i with
  | .construct idx nRx nTx => Sys2Proof.Machine.execConstruct idx nRx nTx s
  | .destruct idx => Sys2Proof.Machine.execDestruct idx s
  | .configure idx par stb baud => Sys2Proof.Machine.execConfigure idx par stb baud s
  | .write idx bytes => Sys2Proof.Machine.execWrite idx bytes s
  | .read idx len => Sys2Proof.Machine.execRead idx len s
  | .flush idx => Sys2Proof.Machine.execFlush idx s
  | .ovfRead idx => Sys2Proof.Machine.execOvfRead idx s
  | .ovfClear idx => Sys2Proof.Machine.execOvfClear idx s
  | .badRead idx => Sys2Proof.Machine.execBadRead idx s
  | .csEnter => Sys2Proof.Machine.execCsEnter s
  | .csExit => Sys2Proof.Machine.execCsExit s
  | .rbPush idx sel b => Sys2Proof.Machine.execRbPush idx sel b s
  | .rbPop idx sel => Sys2Proof.Machine.execRbPop idx sel s
  | .rbFull idx sel => Sys2Proof.Machine.execRbFull idx sel s
  | .rbEmpty idx sel => Sys2Proof.Machine.execRbEmpty idx sel s
  | .rbSize idx sel => Sys2Proof.Machine.execRbSize idx sel s
  | .rbCapacity idx sel => Sys2Proof.Machine.execRbCapacity idx sel s
  | .baudSelect baud => Sys2Proof.Machine.execBaudSelect baud s
  | .evRxc idx => Sys2Proof.Machine.execEvRxc idx s
  | .evUdre idx => Sys2Proof.Machine.execEvUdre idx s

end Sys2Proof.Machine
end

