-- ==== Sys2Proof/Machine/Environment.lean ====
section
/-! DEFINITION. The environment's steps (60_exceptions.md R172, R174, R178) and the reset event
(70_reset_and_hazards.md R185). A step that is not enabled leaves the state (log 2). -/

namespace Sys2Proof.Machine

/-- RX_ARRIVE(i, b) (R172 a). On an overrun the free choice (log 4) decides whether `b` replaces the held byte. -/
def rxArrive (i : Idx) (b : Byte) (s : State) : State :=
  if s.present i ∧ (s.port i).ctrlB.rxen = true then
    match (s.port i).rxHold with
    | none => s.setPort i { s.port i with rxHold := some b }
    | some _ =>
      if Config.freeChoice s.choices then
        (s.setPort i { s.port i with rxHold := some b }).draw
      else s.draw
  else s

/-- TX_DRAIN(i) (R174). With TXEN = 0 the free choice (log 4) decides whether the byte reaches the line. -/
def txDrain (i : Idx) (s : State) : State :=
  let p := s.port i
  if s.present i ∧ p.txdEmpty = false then
    if p.ctrlB.txen then
      s.setPort i { p with lineOut := p.lineOut ++ [p.txdReg], txdEmpty := true }
    else if Config.freeChoice s.choices then
      (s.setPort i { p with lineOut := p.lineOut ++ [p.txdReg], txdEmpty := true }).draw
    else (s.setPort i { p with txdEmpty := true }).draw
  else s

/-- HW_FAULT(i) (R178): it exists only with BAD_SOURCE = true. -/
def hwFault (i : Idx) (s : State) : State :=
  if s.present i ∧ s.cfg.badSource = true then
    match (s.port i).reg with
    | none => s
    | some d => s.setReg i (some { d with bad := true })
  else s

/-- The reset event (R185): every state element to the value of R42. The parameters, the inputs still to come, the
replies already given and the count of free choices are no state elements of R42 and stay (log 9). -/
def resetEvent (s : State) : State :=
  { State.resetWith s.cfg with
    sched := s.sched, program := s.program, replies := s.replies, choices := s.choices }

end Sys2Proof.Machine
end

