-- ==== Sys2Proof/Machine/Schedule.lean ====
section
/-! DEFINITION. One turn of the schedule (60_exceptions.md R166): the foreground issues its next command or runs the
second phase of a WRITE, the dispatcher delivers an event, the environment steps, or the block is reset. -/

namespace Sys2Proof.Machine

/-- The foreground issues a command (R65, R79): an illegal word, or an event record (R75), raises
F_ILLEGAL_COMMAND. -/
def issue (c : Command) (s : State) : Outcome :=
  match decode c.word c.operands with
  | .error _ => .next (s.raise (.illegalCommand c.word))
  | .ok i => if i.isEvent then .next (s.raise (.illegalCommand c.word)) else exec i s

/-- The foreground's step: the second phase of a WRITE that is between its phases (no other command runs there, R134),
else its next command, else nothing. -/
def foregroundTurn (s : State) : Outcome :=
  match s.pending with
  | some p => writePhase2 p s
  | none =>
    match s.program with
    | [] => .next s
    | c :: rest => issue c (s.setProgram rest)

/-- The dispatcher's step for an event record (R75). A word that is no event record names no step (log 11). -/
def dispatchTurn (record : Word) (s : State) : Outcome :=
  match decode record .zero with
  | .error _ => .next s
  | .ok i => if i.isEvent then exec i s else .next s

/-- The step a turn names, taken in a block that is not halted. -/
def turnStep (t : Turn) (s : State) : Outcome :=
  match t with
  | .foreground => foregroundTurn s
  | .dispatch record => dispatchTurn record s
  | .rxArrive i b => .next (rxArrive i b s)
  | .txDrain i => .next (txDrain i s)
  | .hwFault i => .next (hwFault i s)
  | .reset => .next (resetEvent s)

/-- Take the next turn. A halted block takes no step of any agent; only a reset clears the fault (R165, R185). With no
turn left the block waits (R186). -/
def takeTurn (s : State) : Outcome :=
  match s.sched with
  | [] => if s.fault.isSome then .fault .halted else .next s
  | t :: rest =>
    if s.fault.isSome ∧ t ≠ .reset then .fault .halted
    else turnStep t (s.setSched rest)

/-- A word names a dispatcher step (R75). -/
def isRecord (w : Word) : Bool := decide (w.op = 0xC ∨ w.op = 0xD)

/-- Place a word to be taken next: an event record goes to the dispatcher, any other word to the foreground with an
empty operand record, as its next command (log 3, log 11). -/
def placeWord (s : State) (w : Word) : State :=
  if isRecord w then s.setSched (.dispatch w :: s.sched)
  else ((s.setSched (.foreground :: s.sched)).setProgram (⟨w, .zero⟩ :: s.program)).setPending none

end Sys2Proof.Machine
end

