-- ==== Sys2Proof/Machine/Step.lean ====
section
/-! DEFINITION. One step of the machine, and how the host places a table row's word. -/

namespace Sys2Proof.Machine

/-- One atomic step (60_exceptions.md R166): the next turn of the schedule. -/
def step (s : State) : Host.Outcome State Fault Refusal := takeTurn s

/-- `s` with a table row's word placed where the next step takes it (log 3). -/
def State.withFetchWord (s : State) (nbits w : Nat) : State := placeWord s (tableWord nbits w)

end Sys2Proof.Machine
end

