-- ==== Sys2Proof/Machine/Fairness.lean ====
section
/-! DEFINITION. The scheduling of 60_exceptions.md R166 over runs without an end: which steps are enabled, what a run is,
and weak fairness. -/

namespace Sys2Proof.Machine

/-- The turn names a step that may be the next one (R166): the foreground has a step, the event's delivery condition
holds (R150, R151), the environment step is enabled (R172, R174, R178). A reset is none of these (R185). -/
def State.enabled (s : State) : Turn → Bool
  | .foreground => s.fault.isNone && (s.pending.isSome || !s.program.isEmpty)
  | .dispatch w =>
    s.fault.isNone &&
      (match decode w .zero with
       | .ok (.evRxc i) => rxcDeliverable i s
       | .ok (.evUdre i) => udreDeliverable i s
       | _ => false)
  | .rxArrive i _ => s.fault.isNone && decide (s.present i) && (s.port i).ctrlB.rxen
  | .txDrain i => s.fault.isNone && decide (s.present i) && !(s.port i).txdEmpty
  | .hwFault i => s.fault.isNone && decide (s.present i) && s.cfg.badSource && (s.port i).reg.isSome
  | .reset => false

/-- An event or an environment step: the turns that R166 asks fairness of. -/
def Turn.isFair : Turn → Bool
  | .foreground => false
  | .dispatch _ => true
  | .rxArrive _ _ => true
  | .txDrain _ => true
  | .hwFault _ => true
  | .reset => false

/-- The state with `turn` as the next turn and `offer` as the command the foreground has to issue, if it has one. -/
def State.facing (s : State) (turn : Turn) (offer : Option Command) : State :=
  (s.setSched [turn]).setProgram offer.toList

/-- A run without an end (R166): at point `n` the agent of `turn n` steps, the foreground having the command `offer n`,
if any, and the step answers the next state. A run that halts is finite and is none of these. -/
def IsRun (turn : Nat → Turn) (offer : Nat → Option Command) (state : Nat → State) : Prop :=
  ∀ n, step ((state n).facing (turn n) (offer n)) = .next (state (n + 1))

/-- Weak fairness for one step (R166): from every point on, if it stays enabled it is taken. -/
def FairFor (turn : Nat → Turn) (state : Nat → State) (τ : Turn) : Prop :=
  ∀ n, (∀ m, n ≤ m → (state m).enabled τ = true) → ∃ m, n ≤ m ∧ turn m = τ

/-- Weak fairness (R166): "an event or environment step that stays enabled is eventually taken" (log 17). -/
def WeaklyFair (turn : Nat → Turn) (state : Nat → State) : Prop :=
  ∀ τ : Turn, τ.isFair = true → FairFor turn state τ

/-- How often, before point `n`, the step `τ` was taken while it was enabled. -/
def timesTaken (turn : Nat → Turn) (state : Nat → State) (τ : Turn) : Nat → Nat
  | 0 => 0
  | n + 1 => timesTaken turn state τ n + (if turn n = τ ∧ (state n).enabled τ = true then 1 else 0)

end Sys2Proof.Machine
end

