-- ==== Sys2Proof/Safety.lean ====
section
/-! DEFINITION. What counts as a sound state: the ring invariants (10_state.md R26), the invariant of a peripheral index
and of the whole state, the readiness of a driver command, and the observation functions the statements use. -/

namespace Sys2Proof.Machine

/-- The ring invariants: the capacity range of R25, R26 (a) to (d), and the storage in canonical form within the
capacity. -/
abbrev Ring.Ok (r : Ring) : Prop :=
  (1 ≤ r.N ∧ r.N ≤ 65535) ∧
  r.count ≤ r.N ∧
  (r.head < r.N ∧ r.tail < r.N) ∧
  r.tail = (r.head + r.count) % r.N ∧
  (∀ j < r.count, (r.store.read ((r.head + j) % r.N)).isSome = true) ∧
  r.store.wf ∧
  (∀ c ∈ r.store, c.1 < r.N)

/-- A driver whose rings are sound, and whose `bad` flag no step has set where nothing may set it (R28). -/
abbrev Driver.Ok (badSource : Bool) (d : Driver) : Prop :=
  d.rx.Ok ∧ d.tx.Ok ∧ (badSource = false → d.bad = false)

/-- The fields of the images that no rule gives another value: TXCIE and WS2 (R31), MODE, PM ≠ 01, WS10 and CPOL
(R32). -/
abbrev Port.ImagesOk (p : Port) : Prop :=
  p.ctrlB.txcie = false ∧ p.ctrlB.ws2 = false ∧
  p.ctrlC.mode = 0b00 ∧ p.ctrlC.pm ≠ 0b01 ∧ p.ctrlC.ws10 = 0b11 ∧ p.ctrlC.cpol = false

/-- With no driver, or one that no CONFIGURE has configured, the receiver and transmitter and the receive interrupt are
off (R118, R120, R187); with no driver UDRIE is 0 too (R155). With a configured driver they are on, image C is that of
its settings, and DIV and U2X are the LUT's for its rate (R113, R129, R130). -/
abbrev Port.EnablesOk (c : Config) (p : Port) : Prop :=
  (p.reg = none → p.ctrlB.udrie = false) ∧
  (p.reg.bind Driver.settings = none →
    p.ctrlB.rxcie = false ∧ p.ctrlB.rxen = false ∧ p.ctrlB.txen = false) ∧
  (∀ st ∈ p.reg.bind Driver.settings,
    p.ctrlB.rxcie = true ∧ p.ctrlB.rxen = true ∧ p.ctrlB.txen = true ∧ p.ctrlC = imageC st ∧
    select c.baudLut st.baud = some (p.div.toNat, p.u2x))

/-- The invariant of one peripheral index. -/
abbrev Port.Ok (c : Config) (p : Port) : Prop :=
  (∀ d ∈ p.reg, d.Ok c.badSource) ∧ p.ImagesOk ∧ p.EnablesOk c

/-- The invariant of the machine: every index is sound, an index that does not exist is as at reset (log 10), and a
WRITE between its phases has its driver (R134). -/
abbrev State.Inv (s : State) : Prop :=
  (∀ i : Idx, (s.port i).Ok s.cfg) ∧
  (∀ i : Idx, ¬ s.present i → s.port i = Port.reset) ∧
  (∀ p ∈ s.pending, s.present p.idx ∧ (s.port p.idx).reg.isSome = true)

/-- The checks of R79 steps 1, 4 and 5 pass for index `i`, whose driver is `d`. -/
abbrev State.Ready (s : State) (i : Idx) (d : Driver) : Prop :=
  s.fault = none ∧ s.present i ∧ (s.port i).reg = some d

/-- One byte of the block's memory: slot `k` of the ring `sel` of index `i` (R50 a); no value where there is no driver
or no push has written the slot. -/
def State.slot (s : State) (i : Idx) (sel : RingSel) (k : Nat) : Option Byte :=
  (s.port i).reg.bind (fun d => (d.ring sel).store.read k)

/-- The RXC event of index `i` may be delivered (R150). -/
abbrev State.RxcReady (s : State) (i : Idx) (b : Byte) : Prop :=
  s.fault = none ∧ s.present i ∧ s.I = true ∧ (s.port i).ctrlB.rxcie = true ∧ (s.port i).rxHold = some b

/-- The UDRE event of index `i` may be delivered (R151). -/
abbrev State.UdreReady (s : State) (i : Idx) : Prop :=
  s.fault = none ∧ s.present i ∧ s.I = true ∧ (s.port i).ctrlB.udrie = true ∧ (s.port i).txdEmpty = true

/-- The next turn of `s` is a reset (R185). -/
abbrev State.resets (s : State) : Prop := s.sched.head? = some .reset

/-- The foreground's next step in `s` issues the word `w` with operands `o`, the inputs after it being `rest` and
`turns`. -/
abbrev State.Issues (s : State) (w : Word) (o : Operands) (rest : List Command) (turns : List Turn) : Prop :=
  s.fault = none ∧ s.pending = none ∧ s.program = ⟨w, o⟩ :: rest ∧ s.sched = .foreground :: turns

/-- From `s` to `t` by steps, every state on the way having at least `n` open critical sections (R103: what stands
between a CS_ENTER and the CS_EXIT that closes it). -/
inductive Within (n : Nat) : State → State → Prop where
  | here (s : State) : n ≤ s.csStack.length → Within n s s
  | more (s t u : State) : Within n s t → step t = .next u → n ≤ u.csStack.length → Within n s u

/-- The receive handler's push, for each byte in turn (R87): whether any byte was evicted, and the ring. -/
def pushAll (r : Ring) : List Byte → Except SlotError (Bool × Ring)
  | [] => .ok (false, r)
  | b :: bs =>
    match ringPushOverwrite r b with
    | .error e => .error e
    | .ok (e₁, r₁) =>
      match pushAll r₁ bs with
      | .error e => .error e
      | .ok (e₂, r₂) => .ok (e₁ || e₂, r₂)

/-- The schedule in which the UDRE event of index `i` and the drain of its transmitter alternate `k` times and one more
UDRE event follows (R157). The record is 0xDI00. -/
def drainSchedule (i : Idx) : Nat → List Turn
  | 0 => [.dispatch (encodeWord (.evUdre i))]
  | k + 1 => .dispatch (encodeWord (.evUdre i)) :: .txDrain i :: drainSchedule i k

end Sys2Proof.Machine
end

