-- ==== Sys2Proof/Certificates/Slice0/Obligations.lean ====
section
/-! DEFINITION. The statements about the block, each over every state. A statement that rests on a choice of the model
and not on a rule of the spec says so and names the entry of notes/assumptions/ (log <n>). -/

open Sys2Proof Sys2Proof.Machine

/-! ### Encoding -/

/-- For every instruction of the opcode table, with every index, parity, stop count, ring select and operand, decoding the
command word and the operand record that encode it gives the instruction back. No field or operand is dropped.
(30_encoding.md sections 1 to 3, R65, R67, R72) -/
def Obligations.DecodeOfEncode : Prop :=
  ∀ i : Instr, decode (encodeWord i) (encodeOperands i) = .ok i

/-- Whenever a word decodes, with any operand record, encoding the instruction gives exactly that word back, and the word
has the fixed bits of the row of opcode_table.json that the instruction stands for. So no two words decode to the same
fields and no word outside the table decodes. (30_encoding.md sections 2 and 4, R67, R74) -/
def Obligations.EncodeOfDecode : Prop :=
  ∀ (w : Word) (o : Operands) (i : Instr), decode w o = .ok i →
    encodeWord i = w ∧ i.row ∈ opcodeTable ∧ i.row.fits w

/-- The decoding vectors of 95_test_vectors.md section 4: each listed word decodes, with a concrete operand record, to the
instruction the table gives, and each word listed as illegal is rejected. (95_test_vectors.md section 4) -/
def Obligations.DecodingVectors : Prop :=
  let o : Operands := { nRx := 4, nTx := 8, baud := 9600, bytes := [1, 2], len := 3, byte := 7 }
  decode 0x1000 o = .ok (.construct 0 4 8) ∧ decode 0x2100 o = .ok (.destruct 1) ∧
  decode 0x3003 o = .ok (.configure 0 .even .two 9600) ∧ decode 0x3004 o = .ok (.configure 0 .odd .one 9600) ∧
  decode 0x3006 o = .error .reservedParity ∧ decode 0x4100 o = .ok (.write 1 [1, 2]) ∧
  decode 0x5000 o = .ok (.read 0 3) ∧ decode 0x6000 o = .ok (.flush 0) ∧
  decode 0x7001 o = .ok (.ovfClear 0) ∧ decode 0x7102 o = .ok (.badRead 1) ∧
  decode 0x8000 o = .ok .csEnter ∧ decode 0x9000 o = .ok .csExit ∧
  decode 0xA085 o = .ok (.rbCapacity 0 .tx) ∧ decode 0xA184 o = .ok (.rbSize 1 .tx) ∧
  decode 0xA007 o = .error .reservedPrim ∧ decode 0xB000 o = .ok (.baudSelect 9600) ∧
  decode 0xC100 o = .ok (.evRxc 1) ∧ decode 0xD000 o = .ok (.evUdre 0) ∧
  decode 0xE000 o = .error .reservedOp ∧ decode 0xF000 o = .error .reservedOp ∧
  decode 0x0000 o = .error .reservedOp

/-- When the foreground issues a word with a reserved op, a sub bit set that must be 0, par = 11 in CONFIGURE, FLAGS
sub[1:0] = 11, RB prim 110 or 111, idx not 0000 in a global command, or any word that fits no row of
opcode_table.json, the step records F_ILLEGAL_COMMAND(word) and changes nothing else (the turn and the command are
taken off the inputs). (R74) -/
def Obligations.IllegalWordRaises : Prop :=
  ∀ (s : State) (w : Word) (o : Operands) (rest : List Command) (turns : List Turn), s.Issues w o rest turns →
    ((w.op = 0x0 ∨ w.op = 0xE ∨ w.op = 0xF) ∨
      ((w.op = 0x1 ∨ w.op = 0x2 ∨ w.op = 0x4 ∨ w.op = 0x5 ∨ w.op = 0x6 ∨ w.op = 0x8 ∨ w.op = 0x9 ∨ w.op = 0xB ∨
        w.op = 0xC ∨ w.op = 0xD) ∧ w.sub ≠ 0) ∨
      (w.op = 0x3 ∧ w.field 7 3 ≠ 0) ∨ (w.op = 0x7 ∧ w.field 7 2 ≠ 0) ∨ (w.op = 0xA ∧ w.field 6 3 ≠ 0) ∨
      (w.op = 0x3 ∧ w.field 2 1 = 3) ∨ (w.op = 0x7 ∧ w.field 1 0 = 3) ∨
      (w.op = 0xA ∧ (w.field 2 0 = 6 ∨ w.field 2 0 = 7)) ∨
      ((w.op = 0x8 ∨ w.op = 0x9 ∨ w.op = 0xB) ∧ w.field 11 8 ≠ 0) ∨
      (∀ r ∈ opcodeTable, ¬ r.fits w)) →
    step s = .next (((s.setSched turns).setProgram rest).raise (.illegalCommand w))

/-- A foreground command word with op 0xC or 0xD raises F_ILLEGAL_COMMAND(word) and changes nothing else. The same words
0xCI00 and 0xDI00, taken by the dispatcher in a block that is not halted, are the steps EV_RXC and EV_UDRE of index I.
(R75) -/
def Obligations.EventRecordsNameDispatcherSteps : Prop :=
  (∀ (s : State) (w : Word) (o : Operands) (rest : List Command) (turns : List Turn), s.Issues w o rest turns →
    (w.op = 0xC ∨ w.op = 0xD) →
    step s = .next (((s.setSched turns).setProgram rest).raise (.illegalCommand w))) ∧
  (∀ (s : State) (i : Idx) (turns : List Turn), s.fault = none →
    (s.sched = .dispatch (BitVec.ofNat 16 (0xC000 + i.val * 256)) :: turns →
      step s = exec (.evRxc i) (s.setSched turns)) ∧
    (s.sched = .dispatch (BitVec.ofNat 16 (0xD000 + i.val * 256)) :: turns →
      step s = exec (.evUdre i) (s.setSched turns)))

/-! ### Steps, faults and the checks of R79 -/

/-- In a block that is not halted: a foreground turn with no WRITE between its phases runs exec of the instruction its
next command decodes to, the turn and the command being taken off the inputs; a foreground turn with a WRITE between
its phases runs that second phase and no command; a dispatcher turn runs exec of the event its record decodes to; with
no turn left the block waits unchanged (the turn list is the model's, log 2 and log 3). (60_exceptions.md R166,
44_driver_ops.md R134, 70_reset_and_hazards.md R186) -/
def Obligations.StepRunsDecodedInstruction : Prop :=
  (∀ (s : State) (w : Word) (o : Operands) (rest : List Command) (turns : List Turn) (i : Instr),
    s.Issues w o rest turns → decode w o = .ok i → i.isEvent = false →
    step s = exec i ((s.setSched turns).setProgram rest)) ∧
  (∀ (s : State) (p : PendingWrite) (turns : List Turn), s.fault = none → s.pending = some p →
    s.sched = .foreground :: turns → step s = writePhase2 p (s.setSched turns)) ∧
  (∀ (s : State) (w : Word) (turns : List Turn) (i : Instr), s.fault = none → s.sched = .dispatch w :: turns →
    decode w .zero = .ok i → i.isEvent = true → step s = exec i (s.setSched turns)) ∧
  (∀ s : State, s.fault = none → s.sched = [] → step s = .next s)

/-- When an instruction, or the second phase of a WRITE in a block that is not halted, answers a state with a fault
recorded, that state is the old one with only the fault register set: no other write, no reply. The same holds of
every step, but that its turn, and the command where it issued one, are taken off the inputs. Once a fault is
recorded, no foreground command, handler or environment step is taken: no instruction answers a next state and no step
does, unless it is a reset, which clears the fault. (R165) -/
def Obligations.FaultRecordedAndHalts : Prop :=
  (∀ (i : Instr) (s t : State) (f : FaultRecord), exec i s = .next t → t.fault = some f → t = s.raise f) ∧
  (∀ (p : PendingWrite) (s t : State) (f : FaultRecord), s.fault = none → writePhase2 p s = .next t →
    t.fault = some f → t = s.raise f) ∧
  (∀ (s t : State) (f : FaultRecord), step s = .next t → t.fault = some f →
    t = (s.setSched s.sched.tail).raise f ∨
    ∃ w o rest turns, s.Issues w o rest turns ∧ t = ((s.setSched turns).setProgram rest).raise f) ∧
  (∀ (i : Instr) (s t : State), s.fault ≠ none → exec i s ≠ .next t) ∧
  (∀ s t : State, s.fault ≠ none → step s = .next t → s.resets ∧ t.fault = none) ∧
  (∀ s : State, s.resets → ∃ t, step s = .next t ∧ t.fault = none)

/-- In a block that is not halted, CONSTRUCT with a capacity of 0 or above 65535, WRITE with more than 65535 bytes and
READ with L above 65535 (and, by the ranges of R72, a baud of 2^32 or more in CONFIGURE or BAUD_SELECT and a byte
above 255 in RB_PUSH) record F_BAD_OPERAND with the word and the operand record and change nothing else, whatever the
index is. (The form of the recorded operand is the model's reading, log 12.) (30_encoding.md R72, 30_encoding.md R79,
30_encoding.md R81, 60_exceptions.md R164) -/
def Obligations.OperandOutOfRangeRaises : Prop :=
  ∀ s : State, s.fault = none →
    (∀ (i : Idx) (nRx nTx : Nat), (nRx = 0 ∨ nTx = 0 ∨ 65535 < nRx ∨ 65535 < nTx) →
      exec (.construct i nRx nTx) s = .next (s.raise (.badOperand (BitVec.ofNat 16 (0x1000 + i.val * 256))
        { Operands.zero with nRx := nRx, nTx := nTx }))) ∧
    (∀ (i : Idx) (bytes : List Byte), 65535 < bytes.length →
      exec (.write i bytes) s = .next (s.raise (.badOperand (BitVec.ofNat 16 (0x4000 + i.val * 256))
        { Operands.zero with bytes := bytes }))) ∧
    (∀ (i : Idx) (len : Nat), 65535 < len →
      exec (.read i len) s = .next (s.raise (.badOperand (BitVec.ofNat 16 (0x5000 + i.val * 256))
        { Operands.zero with len := len }))) ∧
    (∀ (i : Idx) (par : Parity) (stb : StopBits) (baud : Nat), 2 ^ 32 ≤ baud →
      exec (.configure i par stb baud) s = .next (s.raise (.badOperand (encodeWord (.configure i par stb baud))
        { Operands.zero with baud := baud }))) ∧
    (∀ baud : Nat, 2 ^ 32 ≤ baud →
      exec (.baudSelect baud) s = .next (s.raise (.badOperand 0xB000 { Operands.zero with baud := baud }))) ∧
    (∀ (i : Idx) (sel : RingSel) (b : Nat), 255 < b →
      exec (.rbPush i sel b) s = .next (s.raise (.badOperand (encodeWord (.rbPush i sel b))
        { Operands.zero with byte := b })))

/-- In a block that is not halted, every per-index command with its operands in range and idx at or above MAX_UARTS
answers E_INDEX_RANGE with no results and changes nothing else. (R77) -/
def Obligations.IndexOutOfRangeAnswersError : Prop :=
  ∀ (ins : Instr) (i : Idx) (s : State), ins.idx? = some i → ins.isEvent = false → ins.wf = true →
    s.fault = none → s.cfg.maxUarts ≤ i.val →
    exec ins s = .next (s.answer ⟨.eIndexRange, .empty⟩)

/-- In a block that is not halted, every per-index command other than CONSTRUCT, with its operands in range and an
existing index whose slot is empty, answers E_NOT_CONSTRUCTED with no results and changes nothing else. For the direct
ring commands this holds whatever I is. (R78) -/
def Obligations.EmptySlotAnswersNotConstructed : Prop :=
  ∀ (ins : Instr) (i : Idx) (s : State), ins.idx? = some i → ins.isDriverCommand = true → ins.wf = true →
    s.fault = none → s.present i → (s.port i).reg = none →
    exec ins s = .next (s.answer ⟨.eNotConstructed, .empty⟩)

/-- Whenever an instruction answers a next state, that state has exactly one reply more; or it has none more and the
instruction is an event, or a fault is recorded in it, or the instruction is a WRITE whose second phase, which gives
its reply, now waits. A reply with an error status has no results and is the only change. CS_ENTER, CS_EXIT and
BAUD_SELECT reply only OK; CONSTRUCT replies OK, E_INDEX_RANGE or E_DUPLICATE; CONFIGURE replies OK, E_INDEX_RANGE,
E_NOT_CONSTRUCTED, E_BAUD_UNSUPPORTED or E_TX_BUSY; every other command replies OK, E_INDEX_RANGE or
E_NOT_CONSTRUCTED; event handlers reply nothing. E_NOT_SUPPORTED is never returned. (30_encoding.md R73,
60_exceptions.md R160, R162, R163, 44_driver_ops.md R133, R134) -/
def Obligations.ErrorStatusesPerCommand : Prop :=
  ∀ (ins : Instr) (s t : State), exec ins s = .next t →
    (t.replies = s.replies ∧
      (ins.isEvent = true ∨ t.fault ≠ none ∨
        ∃ i bytes k, ins = .write i bytes ∧ t.pending = some { idx := i, written := k })) ∨
    ∃ r : Reply, t.replies = s.replies ++ [r] ∧ ins.isEvent = false ∧
      (r.status ≠ .ok → t = s.answer ⟨r.status, .empty⟩) ∧
      (r.status = .ok ∨
        match ins with
        | .csEnter => False
        | .csExit => False
        | .baudSelect _ => False
        | .construct _ _ _ => r.status = .eIndexRange ∨ r.status = .eDuplicate
        | .configure _ _ _ _ => r.status = .eIndexRange ∨ r.status = .eNotConstructed ∨
            r.status = .eBaudUnsupported ∨ r.status = .eTxBusy
        | _ => r.status = .eIndexRange ∨ r.status = .eNotConstructed)

/-! ### Rings -/

/-- On a ring with room whose tail names a slot, ring_push answers a ring in which the slot at the old tail holds the byte
and every other slot reads as before, the tail is its successor (0 after N - 1), the count is one more, and the head
and the capacity are as before; storage in canonical form stays so (that form is the model's, log 6).
(40_ring_buffer.md R85) -/
def Obligations.RingPushAppends : Prop :=
  ∀ (r : Ring) (b : Byte), r.count < r.N → r.tail < r.N →
    ∃ r' : Ring, ringPush r b = .ok r' ∧ r'.store.read r.tail = some b ∧
      (∀ k, k ≠ r.tail → r'.store.read k = r.store.read k) ∧
      r'.tail = (if r.tail + 1 = r.N then 0 else r.tail + 1) ∧ r'.count = r.count + 1 ∧
      r'.head = r.head ∧ r'.N = r.N ∧ (r.store.wf → r'.store.wf)

/-- On a ring that holds a byte and whose head names a slot holding b, ring_pop answers b and a ring in which the head is
its successor (0 after N - 1), the count is one less, and the storage, the tail and the capacity are as before. (R86) -/
def Obligations.RingPopRemovesHead : Prop :=
  ∀ (r : Ring) (b : Byte), 0 < r.count → r.head < r.N → r.store.read r.head = some b →
    ∃ r' : Ring, ringPop r = .ok (b, r') ∧ r'.head = (if r.head + 1 = r.N then 0 else r.head + 1) ∧
      r'.count = r.count - 1 ∧ r'.store = r.store ∧ r'.tail = r.tail ∧ r'.N = r.N

/-- On a sound ring that is full it answers true and the net effect: head and tail advance by one modulo N, the count
stays N, the slot at the old tail, which is the old head, holds the byte and no other slot changes. On a sound ring
that is not full it answers false and exactly what ring_push answers. (R87) -/
def Obligations.RingPushOverwriteEvicts : Prop :=
  ∀ (r : Ring) (b : Byte), r.Ok →
    (r.count = r.N → r.tail = r.head ∧ ∃ r' : Ring, ringPushOverwrite r b = .ok (true, r') ∧
      r'.head = (r.head + 1) % r.N ∧ r'.tail = (r.tail + 1) % r.N ∧ r'.count = r.N ∧ r'.N = r.N ∧
      r'.store.read r.tail = some b ∧ (∀ k, k ≠ r.tail → r'.store.read k = r.store.read k)) ∧
    (r.count ≠ r.N → ∃ r' : Ring, ringPush r b = .ok r' ∧ ringPushOverwrite r b = .ok (false, r'))

/-- For every sound ring, whose held bytes are the sequence store[(head + j) mod N] for j below count: the sequence has
count bytes; ring_push with room appends its byte at the end; ring_pop on a held byte returns and removes the first;
ring_push_overwrite on a full ring drops the first and appends its byte, and on another ring appends it. Each answers
a sound ring again (R95), and a fresh ring of a capacity from 1 to 65535 is sound and empty. (R96) -/
def Obligations.RingIsFifo : Prop :=
  (∀ n : Nat, 1 ≤ n → n ≤ 65535 → (Ring.fresh n).Ok ∧ (Ring.fresh n).contents = []) ∧
  (∀ (r : Ring) (b : Byte), r.Ok →
    (∀ j < r.count, r.contents[j]? = r.store.read ((r.head + j) % r.N)) ∧ r.contents.length = r.count ∧
    (r.count < r.N → ∃ r' : Ring, ringPush r b = .ok r' ∧ r'.Ok ∧ r'.contents = r.contents ++ [b]) ∧
    (0 < r.count → ∃ (c : Byte) (r' : Ring), ringPop r = .ok (c, r') ∧ r'.Ok ∧ r.contents = c :: r'.contents) ∧
    (∃ r' : Ring, ringPushOverwrite r b = .ok (decide (r.count = r.N), r') ∧ r'.Ok ∧
      r'.contents = (if r.count = r.N then r.contents.tail else r.contents) ++ [b]))

/-- For every sound ring and every list of bytes pushed one after another by the receive handler's push, the pushes all
answer, the ring stays sound with the same capacity, it holds exactly the last N of the bytes it held followed by the
bytes fed, and an eviction is reported iff those are more than N bytes. (40_ring_buffer.md R87, R96,
95_test_vectors.md S4) -/
def Obligations.OverflowKeepsNewestBytes : Prop :=
  ∀ (r : Ring) (bs : List Byte), r.Ok →
    ∃ (evicted : Bool) (r' : Ring), pushAll r bs = .ok (evicted, r') ∧ r'.Ok ∧ r'.N = r.N ∧
      r'.contents = (r.contents ++ bs).drop ((r.contents ++ bs).length - r.N) ∧
      (evicted = true ↔ r.N < r.count + bs.length)

/-! ### Direct ring commands -/

/-- Inside a critical section (I = 0), with a driver whose selected ring is sound and not full and a byte operand in
range, RB_PUSH completes: the selected ring is what ring_push answers and holds the byte at its end, the reply is OK,
and nothing else of the state changes. Of the memory only the slot at the tail of the selected ring is written.
(40_ring_buffer.md R88, R89) -/
def Obligations.RbPushAppendsOneByte : Prop :=
  ∀ (s : State) (i : Idx) (sel : RingSel) (b : Nat) (d : Driver),
    s.Ready i d → s.I = false → b ≤ 255 → (d.ring sel).Ok → (d.ring sel).count < (d.ring sel).N →
    ∃ (r : Ring) (t : State), ringPush (d.ring sel) (BitVec.ofNat 8 b) = .ok r ∧
      exec (.rbPush i sel b) s = .next t ∧
      t = (s.setReg i (some (d.setRing sel r))).answer ⟨.ok, .empty⟩ ∧
      r.contents = (d.ring sel).contents ++ [BitVec.ofNat 8 b] ∧
      t.slot i sel (d.ring sel).tail = some (BitVec.ofNat 8 b) ∧
      (∀ (j : Idx) (sel' : RingSel) (k : Nat), (j ≠ i ∨ sel' ≠ sel ∨ k ≠ (d.ring sel).tail) →
        t.slot j sel' k = s.slot j sel' k)

/-- Inside a critical section, with a driver whose selected ring is sound and holds a byte, RB_POP completes: it answers
the oldest held byte, the selected ring is what ring_pop answers and holds the rest, and nothing else of the state
changes; every slot of memory reads as before. (40_ring_buffer.md R88, R90) -/
def Obligations.RbPopRemovesOldestByte : Prop :=
  ∀ (s : State) (i : Idx) (sel : RingSel) (d : Driver),
    s.Ready i d → s.I = false → (d.ring sel).Ok → 0 < (d.ring sel).count →
    ∃ (b : Byte) (r : Ring) (t : State), ringPop (d.ring sel) = .ok (b, r) ∧
      exec (.rbPop i sel) s = .next t ∧
      t = (s.setReg i (some (d.setRing sel r))).answer ⟨.ok, .byte b⟩ ∧
      (d.ring sel).contents = b :: r.contents ∧
      (∀ (j : Idx) (sel' : RingSel) (k : Nat), t.slot j sel' k = s.slot j sel' k)

/-- Inside a critical section, with a driver, for either ring: RB_FULL answers whether the count is the capacity, RB_EMPTY
whether it is 0, RB_SIZE the count and RB_CAPACITY the capacity; the reply is the only change. (40_ring_buffer.md R88,
R91, R92, R93, R94) -/
def Obligations.RingQueriesAnswer : Prop :=
  ∀ (s : State) (i : Idx) (sel : RingSel) (d : Driver), s.Ready i d → s.I = false →
    exec (.rbFull i sel) s = .next (s.answer ⟨.ok, .flag (decide ((d.ring sel).count = (d.ring sel).N))⟩) ∧
    exec (.rbEmpty i sel) s = .next (s.answer ⟨.ok, .flag (decide ((d.ring sel).count = 0))⟩) ∧
    exec (.rbSize i sel) s = .next (s.answer ⟨.ok, .number (d.ring sel).count⟩) ∧
    exec (.rbCapacity i sel) s = .next (s.answer ⟨.ok, .number (d.ring sel).N⟩)

/-- With a driver and the operands in range: each of the six direct ring commands issued with I = 1 records
F_UNGUARDED_ACCESS with its word; inside a critical section RB_PUSH on a full ring records F_RING_OVERRUN and RB_POP
on an empty ring F_RING_UNDERRUN, each with the word, the index and the select. Nothing else changes.
(40_ring_buffer.md R88, R89, R90, 70_reset_and_hazards.md R205) -/
def Obligations.RingCommandFaults : Prop :=
  ∀ (s : State) (i : Idx) (sel : RingSel) (d : Driver), s.Ready i d →
    (s.I = true → ∀ ins : Instr,
      (ins = .rbPop i sel ∨ ins = .rbFull i sel ∨ ins = .rbEmpty i sel ∨ ins = .rbSize i sel ∨
        ins = .rbCapacity i sel ∨ ∃ b ≤ 255, ins = .rbPush i sel b) →
      exec ins s = .next (s.raise (.unguardedAccess (encodeWord ins)))) ∧
    (s.I = false → ∀ b ≤ 255, (d.ring sel).count = (d.ring sel).N →
      exec (.rbPush i sel b) s = .next (s.raise (.ringOverrun (encodeWord (.rbPush i sel b)) i sel))) ∧
    (s.I = false → (d.ring sel).count = 0 →
      exec (.rbPop i sel) s = .next (s.raise (.ringUnderrun (encodeWord (.rbPop i sel)) i sel)))

/-! ### Critical sections and I -/

/-- In a block that is not halted: CS_ENTER appends I to the save stack, clears I and replies OK; CS_EXIT with an open
section sets I to the last saved value, removes it and replies OK, whatever I was; CS_EXIT with no open section
records F_CS_UNDERFLOW(0x9000). Nothing else changes. (41_critical_section.md R100, R101) -/
def Obligations.CsEnterAndExit : Prop :=
  ∀ s : State, s.fault = none →
    (exec .csEnter s = .next (({ s with I := false, csStack := s.csStack ++ [s.I] } : State).answer ⟨.ok, .empty⟩)) ∧
    (∀ (st : List Bool) (v : Bool), s.csStack = st ++ [v] →
      exec .csExit s = .next (({ s with I := v, csStack := st } : State).answer ⟨.ok, .empty⟩)) ∧
    (s.csStack = [] → exec .csExit s = .next (s.raise (.csUnderflow 0x9000)))

/-- Every step that answers a next state and is not a reset either leaves the save stack, or is a CS_ENTER the foreground
issued, which appends I and clears it, or a CS_EXIT the foreground issued, which removes the last saved value and puts
it in I. So no composite command, handler or environment step touches the stack between steps. (10_state.md R22,
41_critical_section.md R102, R103, R105) -/
def Obligations.CsStackChangesOnlyByEnterAndExit : Prop :=
  ∀ s t : State, step s = .next t → ¬ s.resets →
    t.csStack = s.csStack ∨
    (∃ w o rest turns, s.Issues w o rest turns ∧ decode w o = .ok .csEnter ∧
      t.csStack = s.csStack ++ [s.I] ∧ t.I = false) ∨
    (∃ w o rest turns, s.Issues w o rest turns ∧ decode w o = .ok .csExit ∧ s.csStack = t.csStack ++ [t.I])

/-- Take a CS_ENTER from any state, then any steps of any agents during which its section is never closed (every state on
the way has at least as many open sections as it opened), ending with exactly its section open, then a CS_EXIT: if it
answers a next state, I and the save stack are again what they were before the CS_ENTER, regardless of what happened
inside. (R103) -/
def Obligations.NestingLaw : Prop :=
  ∀ s a b t : State, exec .csEnter s = .next a → Within (s.csStack.length + 1) a b →
    b.csStack.length = s.csStack.length + 1 → exec .csExit b = .next t →
    t.I = s.I ∧ t.csStack = s.csStack

/-- If a per-driver command, either event handler, or the second phase of a WRITE answers a next state, I is what it was
before: the internal critical section restores it on every exit path, and a handler, delivered only with I = 1, ends
with I = 1. The save stack is unchanged too. (41_critical_section.md R102, 44_driver_ops.md R128, 45_handlers.md R152) -/
def Obligations.DriverCommandsRestoreI : Prop :=
  (∀ (ins : Instr) (s t : State), exec ins s = .next t → (ins.isDriverCommand = true ∨ ins.isEvent = true) →
    t.I = s.I ∧ t.csStack = s.csStack) ∧
  (∀ (p : PendingWrite) (s t : State), writePhase2 p s = .next t → t.I = s.I ∧ t.csStack = s.csStack)

/-- If a step answers a next state in which I is 1 where it was 0, then the foreground issued a CONSTRUCT of an index
whose slot was empty, or a CS_EXIT whose saved value was 1. No handler, environment step, reset or other command does
it. (R189) -/
def Obligations.InterruptEnableRises : Prop :=
  ∀ s t : State, step s = .next t → s.I = false → t.I = true →
    (∃ w o rest turns i nRx nTx, s.Issues w o rest turns ∧ decode w o = .ok (.construct i nRx nTx) ∧
      (s.port i).reg = none ∧ (t.port i).reg = some (Driver.fresh nRx nTx)) ∨
    (∃ w o rest turns, s.Issues w o rest turns ∧ decode w o = .ok .csExit ∧ s.csStack.getLast? = some true)

/-! ### Baud LUT and parameters -/

/-- select answers (divisor, dbl) iff the table splits into entries with other rates, then an entry with exactly the
requested rate and that divisor and dbl, then anything; it answers none iff no entry has the rate. It takes only the
table and the rate. (R111) -/
def Obligations.SelectIsFirstMatch : Prop :=
  ∀ (lut : List LutEntry) (baud : Nat),
    (∀ (div : Nat) (dbl : Bool), select lut baud = some (div, dbl) ↔
      ∃ (pre post : List LutEntry), lut = pre ++ ⟨baud, div, dbl⟩ :: post ∧ ∀ e ∈ pre, e.baud ≠ baud) ∧
    (select lut baud = none ↔ ∀ e ∈ lut, e.baud ≠ baud)

/-- For every built instance with F_CPU = 16000000, select(9600) is (103, 0). That the instance check asks this of the
first entry for 9600, not of any, is the model's reading of R109 (b) with R110 (log 15). (42_baud.md R110, 42_baud.md
R109) -/
def Obligations.SixteenMegahertzSelects103 : Prop :=
  ∀ c : Config, c.fCpu = 16000000 → select c.baudLut 9600 = some (103, false)

/-- No instance is built from parameters with a divisor of 2^12 or more, with MAX_UARTS outside 1 to 16, with F_CPU = 0,
or with F_CPU = 16000000 and no entry (9600, 103, 0). Parameters in range with another F_CPU and every divisor below
2^12 and rate below 2^32 are built, the empty table and duplicate keys included. (At 16 MHz the model asks that the
first 9600 entry be that one, log 15.) (42_baud.md R109, 00_scope.md R7) -/
def Obligations.InstanceCheckRefusesBadTables : Prop :=
  ∀ p : Params,
    ((∃ e ∈ p.baudLut, 2 ^ 12 ≤ e.divisor) ∨ p.maxUarts = 0 ∨ 16 < p.maxUarts ∨ p.fCpu = 0 ∨
      (p.fCpu = 16000000 ∧ ⟨9600, 103, false⟩ ∉ p.baudLut) → Config.build p = none) ∧
    (1 ≤ p.maxUarts → p.maxUarts ≤ 16 → 0 < p.fCpu → p.fCpu ≠ 16000000 →
      (∀ e ∈ p.baudLut, e.divisor < 2 ^ 12 ∧ e.baud < 2 ^ 32) → ∃ c, Config.build p = some c ∧ c.params = p)

/-- In a block that is not halted, with a rate below 2^32: on a match BAUD_SELECT answers OK with found 1, the divisor and
dbl; on a miss OK with found 0, divisor 0 and dbl 0. The reply is the only change. (42_baud.md R112) -/
def Obligations.BaudSelectAnswersQuery : Prop :=
  ∀ (s : State) (baud : Nat), s.fault = none → baud < 2 ^ 32 →
    (∀ (div : Nat) (dbl : Bool), select s.cfg.baudLut baud = some (div, dbl) →
      exec (.baudSelect baud) s = .next (s.answer ⟨.ok, .baud true div dbl⟩)) ∧
    (select s.cfg.baudLut baud = none →
      exec (.baudSelect baud) s = .next (s.answer ⟨.ok, .baud false 0 false⟩))

/-- Every step that answers a next state, a reset included, leaves the parameters of the instance (MAX_UARTS, F_CPU,
BAUD_LUT, layout, policy and the rest) as they were. (Carrying them in the state is the model's choice, log 1.)
(10_state.md R20, 42_baud.md R108, 20_memory.md R63) -/
def Obligations.ParametersNeverChange : Prop :=
  ∀ s t : State, step s = .next t → t.cfg = s.cfg

/-! ### Lifecycle -/

/-- In a block that is not halted, on an existing index with capacities from 1 to 65535: with an empty slot CONSTRUCT
completes with the slot holding a driver with two empty rings of those capacities, all slots without a value, pointers
and counts 0, both flags false and no settings, with I = 1 whatever it was, the save stack unchanged, no control field
written and reply OK, and nothing else changed; with an occupied slot it answers E_DUPLICATE and nothing else changes.
(43_lifecycle.md R118, R119, 10_state.md R43) -/
def Obligations.ConstructRegistersDriver : Prop :=
  ∀ (s : State) (i : Idx) (nRx nTx : Nat), s.fault = none → s.present i → 1 ≤ nRx → nRx ≤ 65535 →
    1 ≤ nTx → nTx ≤ 65535 →
    ((s.port i).reg = none →
      exec (.construct i nRx nTx) s = .next
        ((({ s with I := true } : State).setPort i { s.port i with
          reg := some { rx := { N := nRx, store := [], head := 0, tail := 0, count := 0 },
                        tx := { N := nTx, store := [], head := 0, tail := 0, count := 0 },
                        overwritten := false, bad := false, settings := none } }).answer ⟨.ok, .empty⟩)) ∧
    ((s.port i).reg ≠ none → exec (.construct i nRx nTx) s = .next (s.answer ⟨.eDuplicate, .empty⟩))

/-- With a driver, DESTRUCT completes: RXCIE, TXCIE, UDRIE, RXEN and TXEN of the index are 0 and its slot is empty; WS2,
DIV, U2X, image C, the receive and transmit registers and the line of the index keep their values; I, the save stack
and everything of other indices are unchanged; the reply is OK. In the state after it neither event of the index is
delivered: both leave the state as it is. (That an event record whose condition fails passes without effect is the
model's choice, log 2.) (43_lifecycle.md R120, R122) -/
def Obligations.DestructClearsEnablesAndSlot : Prop :=
  ∀ (s : State) (i : Idx) (d : Driver), s.Ready i d →
    ∃ t : State, exec (.destruct i) s = .next t ∧
      t = (s.setPort i { s.port i with
        reg := none,
        ctrlB := { rxcie := false, txcie := false, udrie := false, rxen := false, txen := false,
                   ws2 := (s.port i).ctrlB.ws2 } }).answer ⟨.ok, .empty⟩ ∧
      exec (.evRxc i) t = .next t ∧ exec (.evUdre i) t = .next t

/-! ### Driver commands -/

/-- With a driver, a rate below 2^32 that the LUT has, and either policy Proceed or an empty tx ring, CONFIGURE completes:
DIV is exactly the entry's divisor and U2X its dbl; image C has MODE 00, PM 00, 10 or 11 for no, even or odd parity,
SB 0 or 1 for one or two stop bits, WS10 11 and CPOL 0; image B has RXCIE, RXEN and TXEN 1, TXCIE and WS2 0 and UDRIE
1 iff the tx ring holds bytes; the driver's settings are the new ones. The rings, the flags, I, the external
registers, the line, other indices and all else are unchanged, and the reply is OK. (44_driver_ops.md R129, R130,
R132, 10_state.md R46, 42_baud.md R113) -/
def Obligations.ConfigureLoadsSettings : Prop :=
  ∀ (s : State) (i : Idx) (d : Driver) (par : Parity) (stb : StopBits) (baud div : Nat) (dbl : Bool),
    s.Ready i d → baud < 2 ^ 32 → select s.cfg.baudLut baud = some (div, dbl) →
    (s.cfg.policy = .proceed ∨ d.tx.count = 0) →
    ∃ v : BitVec 12, v.toNat = div ∧
      exec (.configure i par stb baud) s = .next ((s.setPort i { s.port i with
        div := v, u2x := dbl,
        ctrlC := { mode := 0b00, pm := (match par with | .none => 0b00 | .even => 0b10 | .odd => 0b11),
                   sb := (match stb with | .one => false | .two => true), ws10 := 0b11, cpol := false },
        ctrlB := { rxcie := true, txcie := false, udrie := decide (0 < d.tx.count), rxen := true, txen := true,
                   ws2 := false },
        reg := some { d with settings := some { baud := baud, stop := stb, parity := par } } }).answer ⟨.ok, .empty⟩)

/-- With a driver and a rate below 2^32: if the LUT has no entry for the rate, CONFIGURE answers E_BAUD_UNSUPPORTED; if it
has one, the policy is Reject and the tx ring holds bytes, it answers E_TX_BUSY. In both cases the reply is the only
change, so DIV, U2X and both images hold. (44_driver_ops.md R129, R132, 42_baud.md R113) -/
def Obligations.ConfigureErrorsWriteNothing : Prop :=
  ∀ (s : State) (i : Idx) (d : Driver) (par : Parity) (stb : StopBits) (baud : Nat),
    s.Ready i d → baud < 2 ^ 32 →
    (select s.cfg.baudLut baud = none →
      exec (.configure i par stb baud) s = .next (s.answer ⟨.eBaudUnsupported, .empty⟩)) ∧
    (select s.cfg.baudLut baud ≠ none → s.cfg.policy = .reject → 0 < d.tx.count →
      exec (.configure i par stb baud) s = .next (s.answer ⟨.eTxBusy, .empty⟩))

/-- With a driver whose tx ring is sound and at most 65535 bytes, the first phase W1 of WRITE completes: with k the
smaller of L and the free slots, the tx ring holds its bytes followed by the first k given, in order, the second phase
is pending with the count k, no reply is given yet, and nothing else of the state changes. Of the memory only the k
slots from the old tail on, modulo N, of the tx ring are written: slot (tail + m) mod N holds byte m.
(44_driver_ops.md R133 (W1)) -/
def Obligations.WriteEnqueuesWhatFits : Prop :=
  ∀ (s : State) (i : Idx) (bytes : List Byte) (d : Driver),
    s.Ready i d → d.tx.Ok → bytes.length ≤ 65535 →
    ∃ (tx : Ring) (t : State), exec (.write i bytes) s = .next t ∧
      t = (s.setReg i (some { d with tx := tx })).setPending
        (some { idx := i, written := min bytes.length (d.tx.N - d.tx.count) }) ∧
      tx.Ok ∧ tx.N = d.tx.N ∧ tx.head = d.tx.head ∧
      tx.count = d.tx.count + min bytes.length (d.tx.N - d.tx.count) ∧
      tx.contents = d.tx.contents ++ bytes.take (d.tx.N - d.tx.count) ∧
      (∀ m < min bytes.length (d.tx.N - d.tx.count),
        t.slot i .tx ((d.tx.tail + m) % d.tx.N) = bytes[m]?) ∧
      (∀ (j : Idx) (sel : RingSel) (k : Nat),
        (j ≠ i ∨ sel ≠ .tx ∨
          ∀ m < min bytes.length (d.tx.N - d.tx.count), k ≠ (d.tx.tail + m) % d.tx.N) →
        t.slot j sel k = s.slot j sel k)

/-- When a WRITE is between its phases with a driver whose tx ring is sound, the foreground's next step is W2: on an empty
tx ring UDRIE becomes 0 and the transmitter is not written; on one that holds bytes the oldest is popped, UDRIE
becomes 1 and TxdWrite takes that byte; either way the reply is OK with the count W1 enqueued, no second phase is
pending any more, and nothing else changes. (44_driver_ops.md R133 (W2), R134, R136) -/
def Obligations.WriteSecondPhaseFlushes : Prop :=
  ∀ (s : State) (p : PendingWrite) (d : Driver) (turns : List Turn),
    s.fault = none → s.pending = some p → s.sched = .foreground :: turns →
    (s.port p.idx).reg = some d → d.tx.Ok →
    (d.tx.count = 0 →
      step s = .next ((((s.setSched turns).setPending none).setPort p.idx { s.port p.idx with
        ctrlB := { (s.port p.idx).ctrlB with udrie := false } }).answer ⟨.ok, .written p.written⟩)) ∧
    (0 < d.tx.count → ∃ (b : Byte) (tx : Ring), ringPop d.tx = .ok (b, tx) ∧
      d.tx.contents = b :: tx.contents ∧
      step s = .next ((txdWrite p.idx b (((s.setSched turns).setPending none).setPort p.idx { s.port p.idx with
        reg := some { d with tx := tx },
        ctrlB := { (s.port p.idx).ctrlB with udrie := true } })).answer ⟨.ok, .written p.written⟩))

/-- With a driver whose tx ring is sound: on an empty ring FLUSH completes with UDRIE 0 and no transmitter write; on one
that holds bytes it completes with the oldest byte popped, UDRIE 1 and TxdWrite of that byte, whether or not the
transmitter can take it; where it can, the transmit register holds the byte and is not empty. The reply is OK and
nothing else changes. (44_driver_ops.md R136, 90_conflicts.md C2) -/
def Obligations.FlushPrimesOrDisables : Prop :=
  ∀ (s : State) (i : Idx) (d : Driver), s.Ready i d → d.tx.Ok →
    (d.tx.count = 0 →
      exec (.flush i) s = .next ((s.setPort i { s.port i with
        ctrlB := { (s.port i).ctrlB with udrie := false } }).answer ⟨.ok, .empty⟩)) ∧
    (0 < d.tx.count → ∃ (b : Byte) (tx : Ring), ringPop d.tx = .ok (b, tx) ∧
      d.tx.contents = b :: tx.contents ∧
      exec (.flush i) s = .next ((txdWrite i b (s.setPort i { s.port i with
        reg := some { d with tx := tx },
        ctrlB := { (s.port i).ctrlB with udrie := true } })).answer ⟨.ok, .empty⟩) ∧
      ((s.port i).txdEmpty = true →
        exec (.flush i) s = .next ((s.setPort i { s.port i with
          reg := some { d with tx := tx },
          ctrlB := { (s.port i).ctrlB with udrie := true },
          txdReg := b, txdEmpty := false }).answer ⟨.ok, .empty⟩)))

/-- With a driver whose rx ring is sound and L at most 65535, READ completes with k the smaller of L and the count: it
answers the k oldest bytes in order, k, the count left and the capacity; the rx ring holds the rest; overwritten and
everything else of the state are unchanged, and every slot of memory reads as before. (44_driver_ops.md R135,
10_state.md R27) -/
def Obligations.ReadDequeuesOldestBytes : Prop :=
  ∀ (s : State) (i : Idx) (len : Nat) (d : Driver), s.Ready i d → d.rx.Ok → len ≤ 65535 →
    ∃ (rx : Ring) (t : State), exec (.read i len) s = .next t ∧
      t = (s.setReg i (some { d with rx := rx })).answer
        ⟨.ok, .read (d.rx.contents.take len) (min len d.rx.count) (d.rx.count - min len d.rx.count) d.rx.N⟩ ∧
      rx.Ok ∧ rx.contents = d.rx.contents.drop len ∧ rx.count = d.rx.count - min len d.rx.count ∧
      rx.N = d.rx.N ∧ rx.tail = d.rx.tail ∧ rx.store = d.rx.store ∧
      (∀ (j : Idx) (sel : RingSel) (k : Nat), t.slot j sel k = s.slot j sel k)

/-- With a driver: OVF_READ answers overwritten and BAD_READ answers bad, the reply being the only change; OVF_CLEAR
replies OK and sets overwritten to false, nothing else changing. (44_driver_ops.md R137, R138, R139) -/
def Obligations.FlagCommandsAnswer : Prop :=
  ∀ (s : State) (i : Idx) (d : Driver), s.Ready i d →
    exec (.ovfRead i) s = .next (s.answer ⟨.ok, .flag d.overwritten⟩) ∧
    exec (.badRead i) s = .next (s.answer ⟨.ok, .flag d.bad⟩) ∧
    exec (.ovfClear i) s = .next ((s.setPort i { s.port i with
      reg := some { d with overwritten := false } }).answer ⟨.ok, .empty⟩)

/-! ### Handlers -/

/-- When the RXC event of an index is deliverable with held byte b, EV_RXC completes. With a driver whose rx ring is
sound: the receive register is empty, the rx ring is what ring_push_overwrite answers, it holds its bytes without the
oldest if it was full, then b, and overwritten is set if it was full and else as before. With no driver the byte is
discarded. I is 1 as before, nothing else changes, and of the memory only the slot at the tail of the rx ring is
written. (45_handlers.md R150, R152, R153) -/
def Obligations.RxcHandlerStoresByte : Prop :=
  ∀ (s : State) (i : Idx) (b : Byte), s.RxcReady i b →
    ((s.port i).reg = none →
      exec (.evRxc i) s = .next (s.setPort i { s.port i with rxHold := none })) ∧
    (∀ d : Driver, (s.port i).reg = some d → d.rx.Ok →
      ∃ (rx : Ring) (t : State), ringPushOverwrite d.rx b = .ok (decide (d.rx.count = d.rx.N), rx) ∧
        exec (.evRxc i) s = .next t ∧
        t = s.setPort i { s.port i with
          rxHold := none,
          reg := some { d with rx := rx, overwritten := d.overwritten || decide (d.rx.count = d.rx.N) } } ∧
        rx.contents = (if d.rx.count = d.rx.N then d.rx.contents.tail else d.rx.contents) ++ [b] ∧
        t.slot i .rx d.rx.tail = some b ∧
        (∀ (j : Idx) (sel : RingSel) (k : Nat), (j ≠ i ∨ sel ≠ .rx ∨ k ≠ d.rx.tail) →
          t.slot j sel k = s.slot j sel k))

/-- When the UDRE event of an index is deliverable, EV_UDRE completes. With a driver whose tx ring is sound and holds
bytes: the oldest is popped, the transmit register holds it and is not empty, UDRIE stays 1. With a driver whose tx
ring is empty, or no driver: UDRIE becomes 0 and the transmitter is not written. I is 1 as before, nothing else
changes, and no slot of memory is written. (45_handlers.md R151, R152, R154, R155) -/
def Obligations.UdreHandlerFeedsOrDisables : Prop :=
  ∀ (s : State) (i : Idx), s.UdreReady i →
    (((s.port i).reg = none ∨ ∃ d, (s.port i).reg = some d ∧ d.tx.count = 0) →
      exec (.evUdre i) s = .next (s.setPort i { s.port i with
        ctrlB := { (s.port i).ctrlB with udrie := false } })) ∧
    (∀ d : Driver, (s.port i).reg = some d → d.tx.Ok → 0 < d.tx.count →
      ∃ (b : Byte) (tx : Ring) (t : State), ringPop d.tx = .ok (b, tx) ∧ d.tx.contents = b :: tx.contents ∧
        exec (.evUdre i) s = .next t ∧
        t = s.setPort i { s.port i with reg := some { d with tx := tx }, txdReg := b, txdEmpty := false } ∧
        (∀ (j : Idx) (sel : RingSel) (k : Nat), t.slot j sel k = s.slot j sel k))

/-- In a block that is not halted, EV_RXC changes the state only if the index exists, I = 1, RXCIE = 1 and the receive
register holds a byte; EV_UDRE only if the index exists, I = 1, UDRIE = 1 and the transmit register is empty. (That an
event record whose condition fails passes without effect is the model's choice, log 2.) (45_handlers.md R150, R151,
70_reset_and_hazards.md R197) -/
def Obligations.EventsNeedTheirConditions : Prop :=
  ∀ (s : State) (i : Idx), s.fault = none →
    ((∀ b, ¬ s.RxcReady i b) → exec (.evRxc i) s = .next s) ∧
    (¬ s.UdreReady i → exec (.evUdre i) s = .next s)

/-- In every state that meets the machine's invariant and is not halted, neither event of an index whose slot is empty is
delivered: both leave the state as it is. So the handlers' cases with no driver are unreachable. (That an event record
whose condition fails passes without effect is the model's choice, log 2.) (43_lifecycle.md R122, 45_handlers.md R155,
70_reset_and_hazards.md R188) -/
def Obligations.EmptySlotDeliversNoEvent : Prop :=
  ∀ (s : State) (i : Idx), s.Inv → s.fault = none → (s.port i).reg = none →
    exec (.evRxc i) s = .next s ∧ exec (.evUdre i) s = .next s

/-- If an event handler answers a next state, then for every index U2X, DIV, image C and every field of image B but UDRIE
are unchanged, UDRIE is unchanged or 0, and the save stack is unchanged. (10_state.md R36, 41_critical_section.md
R105) -/
def Obligations.HandlersWriteNoControlFieldButUdrie : Prop :=
  ∀ (ins : Instr) (s t : State), ins.isEvent = true → exec ins s = .next t →
    t.csStack = s.csStack ∧ ∀ j : Idx, (t.port j).u2x = (s.port j).u2x ∧ (t.port j).div = (s.port j).div ∧
      (t.port j).ctrlC = (s.port j).ctrlC ∧
      ((t.port j).ctrlB = (s.port j).ctrlB ∨ (t.port j).ctrlB = { (s.port j).ctrlB with udrie := false })

/-- From a state that is not halted with I = 1 and an index that is Draining with TXEN = 1, a sound tx ring of n bytes and
an empty transmit register, the schedule of n rounds of (UDRE event, drain) and one more UDRE event, 2n + 1 steps,
answers a state in which the line has gained the n bytes in order, the tx ring is empty with its storage, capacity and
tail unchanged and its head advanced by n modulo the capacity, UDRIE is 0 and the transmit register is empty; every
other field of the state is as before but the transmit register's byte and the schedule. (The schedule as a list of
turns is the model's, log 2.) And along every run without an end in which the foreground issues no command and no
reset falls, from a state with I = 1, no WRITE between its phases and the index Draining with TXEN = 1 and a sound tx
ring of n bytes: if the run is weakly fair to the UDRE event and to the drain of the index (runs as the model reads
them, log 17), whatever else happens on the way, a point is reached where the path is Idle with tx empty, n + 1 UDRE
events have been taken, the transmit register is empty and the line has gained the byte the register held, if any,
then the n bytes in order. (45_handlers.md R157, 60_exceptions.md R166) -/
def Obligations.DrainProgress : Prop :=
  (∀ (s : State) (i : Idx) (d : Driver), s.UdreReady i → (s.port i).reg = some d → d.tx.Ok →
    (s.port i).ctrlB.txen = true → s.sched = drainSchedule i d.tx.count →
    ∃ (tx : Ring) (v : Byte), tx.count = 0 ∧ tx.store = d.tx.store ∧ tx.N = d.tx.N ∧ tx.tail = d.tx.tail ∧
      tx.head = (d.tx.head + d.tx.count) % d.tx.N ∧
      Host.Core.run Sys2Proof.core (2 * d.tx.count + 1) s = .next ((s.setSched []).setPort i { s.port i with
        reg := some { d with tx := tx },
        ctrlB := { (s.port i).ctrlB with udrie := false },
        txdReg := v,
        lineOut := (s.port i).lineOut ++ d.tx.contents })) ∧
  (∀ (turn : Nat → Turn) (offer : Nat → Option Command) (state : Nat → State) (i : Idx) (d : Driver),
    IsRun turn offer state → (∀ n, offer n = none ∧ turn n ≠ .reset) →
    FairFor turn state (.dispatch (encodeWord (.evUdre i))) → FairFor turn state (.txDrain i) →
    (state 0).pending = none → (state 0).I = true → (state 0).present i →
    ((state 0).port i).reg = some d → d.tx.Ok → ((state 0).port i).txPath = .draining →
    ((state 0).port i).ctrlB.txen = true →
    ∃ (n : Nat) (d' : Driver), ((state n).port i).reg = some d' ∧ d'.tx.count = 0 ∧
      ((state n).port i).txPath = .idle ∧
      timesTaken turn state (.dispatch (encodeWord (.evUdre i))) n = d.tx.count + 1 ∧
      ((state n).port i).txdEmpty = true ∧
      ((state n).port i).lineOut = ((state 0).port i).lineOut ++
        (if ((state 0).port i).txdEmpty then [] else [((state 0).port i).txdReg]) ++ d.tx.contents)

/-! ### The external core -/

/-- In a block that is not halted, RX_ARRIVE(i, b) of an existing index with RXEN = 1: with an empty receive register the
register holds b; with one that holds a byte it holds that byte or b, a free choice, which is the only change. With
RXEN = 0 the arrival is not taken and its turn changes nothing. RxdRead(i) with held byte b returns b and leaves the
register empty, nothing else changed. (That a turn whose step is not enabled passes without effect is the model's
choice, log 2.) (60_exceptions.md R172, 60_exceptions.md R166) -/
def Obligations.ReceiveArrivalAndRead : Prop :=
  (∀ (s : State) (i : Idx) (b : Byte) (turns : List Turn), s.fault = none → s.sched = .rxArrive i b :: turns →
    s.present i → (s.port i).ctrlB.rxen = true →
    ((s.port i).rxHold = none →
      step s = .next ((s.setSched turns).setPort i { s.port i with rxHold := some b })) ∧
    (∀ c : Byte, (s.port i).rxHold = some c → ∃ v : Byte, (v = b ∨ v = c) ∧
      step s = .next (((s.setSched turns).setPort i { s.port i with rxHold := some v }).draw))) ∧
  (∀ (s : State) (i : Idx) (b : Byte) (turns : List Turn), s.fault = none → s.sched = .rxArrive i b :: turns →
    (s.port i).ctrlB.rxen = false → step s = .next (s.setSched turns)) ∧
  (∀ (s : State) (i : Idx) (b : Byte), (s.port i).rxHold = some b →
    rxdRead i s = some (b, s.setPort i { s.port i with rxHold := none }))

/-- TxdWrite(i, b) with an empty transmit register makes the register hold b and not empty; with one that holds a byte the
byte is dropped or replaces the held one, a free choice, and the register stays not empty. Nothing else changes.
(R173) -/
def Obligations.TransmitWriteOrBusyChoice : Prop :=
  ∀ (s : State) (i : Idx) (b : Byte),
    ((s.port i).txdEmpty = true →
      txdWrite i b s = s.setPort i { s.port i with txdReg := b, txdEmpty := false }) ∧
    ((s.port i).txdEmpty = false → ∃ v : Byte, (v = b ∨ v = (s.port i).txdReg) ∧
      txdWrite i b s = (s.setPort i { s.port i with txdReg := v, txdEmpty := false }).draw)

/-- In a block that is not halted, TX_DRAIN(i) of an existing index whose transmit register is not empty: with TXEN = 1
the line gains the byte; with TXEN = 0 it gains the byte or nothing, a free choice; in both cases the register is
empty, and nothing else changes. With an empty transmit register the drain is not taken and its turn changes nothing.
(That a turn whose step is not enabled passes without effect is the model's choice, log 2.) (60_exceptions.md R174,
60_exceptions.md R166) -/
def Obligations.TransmitDrainAppendsToLine : Prop :=
  ∀ (s : State) (i : Idx) (turns : List Turn), s.fault = none → s.sched = .txDrain i :: turns →
    ((s.port i).txdEmpty = true → step s = .next (s.setSched turns)) ∧
    (s.present i → (s.port i).txdEmpty = false → (s.port i).ctrlB.txen = true →
      step s = .next ((s.setSched turns).setPort i { s.port i with
        lineOut := (s.port i).lineOut ++ [(s.port i).txdReg], txdEmpty := true })) ∧
    (s.present i → (s.port i).txdEmpty = false → (s.port i).ctrlB.txen = false → ∃ l : List Byte,
      (l = (s.port i).lineOut ++ [(s.port i).txdReg] ∨ l = (s.port i).lineOut) ∧
      step s = .next (((s.setSched turns).setPort i { s.port i with lineOut := l, txdEmpty := true }).draw))

/-- In a block that is not halted, HW_FAULT(i) of an existing index with a driver: with BAD_SOURCE = true the driver's bad
flag is true and nothing else changes; with BAD_SOURCE = false, or with no driver, the step is not taken and its turn
changes nothing. Of the whole machine, for a driver that is there before and after a step: if bad goes from false to
true, the step was HW_FAULT of that index with BAD_SOURCE = true; once bad is true it stays true. A new driver has it
false. (That a turn whose step is not enabled passes without effect is the model's choice, log 2.) (10_state.md R28,
R43, 60_exceptions.md R166, R178) -/
def Obligations.HardwareFaultSetsBad : Prop :=
  (∀ (s : State) (i : Idx) (turns : List Turn), s.fault = none → s.sched = .hwFault i :: turns →
    (∀ d : Driver, s.cfg.badSource = true → s.present i → (s.port i).reg = some d →
      step s = .next ((s.setSched turns).setPort i { s.port i with reg := some { d with bad := true } })) ∧
    (s.cfg.badSource = false → step s = .next (s.setSched turns)) ∧
    ((s.port i).reg = none → step s = .next (s.setSched turns))) ∧
  (∀ (s t : State) (i : Idx) (d d' : Driver), step s = .next t → (s.port i).reg = some d →
    (t.port i).reg = some d' →
    (d.bad = false → d'.bad = true → s.sched.head? = some (.hwFault i) ∧ s.cfg.badSource = true) ∧
    (d.bad = true → d'.bad = true)) ∧
  (∀ (s t : State) (i : Idx) (d' : Driver), step s = .next t → (s.port i).reg = none →
    (t.port i).reg = some d' → d'.bad = false)

/-- Every step that answers a next state and is not a reset leaves the line of each index, or is the drain of that index
and appends the byte of its transmit register. A reset makes every line empty. (R40) -/
def Obligations.LineGrowsOnlyByDrain : Prop :=
  (∀ (s t : State) (i : Idx), step s = .next t → ¬ s.resets →
    (t.port i).lineOut = (s.port i).lineOut ∨
    (s.sched.head? = some (.txDrain i) ∧ (t.port i).lineOut = (s.port i).lineOut ++ [(s.port i).txdReg])) ∧
  (∀ (s t : State) (i : Idx), step s = .next t → s.resets → (t.port i).lineOut = []) ∧
  (∀ i : Idx, (State.reset.port i).lineOut = [])

/-! ### Reset and invariants -/

/-- From any state, halted or not, a reset turn answers a state with I = 0, no open critical section, no fault, and for
every index an empty slot, U2X 0, every field of image B 0, MODE 00, PM 00, SB 0, WS10 11, CPOL 0, DIV 0, an empty
receive register, an empty transmit register and an empty line; drivers and their rings are gone. The machine's reset
state has the same values. (What a reset keeps of the parameters and inputs is the model's choice, log 9.) (R185) -/
def Obligations.ResetSetsEveryElement : Prop :=
  ∀ s : State, s.resets → ∃ t : State, step s = .next t ∧
    ∀ u : State, (u = t ∨ u = State.reset) →
      u.I = false ∧ u.csStack = [] ∧ u.fault = none ∧
      ∀ i : Idx, (u.port i).reg = none ∧ (u.port i).u2x = false ∧
        (u.port i).ctrlB = { rxcie := false, txcie := false, udrie := false, rxen := false, txen := false,
                             ws2 := false } ∧
        (u.port i).ctrlC = { mode := 0b00, pm := 0b00, sb := false, ws10 := 0b11, cpol := false } ∧
        (u.port i).div = 0 ∧ (u.port i).rxHold = none ∧ (u.port i).txdEmpty = true ∧ (u.port i).lineOut = []

/-- For every built instance, the state with the reset values of R42 meets the machine's invariant; so does the machine's
reset state. (10_state.md R26, R42) -/
def Obligations.ResetMeetsInvariant : Prop :=
  (∀ c : Config, (State.resetWith c).Inv) ∧ State.reset.Inv

/-- From every state that meets the invariant, any step of any agent that answers a next state gives one that meets it.
The invariant: every ring of every driver is sound (capacity 1 to 65535, R26 (a) to (d), storage in canonical form
within the capacity); bad stays false without BAD_SOURCE; TXCIE, WS2, MODE and CPOL stay 0, WS10 stays 11 and PM is
never 01; an index with no configured driver has RXCIE, RXEN and TXEN 0, and with no driver UDRIE 0; an index with a
configured driver has them 1, image C that of its settings and DIV and U2X the LUT's for its rate; an index that does
not exist stays as at reset; a WRITE between its phases has its driver. (The model's choice in it: the canonical
storage, log 6, and that an index that does not exist has a place and it stays as at reset, log 10.) (10_state.md R26,
R31, R32, 40_ring_buffer.md R95, 43_lifecycle.md R121, R122, 44_driver_ops.md R130, R134) -/
def Obligations.StepKeepsInvariant : Prop :=
  ∀ s t : State, s.Inv → step s = .next t → t.Inv

/-! ### Frames of the whole machine -/

/-- If an instruction answers a next state, every index other than the one its idx field names has the same slot, rings,
control state, external registers and line as before; CS_ENTER, CS_EXIT and BAUD_SELECT leave every index.
(30_encoding.md R66, 20_memory.md R50) -/
def Obligations.CommandsTouchOnlyTheirIndex : Prop :=
  ∀ (ins : Instr) (s t : State) (j : Idx), exec ins s = .next t → ins.idx? ≠ some j → t.port j = s.port j

/-- If an instruction other than RB_PUSH, WRITE, EV_RXC, CONSTRUCT and DESTRUCT answers a next state, every slot of every
ring reads as before. CONSTRUCT and DESTRUCT leave every slot of other indices. (20_memory.md R50, R51,
40_ring_buffer.md R86, 44_driver_ops.md R129, R135, R136) -/
def Obligations.FormsThatStoreNothing : Prop :=
  ∀ (ins : Instr) (s t : State) (j : Idx) (sel : RingSel) (k : Nat), exec ins s = .next t →
    (match ins with
      | .rbPush _ _ _ => False
      | .write _ _ => False
      | .evRxc _ => False
      | .construct i _ _ => j ≠ i
      | .destruct i => j ≠ i
      | _ => True) →
    t.slot j sel k = s.slot j sel k

/-- For a driver that is there before and after a step: if overwritten goes from false to true, the step was the
dispatcher's EV_RXC of that index on a full rx ring; if it goes from true to false, the foreground issued OVF_CLEAR of
that index. A new driver has it false. READ does not clear it; OVF_READ answers it. (R27) -/
def Obligations.OverwrittenSetByEvictionClearedByCommand : Prop :=
  (∀ (s t : State) (i : Idx) (d d' : Driver), step s = .next t → (s.port i).reg = some d →
    (t.port i).reg = some d' →
    (d.overwritten = false → d'.overwritten = true →
      ∃ w turns, s.sched = .dispatch w :: turns ∧ decode w .zero = .ok (.evRxc i) ∧ d.rx.count = d.rx.N) ∧
    (d.overwritten = true → d'.overwritten = false →
      ∃ w o rest turns, s.Issues w o rest turns ∧ decode w o = .ok (.ovfClear i))) ∧
  (∀ (s t : State) (i : Idx) (d' : Driver), step s = .next t → (s.port i).reg = none →
    (t.port i).reg = some d' → d'.overwritten = false) ∧
  (∀ (s : State) (i : Idx) (d : Driver), s.Ready i d →
    exec (.ovfRead i) s = .next (s.answer ⟨.ok, .flag d.overwritten⟩))

/-- If a step that is not a reset answers a next state in which DIV or U2X of an index differs, then the foreground issued
a CONFIGURE of that index, and the new DIV and U2X are the divisor and dbl that select answers for its rate.
(10_state.md R34, R35, 42_baud.md R113) -/
def Obligations.DivisorWrittenOnlyByConfigure : Prop :=
  ∀ (s t : State) (i : Idx), step s = .next t → ¬ s.resets →
    ((t.port i).div ≠ (s.port i).div ∨ (t.port i).u2x ≠ (s.port i).u2x) →
    ∃ w o rest turns par stb baud, s.Issues w o rest turns ∧ decode w o = .ok (.configure i par stb baud) ∧
      select s.cfg.baudLut baud = some ((t.port i).div.toNat, (t.port i).u2x)

/-- If a step that is not a reset takes the tx path of an index from Idle to Draining, it is a FLUSH of it or the second
phase of a WRITE to it with a non-empty tx ring, or a CONFIGURE of it that proceeds with a non-empty tx ring (R130).
If it takes it from Draining to Idle, it is a FLUSH, a second phase, a UDRE event or a CONFIGURE of it with an empty
tx ring, or a DESTRUCT of it, or a UDRE event with no driver. (That the view gives an empty slot a state, Idle when
UDRIE is 0, is the model's choice, log 16.) (45_handlers.md R156, 44_driver_ops.md R130, 10_state.md R45) -/
def Obligations.TxPathTransitions : Prop :=
  ∀ (s t : State) (i : Idx), step s = .next t → ¬ s.resets →
    ((s.port i).txPath = .idle → (t.port i).txPath = .draining →
      ∃ d, (s.port i).reg = some d ∧ 0 < d.tx.count ∧
        ((∃ w o rest turns, s.Issues w o rest turns ∧ decode w o = .ok (.flush i)) ∨
         (∃ p, s.pending = some p ∧ p.idx = i ∧ s.sched.head? = some .foreground) ∨
         (∃ w o rest turns par stb baud, s.Issues w o rest turns ∧ decode w o = .ok (.configure i par stb baud) ∧
           s.cfg.policy = .proceed))) ∧
    ((s.port i).txPath = .draining → (t.port i).txPath = .idle →
      (∃ w o rest turns, s.Issues w o rest turns ∧ decode w o = .ok (.destruct i)) ∨
      ((∀ d, (s.port i).reg = some d → d.tx.count = 0) ∧
        ((∃ w o rest turns, s.Issues w o rest turns ∧ decode w o = .ok (.flush i)) ∨
         (∃ p, s.pending = some p ∧ p.idx = i ∧ s.sched.head? = some .foreground) ∨
         (∃ w turns, s.sched = .dispatch w :: turns ∧ decode w .zero = .ok (.evUdre i)) ∨
         (∃ w o rest turns par stb baud, s.Issues w o rest turns ∧
           decode w o = .ok (.configure i par stb baud)))))

/-- In the default layout every bit of the images A, B and C is the field the table of R33 names there, the bits outside
the block written 0; the two registers of a divisor hold DIV[11:8] below bit 4 and DIV[7:0]. (The layout is the spec's
default, presumed from the family, log 14.) (10_state.md R33, 20_memory.md R53) -/
def Obligations.ImagePackingAndDivisorSplit : Prop :=
  ∀ p : Port,
    (∀ n < 8, (p.byteA .default).getLsbD n = (n == 1 && p.u2x)) ∧
    (let b := p.byteB .default
     b.getLsbD 7 = p.ctrlB.rxcie ∧ b.getLsbD 6 = p.ctrlB.txcie ∧ b.getLsbD 5 = p.ctrlB.udrie ∧
     b.getLsbD 4 = p.ctrlB.rxen ∧ b.getLsbD 3 = p.ctrlB.txen ∧ b.getLsbD 2 = p.ctrlB.ws2 ∧
     b.getLsbD 1 = false ∧ b.getLsbD 0 = false) ∧
    (let c := p.byteC .default
     c.getLsbD 7 = p.ctrlC.mode.getLsbD 1 ∧ c.getLsbD 6 = p.ctrlC.mode.getLsbD 0 ∧
     c.getLsbD 5 = p.ctrlC.pm.getLsbD 1 ∧ c.getLsbD 4 = p.ctrlC.pm.getLsbD 0 ∧ c.getLsbD 3 = p.ctrlC.sb ∧
     c.getLsbD 2 = p.ctrlC.ws10.getLsbD 1 ∧ c.getLsbD 1 = p.ctrlC.ws10.getLsbD 0 ∧ c.getLsbD 0 = p.ctrlC.cpol) ∧
    p.divHigh.toNat * 256 + p.divLow.toNat = p.div.toNat ∧ p.divHigh.toNat < 16

/-! ### No reachable slot fault -/

/-- From every state that meets the machine's invariant and is not halted, each step of any agent answers a next state; it
never records F_UNWRITTEN_SLOT; and if it records a fault, then the foreground issued a command, so no handler, no
second phase of a WRITE, no environment step and no reset records one. So the model's stops for a slot of index N or
more (log 7) and for a second phase without its driver (log 13) are not reached. (10_state.md R44, 20_memory.md R51,
60_exceptions.md R164, R170, 44_driver_ops.md R134) -/
def Obligations.SoundStateStepsWithoutSlotFault : Prop :=
  ∀ s : State, s.Inv → s.fault = none →
    ∃ t : State, step s = .next t ∧
      (∀ (i : Idx) (sel : RingSel) (k : Nat), t.fault ≠ some (.unwrittenSlot i sel k)) ∧
      (t.fault ≠ none → ∃ w o rest turns, s.Issues w o rest turns)
end

