-- ==== Sys2Proof/Laws/Decode.lean ====
section
/-! SUPPORT. The fields of a command word built from its fields (30_encoding.md R65): the lemmas a proof about decoding
cites instead of unfolding the field arithmetic. -/

namespace Sys2Proof

theorem Word.op_wordOf {op sub : Nat} (i : Idx) (ho : op < 16) (hs : sub < 256) : (wordOf op i sub).op = op := by
  have := i.isLt
  simp only [wordOf, Word.op, Word.field, BitVec.toNat_ofNat]; omega

theorem Word.idx_wordOf (op : Nat) {sub : Nat} (i : Idx) (hs : sub < 256) : (wordOf op i sub).idx = i := by
  have := i.isLt
  apply Fin.ext
  simp only [wordOf, Word.idx, Word.field, BitVec.toNat_ofNat, Fin.ofNat]; omega

theorem Word.field_wordOf {op sub hi lo : Nat} (i : Idx) (ho : op < 16) (hs : sub < 256) (hh : hi < 8) (hl : lo ≤ hi) :
    (wordOf op i sub).field hi lo = sub / 2 ^ lo % 2 ^ (hi + 1 - lo) := by
  have := i.isLt
  have e : (wordOf op i sub).toNat = op * 4096 + i.val * 256 + sub := by
    simp only [wordOf, BitVec.toNat_ofNat]; omega
  have e2 : op * 4096 + i.val * 256 + sub = sub + 2 ^ lo * (2 ^ (hi + 1 - lo) * (2 ^ (7 - hi) * (op * 16 + i.val))) := by
    have : 2 ^ lo * (2 ^ (hi + 1 - lo) * (2 ^ (7 - hi) * (op * 16 + i.val))) = 256 * (op * 16 + i.val) := by
      rw [← Nat.mul_assoc, ← Nat.mul_assoc, ← Nat.pow_add, ← Nat.pow_add]
      have : lo + (hi + 1 - lo) + (7 - hi) = 8 := by omega
      rw [this]
    omega
  rw [Word.field, e, e2, Nat.add_mul_div_left _ _ (Nat.two_pow_pos lo), Nat.add_mul_mod_self_left]

/-- A word is its `op`, its `idx` and its `sub`. -/
theorem Word.wordOf_fields (w : Word) : wordOf w.op w.idx w.sub = w := by
  have := w.isLt
  apply BitVec.eq_of_toNat_eq
  simp only [wordOf, Word.op, Word.idx, Word.sub, Word.field, BitVec.toNat_ofNat, Fin.ofNat]
  omega

/-- A plain decoding that answers has sub 0. -/
theorem decodePlain_ok {w : Word} {i j : Instr} (h : decodePlain w i = .ok j) : w.sub = 0 ∧ j = i := by
  unfold decodePlain at h
  split at h
  · exact ⟨‹_›, (Except.ok.inj h).symm⟩
  · cases h

/-- An event is decoded from one word only, its record (R75). -/
theorem eq_record_of_decode {w : Word} {o : Operands} {i : Instr} (h : decode w o = .ok i) (he : i.isEvent = true) :
    w = encodeWord i := by
  unfold decode at h
  split at h
  case h_12 ho =>
    obtain ⟨hs, rfl⟩ := decodePlain_ok h
    rw [encodeWord, ← ho, ← hs, w.wordOf_fields]
  case h_13 ho =>
    obtain ⟨hs, rfl⟩ := decodePlain_ok h
    rw [encodeWord, ← ho, ← hs, w.wordOf_fields]
  all_goals
    exfalso
    try simp only [decodePlain, decodeGlobal, decodeConfigure, decodeFlags, decodeRing] at h
    repeat' split at h
    all_goals cases h
    all_goals simp [Instr.isEvent] at he

end Sys2Proof
end

