-- ==== Sys2Proof/Laws/Memory.lean ====
section
/-! SUPPORT. Ring storage: read after write, and that every write keeps the canonical form. -/

namespace Sys2Proof.Machine

@[simp] theorem Memory.read_nil (k : Nat) : Memory.read [] k = none := rfl

/-- A write is read back. -/
@[simp] theorem Memory.read_write_same (m : Memory) (k : Nat) (b : Byte) : (m.write k b).read k = some b := by
  induction m with
  | nil => simp [Memory.write, Memory.read]
  | cons x m ih =>
    obtain ⟨a, c⟩ := x
    simp only [Memory.write]
    split
    · simp [Memory.read]
    · split
      · simp [Memory.read]
      · rename_i h1 h2
        have : a ≠ k := fun e => h2 e.symm
        simp [Memory.read, this, ih]

/-- A write leaves every other slot alone. -/
@[simp] theorem Memory.read_write_ne (m : Memory) {k j : Nat} (b : Byte) (h : j ≠ k) :
    (m.write k b).read j = m.read j := by
  have h' : k ≠ j := fun e => h e.symm
  induction m with
  | nil => simp [Memory.write, Memory.read, h']
  | cons x m ih =>
    obtain ⟨a, c⟩ := x
    simp only [Memory.write]
    split
    · simp [Memory.read, h']
    · split
      · subst_vars; simp [Memory.read, h']
      · simp [Memory.read, ih]

/-- The slots listed after a write: the written slot and those listed before. -/
theorem Memory.mem_write {m : Memory} {k : Nat} {b : Byte} {c : Host.Cell} (h : c ∈ m.write k b) :
    c = (k, b) ∨ c ∈ m := by
  induction m with
  | nil => simpa [Memory.write] using h
  | cons x m ih =>
    obtain ⟨a, d⟩ := x
    simp only [Memory.write] at h
    split at h
    · simpa using h
    · split at h
      · rcases List.mem_cons.1 h with h | h
        · exact .inl h
        · exact .inr (List.mem_cons_of_mem _ h)
      · simp only [List.mem_cons] at h ⊢
        rcases h with h | h
        · exact .inr (.inl h)
        · rcases ih h with h | h
          · exact .inl h
          · exact .inr (.inr h)

/-- A write keeps the canonical form. -/
theorem Memory.wf_write {m : Memory} (hm : m.wf) (k : Nat) (b : Byte) : (m.write k b).wf := by
  induction m with
  | nil => simp [Memory.write]
  | cons x m ih =>
    obtain ⟨a, c⟩ := x
    obtain ⟨hx, hr⟩ := List.pairwise_cons.1 hm
    simp only [Memory.write]
    split
    · rename_i h
      refine List.pairwise_cons.2 ⟨fun y hy => ?_, hm⟩
      rcases List.mem_cons.1 hy with rfl | hy
      · exact h
      · exact Nat.lt_trans h (hx y hy)
    · split
      · rename_i h1 h2
        subst h2
        exact List.pairwise_cons.2 ⟨hx, hr⟩
      · rename_i h1 h2
        refine List.pairwise_cons.2 ⟨fun y hy => ?_, ih hr⟩
        rcases Memory.mem_write hy with rfl | hy
        · simp only; omega
        · exact hx y hy

/-- A slot below every listed slot holds no value. -/
theorem Memory.read_none_of_lt {m : Memory} {k : Nat} (h : ∀ c ∈ m, k < c.1) : m.read k = none := by
  induction m with
  | nil => rfl
  | cons x m ih =>
    obtain ⟨a, c⟩ := x
    have ha : k < a := h (a, c) (by simp)
    have : a ≠ k := by omega
    simp only [Memory.read, this, if_false]
    exact ih (fun y hy => h y (by simp [hy]))

/-- Equal canonical memories are equal data: two canonical storages that read the same everywhere are the same list. -/
theorem Memory.ext {m n : Memory} (hm : m.wf) (hn : n.wf) (h : ∀ k, m.read k = n.read k) : m = n := by
  induction m generalizing n with
  | nil =>
    cases n with
    | nil => rfl
    | cons y n => simpa [Memory.read] using h y.1
  | cons x m ih =>
    obtain ⟨a, b⟩ := x
    obtain ⟨hx, hr⟩ := List.pairwise_cons.1 hm
    cases n with
    | nil => simpa [Memory.read] using h a
    | cons y n =>
      obtain ⟨c, d⟩ := y
      obtain ⟨hy, hs⟩ := List.pairwise_cons.1 hn
      have hac : a = c := by
        rcases Nat.lt_trichotomy a c with hlt | he | hlt
        · have h1 := h a
          rw [Memory.read_none_of_lt (m := (c, d) :: n) (k := a)] at h1
          · simp [Memory.read] at h1
          · intro z hz
            rcases List.mem_cons.1 hz with rfl | hz
            · exact hlt
            · exact Nat.lt_trans hlt (hy z hz)
        · exact he
        · have h1 := h c
          rw [Memory.read_none_of_lt (m := (a, b) :: m) (k := c)] at h1
          · simp [Memory.read] at h1
          · intro z hz
            rcases List.mem_cons.1 hz with rfl | hz
            · exact hlt
            · exact Nat.lt_trans hlt (hx z hz)
      subst hac
      have hbd : b = d := by simpa [Memory.read] using h a
      subst hbd
      have : m = n := by
        refine ih hr hs (fun k => ?_)
        by_cases hk : a = k
        · subst hk
          rw [Memory.read_none_of_lt (fun z hz => hx z hz), Memory.read_none_of_lt (fun z hz => hy z hz)]
        · simpa [Memory.read, hk] using h k
      rw [this]

end Sys2Proof.Machine
end

