-- ==== Sys2Proof/Laws/Ring.lean ====
section
/-! SUPPORT. The ring functions: what each answers, that it keeps the ring invariants (40_ring_buffer.md R95) and what it
does to the sequence of held bytes (R96). -/

namespace Sys2Proof.Machine

/-- The successor is addition modulo the capacity (R10). -/
theorem Ring.succ_eq_mod {r : Ring} {p : Nat} (h : p < r.N) : r.succ p = (p + 1) % r.N := by
  unfold Ring.succ
  split
  · rename_i he; rw [he, Nat.mod_self]
  · rw [Nat.mod_eq_of_lt]; omega

/-- What `ring_push` answers (R85): it needs only that the tail names a slot. -/
theorem ringPush_eq {r : Ring} (b : Byte) (h : r.tail < r.N) :
    ringPush r b = .ok { r with store := r.store.write r.tail b, tail := r.succ r.tail, count := r.count + 1 } := by
  simp [ringPush, Ring.memWrite, h]

/-- What `ring_pop` answers (R86): it needs that the head names a slot that has been written. -/
theorem ringPop_eq {r : Ring} {b : Byte} (h : r.head < r.N) (hb : r.store.read r.head = some b) :
    ringPop r = .ok (b, { r with head := r.succ r.head, count := r.count - 1 }) := by
  simp [ringPop, Ring.memRead, h, hb]

/-- A push that answers was made on a ring whose tail names a slot. -/
theorem ringPush_inv {r r' : Ring} {b : Byte} (h : ringPush r b = .ok r') :
    r.tail < r.N ∧
    r' = { r with store := r.store.write r.tail b, tail := r.succ r.tail, count := r.count + 1 } := by
  by_cases ht : r.tail < r.N
  · rw [ringPush_eq b ht] at h
    exact ⟨ht, (Except.ok.inj h).symm⟩
  · simp [ringPush, Ring.memWrite, ht] at h

/-- A pop that answers was made on a ring whose head names a written slot. -/
theorem ringPop_inv {r r' : Ring} {b : Byte} (h : ringPop r = .ok (b, r')) :
    r.head < r.N ∧ r.store.read r.head = some b ∧
    r' = { r with head := r.succ r.head, count := r.count - 1 } := by
  by_cases hh : r.head < r.N
  · cases hb : r.store.read r.head with
    | none => simp [ringPop, Ring.memRead, hh, hb] at h
    | some c =>
      rw [ringPop_eq hh hb] at h
      obtain ⟨rfl, rfl⟩ := Prod.mk.inj (Except.ok.inj h)
      exact ⟨hh, rfl, rfl⟩
  · simp [ringPop, Ring.memRead, hh] at h

/-- The remainder of a number below twice the capacity. -/
theorem mod_below_two {a n : Nat} (h : a < 2 * n) : a % n = if a < n then a else a - n := by
  split
  · rename_i h1; exact Nat.mod_eq_of_lt h1
  · rw [Nat.mod_eq_sub_mod (by omega), Nat.mod_eq_of_lt (by omega)]

/-- The slot of the `j`-th held byte is not the tail's while the ring is not full. -/
theorem Ring.slot_ne_tail {n head j count : Nat} (hh : head < n) (hj : j < count) (hc : count < n) :
    (head + j) % n ≠ (head + count) % n := by
  rw [mod_below_two (by omega), mod_below_two (by omega)]
  split <;> split <;> omega

/-- Two readings that agree on the listed positions give the same bytes. -/
theorem filterMap_agree {f g : Nat → Option Byte} {l : List Nat} (h : ∀ j ∈ l, f j = g j) :
    l.filterMap f = l.filterMap g := by
  induction l with
  | nil => rfl
  | cons x l ih =>
    rw [List.filterMap_cons, List.filterMap_cons, h x (by simp), ih (fun j hj => h j (by simp [hj]))]

/-- With every held slot written, the sequence of held bytes has the ring's count. -/
theorem Ring.length_contents {r : Ring} (h : r.Ok) : r.contents.length = r.count := by
  obtain ⟨-, -, -, -, hw, -, -⟩ := h
  have key : ∀ n, n ≤ r.count →
      ((List.range n).filterMap (fun j => r.store.read ((r.head + j) % r.N))).length = n := by
    intro n
    induction n with
    | zero => simp
    | succ n ih =>
      intro hn
      obtain ⟨b, hb⟩ := Option.isSome_iff_exists.1 (hw n (by omega))
      rw [List.range_succ, List.filterMap_append, List.length_append, ih (by omega)]
      simp [hb]
  exact key r.count (Nat.le_refl _)

/-- `ring_push` on a ring with room: it answers, keeps the invariants, appends the byte, writes one slot and keeps the
capacity and the head (R85, R95, R96). -/
theorem ringPush_ok {r : Ring} (h : r.Ok) (hc : r.count < r.N) (b : Byte) :
    ∃ r', ringPush r b = .ok r' ∧ r'.Ok ∧ r'.contents = r.contents ++ [b] ∧ r'.N = r.N ∧ r'.head = r.head ∧
      r'.tail = (r.tail + 1) % r.N ∧ r'.count = r.count + 1 ∧ r'.store = r.store.write r.tail b := by
  obtain ⟨hN, hle, ⟨hh, ht⟩, he, hw, hwf, hlt⟩ := h
  refine ⟨_, ringPush_eq b ht, ⟨hN, hc, ⟨hh, ?_⟩, ?_, ?_, Memory.wf_write hwf _ _, ?_⟩, ?_, rfl, rfl,
    Ring.succ_eq_mod ht, rfl, rfl⟩
  · change r.succ r.tail < r.N
    rw [Ring.succ_eq_mod ht]; exact Nat.mod_lt _ (by omega)
  · change r.succ r.tail = (r.head + (r.count + 1)) % r.N
    rw [Ring.succ_eq_mod ht, he, Nat.mod_add_mod, Nat.add_assoc]
  · intro j hj
    change ((r.store.write r.tail b).read ((r.head + j) % r.N)).isSome = true
    by_cases hjc : j = r.count
    · subst hjc; rw [← he]; simp
    · have hne := Ring.slot_ne_tail (j := j) hh (show j < r.count by change j < r.count + 1 at hj; omega) hc
      rw [Memory.read_write_ne _ _ (by rw [he]; exact hne)]
      exact hw j (by change j < r.count + 1 at hj; omega)
  · intro c hcm
    rcases Memory.mem_write hcm with rfl | hcm
    · exact ht
    · exact hlt c hcm
  · change (List.range (r.count + 1)).filterMap (fun j => (r.store.write r.tail b).read ((r.head + j) % r.N)) = _
    rw [List.range_succ, List.filterMap_append]
    congr 1
    · refine filterMap_agree (fun j hj => ?_)
      have hne := Ring.slot_ne_tail (j := j) hh (List.mem_range.1 hj) hc
      rw [Memory.read_write_ne _ _ (by rw [he]; exact hne)]
    · simp [← he]

/-- `ring_pop` on a ring that holds a byte: it answers the oldest byte, keeps the invariants, drops that byte and
changes no slot (R86, R95, R96). -/
theorem ringPop_ok {r : Ring} (h : r.Ok) (hc : 0 < r.count) :
    ∃ b r', ringPop r = .ok (b, r') ∧ r'.Ok ∧ r.contents = b :: r'.contents ∧ r'.N = r.N ∧
      r.store.read r.head = some b ∧
      r'.head = (r.head + 1) % r.N ∧ r'.tail = r.tail ∧ r'.count = r.count - 1 ∧ r'.store = r.store := by
  obtain ⟨hN, hle, ⟨hh, ht⟩, he, hw, hwf, hlt⟩ := h
  obtain ⟨b, hb⟩ := Option.isSome_iff_exists.1 (hw 0 hc)
  have hb' : r.store.read r.head = some b := by rwa [Nat.add_zero, Nat.mod_eq_of_lt hh] at hb
  obtain ⟨n, hn⟩ : ∃ n, r.count = n + 1 := ⟨r.count - 1, by omega⟩
  have hshift : ∀ j, ((r.head + 1) % r.N + j) % r.N = (r.head + (j + 1)) % r.N := by
    intro j; rw [Nat.mod_add_mod]; congr 1; omega
  refine ⟨b, _, ringPop_eq hh hb', ⟨hN, ?_, ⟨?_, ht⟩, ?_, ?_, hwf, hlt⟩, ?_, rfl, hb', Ring.succ_eq_mod hh, rfl, rfl, rfl⟩
  · change r.count - 1 ≤ r.N; omega
  · change r.succ r.head < r.N
    rw [Ring.succ_eq_mod hh]; exact Nat.mod_lt _ (by omega)
  · change r.tail = (r.succ r.head + (r.count - 1)) % r.N
    rw [Ring.succ_eq_mod hh, hshift, he]; congr 1; omega
  · intro j hj
    change j < r.count - 1 at hj
    change (r.store.read ((r.succ r.head + j) % r.N)).isSome = true
    rw [Ring.succ_eq_mod hh, hshift]
    exact hw (j + 1) (by omega)
  · simp only [Ring.contents, hn, Nat.add_sub_cancel]
    rw [List.range_succ_eq_map, List.filterMap_cons, Nat.add_zero, Nat.mod_eq_of_lt hh, hb', List.filterMap_map]
    refine congrArg _ (filterMap_agree (fun j _ => ?_))
    have hs : Ring.succ { N := r.N, store := r.store, head := r.head, tail := r.tail, count := n + 1 } r.head
        = r.succ r.head := rfl
    simp only [Function.comp, Nat.succ_eq_add_one, Ring.succ_eq_mod hh, hshift]

/-- `ring_push_overwrite` (R87): it answers, keeps the invariants and the capacity, reports an eviction iff the ring was
full, and holds the newest N bytes (R96). -/
theorem ringPushOverwrite_ok {r : Ring} (h : r.Ok) (b : Byte) :
    ∃ r', ringPushOverwrite r b = .ok (decide (r.count = r.N), r') ∧ r'.Ok ∧ r'.N = r.N ∧
      r'.store = r.store.write r.tail b ∧ r'.tail = (r.tail + 1) % r.N ∧
      (r.count < r.N → r'.contents = r.contents ++ [b] ∧ r'.count = r.count + 1 ∧ r'.head = r.head) ∧
      (r.count = r.N → r'.contents = r.contents.tail ++ [b] ∧ r'.count = r.N ∧ r'.head = (r.head + 1) % r.N) := by
  have hN := h.1.1
  by_cases hc : r.count = r.N
  · obtain ⟨c, r₁, hp, hok, hcon, hN1, -, hh1, ht1, hc1, hs1⟩ := ringPop_ok h (by omega)
    obtain ⟨r₂, hp2, hok2, hcon2, hN2, hh2, ht2, hc2, hs2⟩ := ringPush_ok hok (by omega) b
    refine ⟨r₂, ?_, hok2, by omega, by rw [hs2, hs1, ht1], by rw [ht2, ht1, hN1], fun hlt => by omega, fun _ =>
      ⟨by rw [hcon2, hcon]; rfl, by omega, by rw [hh2, hh1]⟩⟩
    simp only [ringPushOverwrite, hc, if_true, hp, hp2, decide_true]
  · have hlt : r.count < r.N := by have := h.2.1; omega
    obtain ⟨r₂, hp2, hok2, hcon2, hN2, hh2, ht2, hc2, hs2⟩ := ringPush_ok h hlt b
    refine ⟨r₂, ?_, hok2, hN2, hs2, ht2, fun _ => ⟨hcon2, hc2, hh2⟩, fun he => absurd he hc⟩
    simp only [ringPushOverwrite, hc, if_false, hp2, decide_false]

/-- WRITE's loop (R133): it enqueues the first `min(L, N - count)` bytes in order. -/
theorem ringPushMany_ok {r : Ring} (h : r.Ok) (bs : List Byte) :
    ∃ r', ringPushMany r bs = .ok (min bs.length (r.N - r.count), r') ∧ r'.Ok ∧ r'.N = r.N ∧ r'.head = r.head ∧
      r'.contents = r.contents ++ bs.take (r.N - r.count) := by
  induction bs generalizing r with
  | nil => exact ⟨r, by simp [ringPushMany], h, rfl, rfl, by simp⟩
  | cons b bs ih =>
    by_cases hc : r.count < r.N
    · obtain ⟨r₁, hp, hok, hcon, hN1, hh1, ht1, hc1, -⟩ := ringPush_ok h hc b
      obtain ⟨r₂, hp2, hok2, hN2, hh2, hcon2⟩ := ih hok
      refine ⟨r₂, ?_, hok2, by omega, by rw [hh2, hh1], ?_⟩
      · simp only [ringPushMany, hc, if_true, hp, hp2]
        congr 2
        simp only [List.length_cons]; omega
      · obtain ⟨n, hn⟩ : ∃ n, r.N - r.count = n + 1 := ⟨r.N - r.count - 1, by omega⟩
        have : r₁.N - r₁.count = n := by omega
        rw [hcon2, hcon, this, hn]; simp
    · have hz : r.N - r.count = 0 := by omega
      exact ⟨r, by simp [ringPushMany, hc, hz], h, rfl, rfl, by simp [hz]⟩

/-- READ's loop (R135): with at most `count` pops it answers the `k` oldest bytes in order and leaves the rest. -/
theorem ringPopMany_ok {r : Ring} (h : r.Ok) {k : Nat} (hk : k ≤ r.count) :
    ∃ r', ringPopMany r k = .ok (r.contents.take k, r') ∧ r'.Ok ∧ r'.N = r.N ∧ r'.store = r.store ∧
      r'.tail = r.tail ∧ r'.count = r.count - k ∧ r'.contents = r.contents.drop k := by
  induction k generalizing r with
  | zero => exact ⟨r, by simp [ringPopMany], h, rfl, rfl, rfl, rfl, by simp⟩
  | succ k ih =>
    obtain ⟨b, r₁, hp, hok, hcon, hN1, -, hh1, ht1, hc1, hs1⟩ := ringPop_ok h (by omega)
    obtain ⟨r₂, hp2, hok2, hN2, hs2, ht2, hc2, hcon2⟩ := ih hok (by omega)
    refine ⟨r₂, ?_, hok2, by rw [hN2, hN1], by rw [hs2, hs1], by rw [ht2, ht1], by omega, ?_⟩
    · simp only [ringPopMany, hp, hp2, hcon, List.take_succ_cons]
    · rw [hcon2, hcon, List.drop_succ_cons]

end Sys2Proof.Machine
end

