-- ==== Sys2Proof/Laws/State.lean ====
section
/-! SUPPORT. The small lemmas of the state's updates, one per field and update, so that no later proof unfolds a record
update. -/

namespace Sys2Proof.Machine

@[simp] theorem State.setPort_cfg (s : State) (i : Idx) (p : Port) : (s.setPort i p).cfg = s.cfg := rfl
@[simp] theorem State.setPort_I (s : State) (i : Idx) (p : Port) : (s.setPort i p).I = s.I := rfl
@[simp] theorem State.setPort_csStack (s : State) (i : Idx) (p : Port) : (s.setPort i p).csStack = s.csStack := rfl
@[simp] theorem State.setPort_fault (s : State) (i : Idx) (p : Port) : (s.setPort i p).fault = s.fault := rfl
@[simp] theorem State.setPort_sched (s : State) (i : Idx) (p : Port) : (s.setPort i p).sched = s.sched := rfl
@[simp] theorem State.setPort_program (s : State) (i : Idx) (p : Port) : (s.setPort i p).program = s.program := rfl
@[simp] theorem State.setPort_pending (s : State) (i : Idx) (p : Port) : (s.setPort i p).pending = s.pending := rfl
@[simp] theorem State.setPort_replies (s : State) (i : Idx) (p : Port) : (s.setPort i p).replies = s.replies := rfl
@[simp] theorem State.setPort_choices (s : State) (i : Idx) (p : Port) : (s.setPort i p).choices = s.choices := rfl

@[simp] theorem State.port_setPort_same (s : State) (i : Idx) (p : Port) : (s.setPort i p).port i = p := by
  simp [State.port, State.setPort]

@[simp] theorem State.port_setPort_ne (s : State) {i j : Idx} (p : Port) (h : j ≠ i) :
    (s.setPort i p).port j = s.port j := by
  have : i.val ≠ j.val := fun e => h (Fin.ext e.symm)
  simp [State.port, State.setPort, this]

theorem State.port_setPort (s : State) (i j : Idx) (p : Port) :
    (s.setPort i p).port j = if j = i then p else s.port j := by
  by_cases h : j = i
  · subst h; simp
  · simp [h]

@[simp] theorem State.setPort_setPort (s : State) (i : Idx) (p q : Port) :
    (s.setPort i p).setPort i q = s.setPort i q := by
  simp [State.setPort]

@[simp] theorem State.setPort_self (s : State) (i : Idx) : s.setPort i (s.port i) = s := by
  simp [State.setPort, State.port]

/-- Two states with the same fields and the same indices are equal. -/
theorem State.ext_ports {s t : State} (hc : s.cfg = t.cfg) (hI : s.I = t.I) (hk : s.csStack = t.csStack)
    (hp : ∀ i : Idx, s.port i = t.port i) (hf : s.fault = t.fault) (hs : s.sched = t.sched)
    (hg : s.program = t.program) (hw : s.pending = t.pending) (hr : s.replies = t.replies)
    (hn : s.choices = t.choices) : s = t := by
  have hv : s.ports = t.ports := by
    apply Vector.ext
    intro i h
    exact hp ⟨i, h⟩
  cases s; cases t; simp_all

@[simp] theorem State.setReg_cfg (s : State) (i : Idx) (r : Option Driver) : (s.setReg i r).cfg = s.cfg := rfl
@[simp] theorem State.setReg_I (s : State) (i : Idx) (r : Option Driver) : (s.setReg i r).I = s.I := rfl
@[simp] theorem State.setReg_csStack (s : State) (i : Idx) (r : Option Driver) : (s.setReg i r).csStack = s.csStack := rfl
@[simp] theorem State.setReg_fault (s : State) (i : Idx) (r : Option Driver) : (s.setReg i r).fault = s.fault := rfl
@[simp] theorem State.setReg_sched (s : State) (i : Idx) (r : Option Driver) : (s.setReg i r).sched = s.sched := rfl
@[simp] theorem State.setReg_program (s : State) (i : Idx) (r : Option Driver) : (s.setReg i r).program = s.program := rfl
@[simp] theorem State.setReg_pending (s : State) (i : Idx) (r : Option Driver) : (s.setReg i r).pending = s.pending := rfl
@[simp] theorem State.setReg_replies (s : State) (i : Idx) (r : Option Driver) : (s.setReg i r).replies = s.replies := rfl
@[simp] theorem State.setReg_choices (s : State) (i : Idx) (r : Option Driver) : (s.setReg i r).choices = s.choices := rfl

@[simp] theorem State.port_setReg_same (s : State) (i : Idx) (r : Option Driver) :
    (s.setReg i r).port i = { s.port i with reg := r } := by
  simp [State.setReg]

@[simp] theorem State.port_setReg_ne (s : State) {i j : Idx} (r : Option Driver) (h : j ≠ i) :
    (s.setReg i r).port j = s.port j := by
  simp [State.setReg, h]

@[simp] theorem State.setUdrie_cfg (s : State) (i : Idx) (v : Bool) : (s.setUdrie i v).cfg = s.cfg := rfl
@[simp] theorem State.setUdrie_I (s : State) (i : Idx) (v : Bool) : (s.setUdrie i v).I = s.I := rfl
@[simp] theorem State.setUdrie_csStack (s : State) (i : Idx) (v : Bool) : (s.setUdrie i v).csStack = s.csStack := rfl
@[simp] theorem State.setUdrie_fault (s : State) (i : Idx) (v : Bool) : (s.setUdrie i v).fault = s.fault := rfl
@[simp] theorem State.setUdrie_sched (s : State) (i : Idx) (v : Bool) : (s.setUdrie i v).sched = s.sched := rfl
@[simp] theorem State.setUdrie_program (s : State) (i : Idx) (v : Bool) : (s.setUdrie i v).program = s.program := rfl
@[simp] theorem State.setUdrie_pending (s : State) (i : Idx) (v : Bool) : (s.setUdrie i v).pending = s.pending := rfl
@[simp] theorem State.setUdrie_replies (s : State) (i : Idx) (v : Bool) : (s.setUdrie i v).replies = s.replies := rfl
@[simp] theorem State.setUdrie_choices (s : State) (i : Idx) (v : Bool) : (s.setUdrie i v).choices = s.choices := rfl

@[simp] theorem State.port_setUdrie_same (s : State) (i : Idx) (v : Bool) :
    (s.setUdrie i v).port i = { s.port i with ctrlB := { (s.port i).ctrlB with udrie := v } } := by
  simp [State.setUdrie]

@[simp] theorem State.port_setUdrie_ne (s : State) {i j : Idx} (v : Bool) (h : j ≠ i) :
    (s.setUdrie i v).port j = s.port j := by
  simp [State.setUdrie, h]

@[simp] theorem State.setI_cfg (s : State) (v : Bool) : (s.setI v).cfg = s.cfg := rfl
@[simp] theorem State.setI_csStack (s : State) (v : Bool) : (s.setI v).csStack = s.csStack := rfl
@[simp] theorem State.setI_fault (s : State) (v : Bool) : (s.setI v).fault = s.fault := rfl
@[simp] theorem State.setI_sched (s : State) (v : Bool) : (s.setI v).sched = s.sched := rfl
@[simp] theorem State.setI_program (s : State) (v : Bool) : (s.setI v).program = s.program := rfl
@[simp] theorem State.setI_pending (s : State) (v : Bool) : (s.setI v).pending = s.pending := rfl
@[simp] theorem State.setI_replies (s : State) (v : Bool) : (s.setI v).replies = s.replies := rfl
@[simp] theorem State.setI_choices (s : State) (v : Bool) : (s.setI v).choices = s.choices := rfl
@[simp] theorem State.setI_I (s : State) (v : Bool) : (s.setI v).I = v := rfl
@[simp] theorem State.port_setI (s : State) (v : Bool) (i : Idx) : (s.setI v).port i = s.port i := rfl
@[simp] theorem State.setI_setI (s : State) (v w : Bool) : (s.setI v).setI w = s.setI w := rfl
@[simp] theorem State.setI_self (s : State) : s.setI s.I = s := rfl
theorem State.setI_eq_self {s : State} {v : Bool} (h : s.I = v) : s.setI v = s := by subst h; rfl
@[simp] theorem State.setPort_setI (s : State) (v : Bool) (i : Idx) (p : Port) :
    (s.setI v).setPort i p = (s.setPort i p).setI v := rfl
@[simp] theorem State.setReg_setI (s : State) (v : Bool) (i : Idx) (r : Option Driver) :
    (s.setI v).setReg i r = (s.setReg i r).setI v := rfl
@[simp] theorem State.setUdrie_setI (s : State) (v : Bool) (i : Idx) (w : Bool) :
    (s.setI v).setUdrie i w = (s.setUdrie i w).setI v := rfl
@[simp] theorem State.answer_setI (s : State) (v : Bool) (r : Reply) :
    (s.setI v).answer r = (s.answer r).setI v := rfl
@[simp] theorem State.setPort_setI_self (s : State) (i : Idx) (p : Port) : (s.setPort i p).setI s.I = s.setPort i p := rfl
@[simp] theorem State.setReg_setI_self (s : State) (i : Idx) (r : Option Driver) :
    (s.setReg i r).setI s.I = s.setReg i r := rfl
@[simp] theorem State.setUdrie_setI_self (s : State) (i : Idx) (w : Bool) :
    (s.setUdrie i w).setI s.I = s.setUdrie i w := rfl

@[simp] theorem State.answer_cfg (s : State) (r : Reply) : (s.answer r).cfg = s.cfg := rfl
@[simp] theorem State.answer_I (s : State) (r : Reply) : (s.answer r).I = s.I := rfl
@[simp] theorem State.answer_csStack (s : State) (r : Reply) : (s.answer r).csStack = s.csStack := rfl
@[simp] theorem State.answer_fault (s : State) (r : Reply) : (s.answer r).fault = s.fault := rfl
@[simp] theorem State.answer_sched (s : State) (r : Reply) : (s.answer r).sched = s.sched := rfl
@[simp] theorem State.answer_program (s : State) (r : Reply) : (s.answer r).program = s.program := rfl
@[simp] theorem State.answer_pending (s : State) (r : Reply) : (s.answer r).pending = s.pending := rfl
@[simp] theorem State.answer_choices (s : State) (r : Reply) : (s.answer r).choices = s.choices := rfl
@[simp] theorem State.answer_replies (s : State) (r : Reply) : (s.answer r).replies = s.replies ++ [r] := rfl
@[simp] theorem State.port_answer (s : State) (r : Reply) (i : Idx) : (s.answer r).port i = s.port i := rfl

@[simp] theorem State.raise_cfg (s : State) (f : FaultRecord) : (s.raise f).cfg = s.cfg := rfl
@[simp] theorem State.raise_I (s : State) (f : FaultRecord) : (s.raise f).I = s.I := rfl
@[simp] theorem State.raise_csStack (s : State) (f : FaultRecord) : (s.raise f).csStack = s.csStack := rfl
@[simp] theorem State.raise_sched (s : State) (f : FaultRecord) : (s.raise f).sched = s.sched := rfl
@[simp] theorem State.raise_program (s : State) (f : FaultRecord) : (s.raise f).program = s.program := rfl
@[simp] theorem State.raise_pending (s : State) (f : FaultRecord) : (s.raise f).pending = s.pending := rfl
@[simp] theorem State.raise_replies (s : State) (f : FaultRecord) : (s.raise f).replies = s.replies := rfl
@[simp] theorem State.raise_choices (s : State) (f : FaultRecord) : (s.raise f).choices = s.choices := rfl
@[simp] theorem State.raise_fault (s : State) (f : FaultRecord) : (s.raise f).fault = some f := rfl
@[simp] theorem State.port_raise (s : State) (f : FaultRecord) (i : Idx) : (s.raise f).port i = s.port i := rfl

@[simp] theorem State.handlerEntry_cfg (s : State) : (s.handlerEntry).cfg = s.cfg := rfl
@[simp] theorem State.handlerEntry_csStack (s : State) : (s.handlerEntry).csStack = s.csStack := rfl
@[simp] theorem State.handlerEntry_fault (s : State) : (s.handlerEntry).fault = s.fault := rfl
@[simp] theorem State.handlerEntry_sched (s : State) : (s.handlerEntry).sched = s.sched := rfl
@[simp] theorem State.handlerEntry_program (s : State) : (s.handlerEntry).program = s.program := rfl
@[simp] theorem State.handlerEntry_pending (s : State) : (s.handlerEntry).pending = s.pending := rfl
@[simp] theorem State.handlerEntry_replies (s : State) : (s.handlerEntry).replies = s.replies := rfl
@[simp] theorem State.handlerEntry_choices (s : State) : (s.handlerEntry).choices = s.choices := rfl
@[simp] theorem State.handlerEntry_I (s : State) : s.handlerEntry.I = false := rfl
theorem State.handlerEntry_eq (s : State) : s.handlerEntry = s.setI false := rfl
@[simp] theorem State.port_handlerEntry (s : State) (i : Idx) : s.handlerEntry.port i = s.port i := rfl

@[simp] theorem State.handlerReturn_cfg (s : State) : (s.handlerReturn).cfg = s.cfg := rfl
@[simp] theorem State.handlerReturn_csStack (s : State) : (s.handlerReturn).csStack = s.csStack := rfl
@[simp] theorem State.handlerReturn_fault (s : State) : (s.handlerReturn).fault = s.fault := rfl
@[simp] theorem State.handlerReturn_sched (s : State) : (s.handlerReturn).sched = s.sched := rfl
@[simp] theorem State.handlerReturn_program (s : State) : (s.handlerReturn).program = s.program := rfl
@[simp] theorem State.handlerReturn_pending (s : State) : (s.handlerReturn).pending = s.pending := rfl
@[simp] theorem State.handlerReturn_replies (s : State) : (s.handlerReturn).replies = s.replies := rfl
@[simp] theorem State.handlerReturn_choices (s : State) : (s.handlerReturn).choices = s.choices := rfl
@[simp] theorem State.handlerReturn_I (s : State) : s.handlerReturn.I = true := rfl
theorem State.handlerReturn_eq (s : State) : s.handlerReturn = s.setI true := rfl
@[simp] theorem State.port_handlerReturn (s : State) (i : Idx) : s.handlerReturn.port i = s.port i := rfl

/-! ### The setters of single fields -/

@[simp] theorem State.setCsStack_cfg (s : State) (v : List Bool) : (s.setCsStack v).cfg = s.cfg := rfl
@[simp] theorem State.setCsStack_I (s : State) (v : List Bool) : (s.setCsStack v).I = s.I := rfl
@[simp] theorem State.setCsStack_fault (s : State) (v : List Bool) : (s.setCsStack v).fault = s.fault := rfl
@[simp] theorem State.setCsStack_sched (s : State) (v : List Bool) : (s.setCsStack v).sched = s.sched := rfl
@[simp] theorem State.setCsStack_program (s : State) (v : List Bool) : (s.setCsStack v).program = s.program := rfl
@[simp] theorem State.setCsStack_pending (s : State) (v : List Bool) : (s.setCsStack v).pending = s.pending := rfl
@[simp] theorem State.setCsStack_replies (s : State) (v : List Bool) : (s.setCsStack v).replies = s.replies := rfl
@[simp] theorem State.setCsStack_choices (s : State) (v : List Bool) : (s.setCsStack v).choices = s.choices := rfl
@[simp] theorem State.setCsStack_csStack (s : State) (v : List Bool) : (s.setCsStack v).csStack = v := rfl
@[simp] theorem State.port_setCsStack (s : State) (v : List Bool) (i : Idx) : (s.setCsStack v).port i = s.port i := rfl
@[simp] theorem State.setCsStack_setI (s : State) (v : List Bool) (w : Bool) : (s.setI w).setCsStack v = (s.setCsStack v).setI w := rfl

@[simp] theorem State.setPending_cfg (s : State) (v : Option PendingWrite) : (s.setPending v).cfg = s.cfg := rfl
@[simp] theorem State.setPending_I (s : State) (v : Option PendingWrite) : (s.setPending v).I = s.I := rfl
@[simp] theorem State.setPending_csStack (s : State) (v : Option PendingWrite) : (s.setPending v).csStack = s.csStack := rfl
@[simp] theorem State.setPending_fault (s : State) (v : Option PendingWrite) : (s.setPending v).fault = s.fault := rfl
@[simp] theorem State.setPending_sched (s : State) (v : Option PendingWrite) : (s.setPending v).sched = s.sched := rfl
@[simp] theorem State.setPending_program (s : State) (v : Option PendingWrite) : (s.setPending v).program = s.program := rfl
@[simp] theorem State.setPending_replies (s : State) (v : Option PendingWrite) : (s.setPending v).replies = s.replies := rfl
@[simp] theorem State.setPending_choices (s : State) (v : Option PendingWrite) : (s.setPending v).choices = s.choices := rfl
@[simp] theorem State.setPending_pending (s : State) (v : Option PendingWrite) : (s.setPending v).pending = v := rfl
@[simp] theorem State.port_setPending (s : State) (v : Option PendingWrite) (i : Idx) : (s.setPending v).port i = s.port i := rfl
@[simp] theorem State.setPending_setI (s : State) (v : Option PendingWrite) (w : Bool) : (s.setI w).setPending v = (s.setPending v).setI w := rfl

@[simp] theorem State.setSched_cfg (s : State) (v : List Turn) : (s.setSched v).cfg = s.cfg := rfl
@[simp] theorem State.setSched_I (s : State) (v : List Turn) : (s.setSched v).I = s.I := rfl
@[simp] theorem State.setSched_csStack (s : State) (v : List Turn) : (s.setSched v).csStack = s.csStack := rfl
@[simp] theorem State.setSched_fault (s : State) (v : List Turn) : (s.setSched v).fault = s.fault := rfl
@[simp] theorem State.setSched_program (s : State) (v : List Turn) : (s.setSched v).program = s.program := rfl
@[simp] theorem State.setSched_pending (s : State) (v : List Turn) : (s.setSched v).pending = s.pending := rfl
@[simp] theorem State.setSched_replies (s : State) (v : List Turn) : (s.setSched v).replies = s.replies := rfl
@[simp] theorem State.setSched_choices (s : State) (v : List Turn) : (s.setSched v).choices = s.choices := rfl
@[simp] theorem State.setSched_sched (s : State) (v : List Turn) : (s.setSched v).sched = v := rfl
@[simp] theorem State.port_setSched (s : State) (v : List Turn) (i : Idx) : (s.setSched v).port i = s.port i := rfl
@[simp] theorem State.setSched_setI (s : State) (v : List Turn) (w : Bool) : (s.setI w).setSched v = (s.setSched v).setI w := rfl

@[simp] theorem State.setProgram_cfg (s : State) (v : List Command) : (s.setProgram v).cfg = s.cfg := rfl
@[simp] theorem State.setProgram_I (s : State) (v : List Command) : (s.setProgram v).I = s.I := rfl
@[simp] theorem State.setProgram_csStack (s : State) (v : List Command) : (s.setProgram v).csStack = s.csStack := rfl
@[simp] theorem State.setProgram_fault (s : State) (v : List Command) : (s.setProgram v).fault = s.fault := rfl
@[simp] theorem State.setProgram_sched (s : State) (v : List Command) : (s.setProgram v).sched = s.sched := rfl
@[simp] theorem State.setProgram_pending (s : State) (v : List Command) : (s.setProgram v).pending = s.pending := rfl
@[simp] theorem State.setProgram_replies (s : State) (v : List Command) : (s.setProgram v).replies = s.replies := rfl
@[simp] theorem State.setProgram_choices (s : State) (v : List Command) : (s.setProgram v).choices = s.choices := rfl
@[simp] theorem State.setProgram_program (s : State) (v : List Command) : (s.setProgram v).program = v := rfl
@[simp] theorem State.port_setProgram (s : State) (v : List Command) (i : Idx) : (s.setProgram v).port i = s.port i := rfl
@[simp] theorem State.setProgram_setI (s : State) (v : List Command) (w : Bool) : (s.setI w).setProgram v = (s.setProgram v).setI w := rfl

@[simp] theorem State.draw_cfg (s : State) : s.draw.cfg = s.cfg := rfl
@[simp] theorem State.draw_I (s : State) : s.draw.I = s.I := rfl
@[simp] theorem State.draw_csStack (s : State) : s.draw.csStack = s.csStack := rfl
@[simp] theorem State.draw_fault (s : State) : s.draw.fault = s.fault := rfl
@[simp] theorem State.draw_sched (s : State) : s.draw.sched = s.sched := rfl
@[simp] theorem State.draw_program (s : State) : s.draw.program = s.program := rfl
@[simp] theorem State.draw_pending (s : State) : s.draw.pending = s.pending := rfl
@[simp] theorem State.draw_replies (s : State) : s.draw.replies = s.replies := rfl
@[simp] theorem State.draw_choices (s : State) : s.draw.choices = s.choices + 1 := rfl
@[simp] theorem State.port_draw (s : State) (i : Idx) : s.draw.port i = s.port i := rfl
@[simp] theorem State.draw_setI (s : State) (w : Bool) : (s.setI w).draw = s.draw.setI w := rfl

/-! ### The state after reset (R42) -/

@[simp] theorem State.port_resetWith (c : Config) (i : Idx) : (State.resetWith c).port i = Port.reset := by
  simp [State.resetWith, State.port]

@[simp] theorem State.resetWith_cfg (c : Config) : (State.resetWith c).cfg = c := rfl
@[simp] theorem State.resetWith_I (c : Config) : (State.resetWith c).I = false := rfl
@[simp] theorem State.resetWith_csStack (c : Config) : (State.resetWith c).csStack = [] := rfl
@[simp] theorem State.resetWith_fault (c : Config) : (State.resetWith c).fault = none := rfl
@[simp] theorem State.resetWith_sched (c : Config) : (State.resetWith c).sched = [] := rfl
@[simp] theorem State.resetWith_program (c : Config) : (State.resetWith c).program = [] := rfl
@[simp] theorem State.resetWith_pending (c : Config) : (State.resetWith c).pending = none := rfl
@[simp] theorem State.resetWith_replies (c : Config) : (State.resetWith c).replies = [] := rfl
@[simp] theorem State.resetWith_choices (c : Config) : (State.resetWith c).choices = 0 := rfl

/-! ### The rings of a driver -/

@[simp] theorem Driver.ring_rx (d : Driver) : d.ring .rx = d.rx := rfl
@[simp] theorem Driver.ring_tx (d : Driver) : d.ring .tx = d.tx := rfl
@[simp] theorem Driver.setRing_rx (d : Driver) (r : Ring) : d.setRing .rx r = { d with rx := r } := rfl
@[simp] theorem Driver.setRing_tx (d : Driver) (r : Ring) : d.setRing .tx r = { d with tx := r } := rfl

@[simp] theorem Driver.ring_setRing_same (d : Driver) (sel : RingSel) (r : Ring) : (d.setRing sel r).ring sel = r := by
  cases sel <;> rfl

@[simp] theorem Driver.ring_setRing_ne (d : Driver) {sel sel' : RingSel} (r : Ring) (h : sel' ≠ sel) :
    (d.setRing sel r).ring sel' = d.ring sel' := by
  cases sel <;> cases sel' <;> first | rfl | exact absurd rfl h

@[simp] theorem Driver.setRing_overwritten (d : Driver) (sel : RingSel) (r : Ring) :
    (d.setRing sel r).overwritten = d.overwritten := by cases sel <;> rfl

@[simp] theorem Driver.setRing_bad (d : Driver) (sel : RingSel) (r : Ring) : (d.setRing sel r).bad = d.bad := by
  cases sel <;> rfl

@[simp] theorem Driver.setRing_settings (d : Driver) (sel : RingSel) (r : Ring) :
    (d.setRing sel r).settings = d.settings := by cases sel <;> rfl

end Sys2Proof.Machine
end

