-- ==== Sys2Proof/Laws/Ops.lean ====
section
/-! SUPPORT. What the shared operations of a command can do: replies, faults, critical sections, handlers, the checks of
30_encoding.md R79, the external data registers, the flush body. -/

namespace Sys2Proof.Machine

/-! ### Reactions -/

@[simp] theorem settle_reply (s t : State) (r : Reply) : settle s (.reply r t) = .next (t.answer r) := rfl
@[simp] theorem settle_quiet (s t : State) : settle s (.quiet t) = .next t := rfl
@[simp] theorem settle_raise (s : State) (f : FaultRecord) : settle s (.raise f) = .next (s.raise f) := rfl
@[simp] theorem settle_stop (s : State) (f : Fault) : settle s (.stop f) = .fault f := rfl
@[simp] theorem Reaction.map_reply (f : State → State) (r : Reply) (t : State) :
    (Reaction.reply r t).map f = .reply r (f t) := rfl
@[simp] theorem Reaction.map_quiet (f : State → State) (t : State) : (Reaction.quiet t).map f = .quiet (f t) := rfl
@[simp] theorem Reaction.map_raise (f : State → State) (x : FaultRecord) : (Reaction.raise x).map f = .raise x := rfl
@[simp] theorem Reaction.map_stop (f : State → State) (x : Fault) : (Reaction.stop x).map f = .stop x := rfl
@[simp] theorem Reaction.ok_eq (x : Results) (t : State) : Reaction.ok x t = .reply ⟨.ok, x⟩ t := rfl
@[simp] theorem Reaction.err_eq (e : Status) (s : State) : Reaction.err e s = .reply ⟨e, .empty⟩ s := rfl

/-- A slot error ends in the record of F_UNWRITTEN_SLOT or stops the model. -/
theorem settle_slotFault_next {s t : State} {i : Idx} {sel : RingSel} {e : SlotError}
    (h : settle s (slotFault i sel e) = .next t) : ∃ f, t = s.raise f := by
  cases e with
  | unwritten k => exact ⟨_, by simpa [slotFault] using h.symm⟩
  | outOfRange k => simp [slotFault] at h

@[simp] theorem slotFault_map (f : State → State) (i : Idx) (sel : RingSel) (e : SlotError) :
    (slotFault i sel e).map f = slotFault i sel e := by
  cases e <;> rfl

/-- No reaction to an event or command ends the model but a slot that does not exist, or a lost driver. -/
theorem settle_next_iff {s t : State} {x : Reaction} :
    settle s x = .next t ↔
      (∃ r u, x = .reply r u ∧ t = u.answer r) ∨ x = .quiet t ∨ (∃ f, x = .raise f ∧ t = s.raise f) := by
  cases x with
  | reply r u =>
    constructor
    · intro h; exact .inl ⟨r, u, rfl, by simpa using h.symm⟩
    · rintro (⟨_, _, h, rfl⟩ | h | ⟨_, h, -⟩)
      · cases h; rfl
      · cases h
      · cases h
  | quiet u => simp
  | raise f => simp [eq_comm]
  | stop f => simp

/-! ### The checks of R79 -/

/-- A foreground command that answers a state: the block was not halted, and either an operand was out of range and the
fault is recorded, or the command's own reaction is taken. -/
theorem foreground_next {i : Instr} {s t : State} {x : Reaction} (h : foreground i s x = .next t) :
    s.fault = none ∧
      ((i.wf = false ∧ t = s.raise (.badOperand (encodeWord i) (encodeOperands i))) ∨
       (i.wf = true ∧ settle s x = .next t)) := by
  unfold foreground at h
  split at h
  · simp at h
  · rename_i hf
    refine ⟨by simpa using hf, ?_⟩
    split at h
    · exact .inr ⟨‹_›, h⟩
    · exact .inl ⟨by simpa using ‹¬ i.wf = true›, by simpa using h.symm⟩

/-- A command with its operands in range, on a block that is not halted, is its own reaction. -/
theorem foreground_eq {i : Instr} {s : State} {x : Reaction} (hf : s.fault = none) (hw : i.wf = true) :
    foreground i s x = settle s x := by
  simp [foreground, hf, hw]

theorem perIndex_eq {i : Idx} {s : State} {x : Reaction} (h : s.present i) : perIndex i s x = x := by
  simp [perIndex, h]

/-- On an existing index with a driver the checks of steps 4 and 5 pass. -/
theorem perDriver_eq {i : Idx} {s : State} {f : Driver → Reaction} {d : Driver} (h : s.present i)
    (hd : (s.port i).reg = some d) : perDriver i s f = f d := by
  simp [perDriver, perIndex, h, hd]

theorem guardedRing_eq {w : Word} {i : Idx} {sel : RingSel} {s : State} {f : Driver → Ring → Reaction} {d : Driver}
    (h : s.present i) (hd : (s.port i).reg = some d) (hI : s.I = false) :
    guardedRing w i sel s f = f d (d.ring sel) := by
  simp [guardedRing, perDriver_eq h hd, hI]

/-- What steps 4 and 5 can end in: an error status and no effect, or the command's own reaction on its driver. -/
theorem perDriver_cases (i : Idx) (s : State) (f : Driver → Reaction) :
    (∃ e, (e = .eIndexRange ∨ e = .eNotConstructed) ∧ perDriver i s f = .reply ⟨e, .empty⟩ s) ∨
      (∃ d, s.present i ∧ (s.port i).reg = some d ∧ perDriver i s f = f d) := by
  by_cases h : s.present i
  · cases hr : (s.port i).reg with
    | none => exact .inl ⟨.eNotConstructed, .inr rfl, by simp [perDriver, perIndex, h, hr]⟩
    | some d => exact .inr ⟨d, h, rfl, perDriver_eq h hr⟩
  · exact .inl ⟨.eIndexRange, .inl rfl, by simp [perDriver, perIndex, h]⟩

/-- What the guard of R88 can end in. -/
theorem guardedRing_cases (w : Word) (i : Idx) (sel : RingSel) (s : State) (f : Driver → Ring → Reaction) :
    (∃ e, (e = .eIndexRange ∨ e = .eNotConstructed) ∧ guardedRing w i sel s f = .reply ⟨e, .empty⟩ s) ∨
      guardedRing w i sel s f = .raise (.unguardedAccess w) ∨
      (∃ d, s.present i ∧ (s.port i).reg = some d ∧ s.I = false ∧ guardedRing w i sel s f = f d (d.ring sel)) := by
  unfold guardedRing
  rcases perDriver_cases i s (fun d => if s.I then .raise (.unguardedAccess w) else f d (d.ring sel)) with h | h
  · exact .inl h
  · obtain ⟨d, hp, hr, he⟩ := h
    by_cases hI : s.I = true
    · exact .inr (.inl (by rw [he, if_pos hI]))
    · have hI' : s.I = false := by simpa using hI
      exact .inr (.inr ⟨d, hp, hr, hI', by rw [he, if_neg hI]⟩)

/-! ### The transmitter -/

@[simp] theorem txdWrite_cfg (i : Idx) (b : Byte) (s : State) : (txdWrite i b s).cfg = s.cfg := by
  unfold txdWrite; split
  · rfl
  · split <;> rfl
@[simp] theorem txdWrite_I (i : Idx) (b : Byte) (s : State) : (txdWrite i b s).I = s.I := by
  unfold txdWrite; split
  · rfl
  · split <;> rfl
@[simp] theorem txdWrite_csStack (i : Idx) (b : Byte) (s : State) : (txdWrite i b s).csStack = s.csStack := by
  unfold txdWrite; split
  · rfl
  · split <;> rfl
@[simp] theorem txdWrite_fault (i : Idx) (b : Byte) (s : State) : (txdWrite i b s).fault = s.fault := by
  unfold txdWrite; split
  · rfl
  · split <;> rfl
@[simp] theorem txdWrite_sched (i : Idx) (b : Byte) (s : State) : (txdWrite i b s).sched = s.sched := by
  unfold txdWrite; split
  · rfl
  · split <;> rfl
@[simp] theorem txdWrite_program (i : Idx) (b : Byte) (s : State) : (txdWrite i b s).program = s.program := by
  unfold txdWrite; split
  · rfl
  · split <;> rfl
@[simp] theorem txdWrite_pending (i : Idx) (b : Byte) (s : State) : (txdWrite i b s).pending = s.pending := by
  unfold txdWrite; split
  · rfl
  · split <;> rfl
@[simp] theorem txdWrite_replies (i : Idx) (b : Byte) (s : State) : (txdWrite i b s).replies = s.replies := by
  unfold txdWrite; split
  · rfl
  · split <;> rfl

@[simp] theorem port_txdWrite_ne {i j : Idx} (b : Byte) (s : State) (h : j ≠ i) :
    (txdWrite i b s).port j = s.port j := by
  unfold txdWrite; split
  · simp [h]
  · split <;> simp [h]

/-- The index after a transmit write (R173): the register is not empty and holds the byte, or, where it was busy, the
byte it held or the new one; nothing else changes. -/
theorem port_txdWrite_same (i : Idx) (b : Byte) (s : State) :
    ∃ v, (txdWrite i b s).port i = { s.port i with txdReg := v, txdEmpty := false } ∧
      ((s.port i).txdEmpty = true → v = b) ∧ (v = b ∨ v = (s.port i).txdReg) := by
  unfold txdWrite; split
  · exact ⟨b, by simp, fun _ => rfl, .inl rfl⟩
  · rename_i h
    have h' : (s.port i).txdEmpty = false := by simpa using h
    split
    · exact ⟨b, by simp [← h'], fun _ => rfl, .inl rfl⟩
    · refine ⟨(s.port i).txdReg, ?_, fun he => absurd he h, .inr rfl⟩
      rw [State.port_draw, ← h']

/-- A transmit write to a register that can take a byte. -/
theorem txdWrite_empty {i : Idx} {b : Byte} {s : State} (h : (s.port i).txdEmpty = true) :
    txdWrite i b s = s.setPort i { s.port i with txdReg := b, txdEmpty := false } := by
  simp [txdWrite, h]

/-- A transmit write neither reads nor writes I. -/
@[simp] theorem txdWrite_setI (i : Idx) (b : Byte) (s : State) (v : Bool) :
    txdWrite i b (s.setI v) = (txdWrite i b s).setI v := by
  unfold txdWrite
  rw [State.port_setI, State.setI_choices]
  split
  · rfl
  · split <;> rfl

/-! ### The flush body -/

/-- The state the flush body leaves when the tx ring holds bytes (R136). -/
def flushSent (s : State) (i : Idx) (d : Driver) (b : Byte) (tx : Ring) : State :=
  txdWrite i b ((s.setReg i (some { d with tx := tx })).setUdrie i true)

/-- What the flush body answers on a ring that holds bytes. -/
theorem flushBody_pos {i : Idx} {d : Driver} {r : Reply} {s : State} {b : Byte} {tx : Ring} (hc : 0 < d.tx.count)
    (hp : ringPop d.tx = .ok (b, tx)) : flushBody i d r s = .reply r (flushSent s i d b tx) := by
  simp only [flushBody, criticalSection, hc, if_true, hp, Reaction.map_reply, flushSent, State.setReg_setI,
    State.setUdrie_setI, txdWrite_setI, State.setI_setI]
  rw [State.setI_eq_self (by simp)]

/-- What the flush body answers on an empty ring. -/
theorem flushBody_zero {i : Idx} {d : Driver} {r : Reply} {s : State} (hc : d.tx.count = 0) :
    flushBody i d r s = .reply r (s.setUdrie i false) := by
  simp only [flushBody, criticalSection, hc, Nat.lt_irrefl, if_false, Reaction.map_reply]
  rfl

/-- All the flush body can do. -/
theorem flushBody_cases (i : Idx) (d : Driver) (r : Reply) (s : State) :
    (∃ e, flushBody i d r s = slotFault i .tx e) ∨
      (∃ b tx, 0 < d.tx.count ∧ ringPop d.tx = .ok (b, tx) ∧ flushBody i d r s = .reply r (flushSent s i d b tx)) ∨
      (d.tx.count = 0 ∧ flushBody i d r s = .reply r (s.setUdrie i false)) := by
  by_cases hc : 0 < d.tx.count
  · cases hp : ringPop d.tx with
    | error e => exact .inl ⟨e, by simp [flushBody, criticalSection, hc, hp]⟩
    | ok x =>
      obtain ⟨b, tx⟩ := x
      exact .inr (.inl ⟨b, tx, hc, rfl, flushBody_pos hc hp⟩)
  · have : d.tx.count = 0 := by omega
    exact .inr (.inr ⟨this, flushBody_zero this⟩)

/-- On a driver whose tx ring is sound the flush body gives its reply: no slot fault (R44, R51). -/
theorem flushBody_sound {i : Idx} {d : Driver} {r : Reply} (s : State) (h : d.tx.Ok) :
    ∃ t, flushBody i d r s = .reply r t ∧ t.fault = s.fault := by
  by_cases hc : 0 < d.tx.count
  · obtain ⟨b, tx, hp, -⟩ := ringPop_ok h hc
    exact ⟨_, flushBody_pos hc hp, by simp [flushSent]⟩
  · exact ⟨_, flushBody_zero (by omega), by simp⟩

/-! ### The handlers on sound drivers (R170) -/

/-- The receive handler's body raises nothing where the driver's rx ring is sound. -/
theorem rxcBody_sound {i : Idx} {s : State} (h : ∀ d ∈ (s.port i).reg, d.rx.Ok) :
    ∃ t, rxcBody i s = .quiet t ∧ t.fault = s.fault := by
  unfold rxcBody rxdRead
  cases (s.port i).rxHold with
  | none => exact ⟨s, rfl, rfl⟩
  | some b =>
    cases hr : (s.port i).reg with
    | none => simp [hr]
    | some d =>
      obtain ⟨rx, hp, -⟩ := ringPushOverwrite_ok (h d hr) b
      simp [hr, hp]

/-- The transmit handler's body raises nothing where the driver's tx ring is sound. -/
theorem udreBody_sound {i : Idx} {s : State} (h : ∀ d ∈ (s.port i).reg, d.tx.Ok) :
    ∃ t, udreBody i s = .quiet t ∧ t.fault = s.fault := by
  unfold udreBody
  cases hr : (s.port i).reg with
  | none => exact ⟨_, rfl, by simp⟩
  | some d =>
    by_cases hc : 0 < d.tx.count
    · obtain ⟨b, tx, hp, -⟩ := ringPop_ok (h d hr) hc
      simp [hc, hp]
    · simp [hc]

/-- A dispatcher step in a block that is not halted answers a state without a fault if its handler's body does. -/
theorem deliver_sound {c : Bool} {body : State → Reaction} {s : State} (hf : s.fault = none)
    (hb : ∃ t, body s.handlerEntry = .quiet t ∧ t.fault = none) : ∃ t, deliver c body s = .next t ∧ t.fault = none := by
  obtain ⟨t, hb, ht⟩ := hb
  cases c with
  | false => exact ⟨s, by simp [deliver, hf], hf⟩
  | true => exact ⟨t.handlerReturn, by simp [deliver, hf, handler, hb], ht⟩

end Sys2Proof.Machine
end

