-- ==== Sys2Proof/Laws/Exec.lean ====
section
/-! SUPPORT. What one instruction can do, said once: if `exec` answers a next state, the block was not halted and the
state is the old one (an event not delivered), the old one with a fault recorded, the old one with an error status
answered, or the old one with the instruction's own effect. -/

namespace Sys2Proof.Machine

/-- The reply OK with no results. -/
abbrev replyOk : Reply := ⟨.ok, .empty⟩

/-- The state after an OK reply with the results `x`. -/
abbrev State.answerOk (t : State) (x : Results) : State := t.answer ⟨.ok, x⟩

/-- The state the receive handler leaves (R153). -/
def rxcTaken (s : State) (i : Idx) : State := s.setPort i { s.port i with rxHold := none }

/-- The own effect of each instruction: its conditions and the state it leaves. -/
inductive Effect (s : State) : Instr → State → Prop where
  | construct (i : Idx) (nRx nTx : Nat) : s.present i → (s.port i).reg = none →
      Instr.wf (.construct i nRx nTx) = true →
      Effect s (.construct i nRx nTx) (((s.setReg i (some (Driver.fresh nRx nTx))).answer replyOk).setI true)
  | destruct (i : Idx) (d : Driver) : s.present i → (s.port i).reg = some d →
      Effect s (.destruct i)
        ((s.setPort i { s.port i with ctrlB := (s.port i).ctrlB.clearEnables, reg := none }).answer replyOk)
  | configure (i : Idx) (par : Parity) (stb : StopBits) (baud : Nat) (d : Driver) (div : Nat) (dbl : Bool) :
      s.present i → (s.port i).reg = some d → baud < 2 ^ 32 → select s.cfg.baudLut baud = some (div, dbl) →
      ¬ (s.cfg.policy = .reject ∧ 0 < d.tx.count) →
      Effect s (.configure i par stb baud)
        ((s.setPort i (configurePort (s.port i) d { baud := baud, stop := stb, parity := par } div dbl)).answer replyOk)
  | write (i : Idx) (bytes : List Byte) (d : Driver) (k : Nat) (tx : Ring) : s.present i →
      (s.port i).reg = some d → ringPushMany d.tx bytes = .ok (k, tx) →
      Effect s (.write i bytes)
        ((s.setReg i (some { d with tx := tx })).setPending (some { idx := i, written := k }))
  | read (i : Idx) (len : Nat) (d : Driver) (out : List Byte) (rx : Ring) : s.present i →
      (s.port i).reg = some d → ringPopMany d.rx (min len d.rx.count) = .ok (out, rx) →
      Effect s (.read i len)
        ((s.setReg i (some { d with rx := rx })).answerOk (.read out (min len d.rx.count) rx.count d.rx.N))
  | flushSent (i : Idx) (d : Driver) (b : Byte) (tx : Ring) : s.present i → (s.port i).reg = some d →
      0 < d.tx.count → ringPop d.tx = .ok (b, tx) →
      Effect s (.flush i) ((flushSent s i d b tx).answer replyOk)
  | flushEmpty (i : Idx) (d : Driver) : s.present i → (s.port i).reg = some d → d.tx.count = 0 →
      Effect s (.flush i) ((s.setUdrie i false).answer replyOk)
  | ovfRead (i : Idx) (d : Driver) : s.present i → (s.port i).reg = some d →
      Effect s (.ovfRead i) (s.answerOk (.flag d.overwritten))
  | ovfClear (i : Idx) (d : Driver) : s.present i → (s.port i).reg = some d →
      Effect s (.ovfClear i) ((s.setReg i (some { d with overwritten := false })).answer replyOk)
  | badRead (i : Idx) (d : Driver) : s.present i → (s.port i).reg = some d →
      Effect s (.badRead i) (s.answerOk (.flag d.bad))
  | csEnter : Effect s .csEnter (((s.setCsStack (s.csStack ++ [s.I])).setI false).answer replyOk)
  | csExit (v : Bool) : s.csStack.getLast? = some v →
      Effect s .csExit (((s.setI v).setCsStack s.csStack.dropLast).answer replyOk)
  | rbPush (i : Idx) (sel : RingSel) (b : Nat) (d : Driver) (r : Ring) : s.present i → (s.port i).reg = some d →
      s.I = false → (d.ring sel).count ≠ (d.ring sel).N → ringPush (d.ring sel) (BitVec.ofNat 8 b) = .ok r →
      Effect s (.rbPush i sel b) ((s.setReg i (some (d.setRing sel r))).answer replyOk)
  | rbPop (i : Idx) (sel : RingSel) (d : Driver) (b : Byte) (r : Ring) : s.present i → (s.port i).reg = some d →
      s.I = false → (d.ring sel).count ≠ 0 → ringPop (d.ring sel) = .ok (b, r) →
      Effect s (.rbPop i sel) ((s.setReg i (some (d.setRing sel r))).answerOk (.byte b))
  | rbFull (i : Idx) (sel : RingSel) (d : Driver) : s.present i → (s.port i).reg = some d → s.I = false →
      Effect s (.rbFull i sel) (s.answerOk (.flag (decide ((d.ring sel).count = (d.ring sel).N))))
  | rbEmpty (i : Idx) (sel : RingSel) (d : Driver) : s.present i → (s.port i).reg = some d → s.I = false →
      Effect s (.rbEmpty i sel) (s.answerOk (.flag (decide ((d.ring sel).count = 0))))
  | rbSize (i : Idx) (sel : RingSel) (d : Driver) : s.present i → (s.port i).reg = some d → s.I = false →
      Effect s (.rbSize i sel) (s.answerOk (.number (d.ring sel).count))
  | rbCapacity (i : Idx) (sel : RingSel) (d : Driver) : s.present i → (s.port i).reg = some d → s.I = false →
      Effect s (.rbCapacity i sel) (s.answerOk (.number (d.ring sel).N))
  | baudSelect (baud : Nat) (found : Bool) (div : Nat) (dbl : Bool) :
      Effect s (.baudSelect baud) (s.answerOk (.baud found div dbl))
  | rxcDiscard (i : Idx) (b : Byte) : rxcDeliverable i s = true → (s.port i).rxHold = some b →
      (s.port i).reg = none → Effect s (.evRxc i) (rxcTaken s i)
  | rxcStore (i : Idx) (b : Byte) (d : Driver) (evicted : Bool) (rx : Ring) : rxcDeliverable i s = true →
      (s.port i).rxHold = some b → (s.port i).reg = some d → ringPushOverwrite d.rx b = .ok (evicted, rx) →
      Effect s (.evRxc i)
        ((rxcTaken s i).setReg i (some { d with rx := rx, overwritten := d.overwritten || evicted }))
  | udreSend (i : Idx) (d : Driver) (b : Byte) (tx : Ring) : udreDeliverable i s = true →
      (s.port i).reg = some d → 0 < d.tx.count → ringPop d.tx = .ok (b, tx) →
      Effect s (.evUdre i) (txdWrite i b (s.setReg i (some { d with tx := tx })))
  | udreDisable (i : Idx) : udreDeliverable i s = true → (∀ d ∈ (s.port i).reg, d.tx.count = 0) →
      Effect s (.evUdre i) (s.setUdrie i false)

/-- The error statuses an instruction can answer (R162). -/
def Instr.errors : Instr → List Status
  | .construct _ _ _ => [.eIndexRange, .eDuplicate]
  | .destruct _ => [.eIndexRange, .eNotConstructed]
  | .configure _ _ _ _ => [.eIndexRange, .eNotConstructed, .eBaudUnsupported, .eTxBusy]
  | .write _ _ => [.eIndexRange, .eNotConstructed]
  | .read _ _ => [.eIndexRange, .eNotConstructed]
  | .flush _ => [.eIndexRange, .eNotConstructed]
  | .ovfRead _ => [.eIndexRange, .eNotConstructed]
  | .ovfClear _ => [.eIndexRange, .eNotConstructed]
  | .badRead _ => [.eIndexRange, .eNotConstructed]
  | .csEnter => []
  | .csExit => []
  | .rbPush _ _ _ => [.eIndexRange, .eNotConstructed]
  | .rbPop _ _ => [.eIndexRange, .eNotConstructed]
  | .rbFull _ _ => [.eIndexRange, .eNotConstructed]
  | .rbEmpty _ _ => [.eIndexRange, .eNotConstructed]
  | .rbSize _ _ => [.eIndexRange, .eNotConstructed]
  | .rbCapacity _ _ => [.eIndexRange, .eNotConstructed]
  | .baudSelect _ => []
  | .evRxc _ => []
  | .evUdre _ => []

/-- How an instruction that answers a next state can have ended. -/
inductive Ended (s : State) (i : Instr) (t : State) : Prop where
  /-- an event whose condition does not hold: nothing happens -/
  | idle : i.isEvent = true → t = s → Ended s i t
  /-- a fault is recorded and nothing else is written -/
  | raised (f : FaultRecord) : t = s.raise f → Ended s i t
  /-- an error status is answered and nothing else is written -/
  | error (e : Status) : e ∈ Instr.errors i → t = s.answer ⟨e, .empty⟩ → Ended s i t
  /-- the instruction's own effect -/
  | effect : Effect s i t → Ended s i t

/-- A per-driver command's reaction, once its effect on a driver is known. -/
theorem perDriver_ended {i : Idx} {s t : State} {f : Driver → Reaction} {ins : Instr}
    (h : settle s (perDriver i s f) = .next t)
    (hd : ∀ d, s.present i → (s.port i).reg = some d → settle s (f d) = .next t → Ended s ins t)
    (hE : ∀ e, (e = .eIndexRange ∨ e = .eNotConstructed) → e ∈ Instr.errors ins := by simp [Instr.errors]) :
    Ended s ins t := by
  rcases perDriver_cases i s f with ⟨e, he, hx⟩ | ⟨d, hp, hr, hx⟩
  · rw [hx] at h; exact .error e (hE e he) (by simpa using h.symm)
  · rw [hx] at h; exact hd d hp hr h

theorem guardedRing_ended {w : Word} {i : Idx} {sel : RingSel} {s t : State} {f : Driver → Ring → Reaction}
    {ins : Instr} (h : settle s (guardedRing w i sel s f) = .next t)
    (hd : ∀ d, s.present i → (s.port i).reg = some d → s.I = false → settle s (f d (d.ring sel)) = .next t →
      Ended s ins t)
    (hE : ∀ e, (e = .eIndexRange ∨ e = .eNotConstructed) → e ∈ Instr.errors ins := by simp [Instr.errors]) :
    Ended s ins t := by
  rcases guardedRing_cases w i sel s f with ⟨e, he, hx⟩ | hx | ⟨d, hp, hr, hI, hx⟩
  · rw [hx] at h; exact .error e (hE e he) (by simpa using h.symm)
  · rw [hx] at h; exact .raised _ (by simpa using h.symm)
  · rw [hx] at h; exact hd d hp hr hI h

theorem foreground_ended {i : Instr} {s t : State} {x : Reaction} (h : foreground i s x = .next t)
    (hx : i.wf = true → settle s x = .next t → Ended s i t) : s.fault = none ∧ Ended s i t := by
  obtain ⟨hf, ⟨-, ht⟩ | ⟨hw, ht⟩⟩ := foreground_next h
  · exact ⟨hf, .raised _ ht⟩
  · exact ⟨hf, hx hw ht⟩

theorem slotFault_ended {s t : State} {i : Idx} {sel : RingSel} {e : SlotError} {ins : Instr}
    (h : settle s (slotFault i sel e) = .next t) : Ended s ins t := by
  obtain ⟨f, rfl⟩ := settle_slotFault_next h
  exact .raised f rfl

/-! ### One lemma per meaning -/

theorem execConstruct_ended {i : Idx} {nRx nTx : Nat} {s t : State} (h : execConstruct i nRx nTx s = .next t) :
    s.fault = none ∧ Ended s (.construct i nRx nTx) t := by
  refine foreground_ended h (fun hw hs => ?_)
  unfold perIndex at hs
  split at hs
  · rename_i hp
    split at hs
    · exact .error .eDuplicate (by simp [Instr.errors]) (by simpa [criticalSection] using hs.symm)
    · rename_i hr
      have : t = ((s.setReg i (some (Driver.fresh nRx nTx))).answer replyOk).setI true := by
        simpa [criticalSection] using hs.symm
      exact .effect (this ▸ .construct i nRx nTx hp hr hw)
  · exact .error .eIndexRange (by simp [Instr.errors]) (by simpa using hs.symm)

theorem execDestruct_ended {i : Idx} {s t : State} (h : execDestruct i s = .next t) :
    s.fault = none ∧ Ended s (.destruct i) t := by
  refine foreground_ended h (fun _ hs => perDriver_ended hs (fun d hp hr hs => ?_))
  have : t = (s.setPort i { s.port i with ctrlB := (s.port i).ctrlB.clearEnables, reg := none }).answer replyOk := by
    simpa [criticalSection] using hs.symm
  exact .effect (this ▸ .destruct i d hp hr)

theorem execConfigure_ended {i : Idx} {par : Parity} {stb : StopBits} {baud : Nat} {s t : State}
    (h : execConfigure i par stb baud s = .next t) :
    s.fault = none ∧ Ended s (.configure i par stb baud) t := by
  refine foreground_ended h (fun hw hs => perDriver_ended hs (fun d hp hr hs => ?_))
  have hb : baud < 2 ^ 32 := by simpa [Instr.wf, baudInRange] using hw
  cases hsel : select s.cfg.baudLut baud with
  | none => exact .error .eBaudUnsupported (by simp [Instr.errors]) (by simpa [criticalSection, hsel] using hs.symm)
  | some x =>
    obtain ⟨div, dbl⟩ := x
    by_cases hc : s.cfg.policy = .reject ∧ 0 < d.tx.count
    · exact .error .eTxBusy (by simp [Instr.errors]) (by simpa [criticalSection, hsel, hc] using hs.symm)
    · have : t = (s.setPort i (configurePort (s.port i) d { baud := baud, stop := stb, parity := par } div dbl)).answer
          replyOk := by
        simp only [criticalSection, State.setI_cfg, hsel, hc, if_false, Reaction.ok_eq, State.port_setI,
          State.setPort_setI, Reaction.map_reply, State.setI_setI, State.setPort_setI_self, settle_reply] at hs
        exact (Host.Outcome.next.inj hs).symm
      exact .effect (this ▸ .configure i par stb baud d div dbl hp hr hb hsel hc)

theorem execWrite_ended {i : Idx} {bytes : List Byte} {s t : State} (h : execWrite i bytes s = .next t) :
    s.fault = none ∧ Ended s (.write i bytes) t := by
  refine foreground_ended h (fun _ hs => perDriver_ended hs (fun d hp hr hs => ?_))
  cases hx : ringPushMany d.tx bytes with
  | error e => simp only [criticalSection, hx, slotFault_map] at hs; exact slotFault_ended hs
  | ok x =>
    obtain ⟨k, tx⟩ := x
    simp only [criticalSection, hx, Reaction.map_quiet, settle_quiet] at hs
    exact .effect (Host.Outcome.next.inj hs ▸ .write i bytes d k tx hp hr hx)

theorem execRead_ended {i : Idx} {len : Nat} {s t : State} (h : execRead i len s = .next t) :
    s.fault = none ∧ Ended s (.read i len) t := by
  refine foreground_ended h (fun _ hs => perDriver_ended hs (fun d hp hr hs => ?_))
  cases hx : ringPopMany d.rx (min len d.rx.count) with
  | error e => simp only [criticalSection, hx, slotFault_map] at hs; exact slotFault_ended hs
  | ok x =>
    obtain ⟨out, rx⟩ := x
    simp only [criticalSection, hx, Reaction.ok_eq, Reaction.map_reply, settle_reply] at hs
    exact .effect (Host.Outcome.next.inj hs ▸ .read i len d out rx hp hr hx)

theorem execFlush_ended {i : Idx} {s t : State} (h : execFlush i s = .next t) :
    s.fault = none ∧ Ended s (.flush i) t := by
  refine foreground_ended h (fun _ hs => perDriver_ended hs (fun d hp hr hs => ?_))
  rcases flushBody_cases i d ⟨.ok, .empty⟩ s with ⟨e, hx⟩ | ⟨b, tx, hc, hpop, hx⟩ | ⟨hc, hx⟩
  · rw [hx] at hs; exact slotFault_ended hs
  · rw [hx] at hs; exact .effect (Host.Outcome.next.inj hs ▸ .flushSent i d b tx hp hr hc hpop)
  · rw [hx] at hs; exact .effect (Host.Outcome.next.inj hs ▸ .flushEmpty i d hp hr hc)

theorem execOvfRead_ended {i : Idx} {s t : State} (h : execOvfRead i s = .next t) :
    s.fault = none ∧ Ended s (.ovfRead i) t := by
  refine foreground_ended h (fun _ hs => perDriver_ended hs (fun d hp hr hs => ?_))
  exact .effect (Host.Outcome.next.inj hs ▸ .ovfRead i d hp hr)

theorem execOvfClear_ended {i : Idx} {s t : State} (h : execOvfClear i s = .next t) :
    s.fault = none ∧ Ended s (.ovfClear i) t := by
  refine foreground_ended h (fun _ hs => perDriver_ended hs (fun d hp hr hs => ?_))
  exact .effect (Host.Outcome.next.inj hs ▸ .ovfClear i d hp hr)

theorem execBadRead_ended {i : Idx} {s t : State} (h : execBadRead i s = .next t) :
    s.fault = none ∧ Ended s (.badRead i) t := by
  refine foreground_ended h (fun _ hs => perDriver_ended hs (fun d hp hr hs => ?_))
  exact .effect (Host.Outcome.next.inj hs ▸ .badRead i d hp hr)

theorem execCsEnter_ended {s t : State} (h : execCsEnter s = .next t) : s.fault = none ∧ Ended s .csEnter t :=
  foreground_ended h (fun _ hs => .effect (Host.Outcome.next.inj hs ▸ .csEnter))

theorem execCsExit_ended {s t : State} (h : execCsExit s = .next t) : s.fault = none ∧ Ended s .csExit t := by
  refine foreground_ended h (fun _ hs => ?_)
  split at hs
  · exact .raised _ (by simpa using hs.symm)
  · rename_i v hv
    exact .effect (Host.Outcome.next.inj hs ▸ .csExit v hv)

theorem execRbPush_ended {i : Idx} {sel : RingSel} {b : Nat} {s t : State} (h : execRbPush i sel b s = .next t) :
    s.fault = none ∧ Ended s (.rbPush i sel b) t := by
  refine foreground_ended h (fun _ hs => guardedRing_ended hs (fun d hp hr hI hs => ?_))
  split at hs
  · exact .raised _ (by simpa using hs.symm)
  · rename_i hc
    cases hx : ringPush (d.ring sel) (BitVec.ofNat 8 b) with
    | error e => rw [hx] at hs; exact slotFault_ended hs
    | ok r =>
      rw [hx] at hs
      exact .effect (Host.Outcome.next.inj hs ▸ .rbPush i sel b d r hp hr hI hc hx)

theorem execRbPop_ended {i : Idx} {sel : RingSel} {s t : State} (h : execRbPop i sel s = .next t) :
    s.fault = none ∧ Ended s (.rbPop i sel) t := by
  refine foreground_ended h (fun _ hs => guardedRing_ended hs (fun d hp hr hI hs => ?_))
  split at hs
  · exact .raised _ (by simpa using hs.symm)
  · rename_i hc
    cases hx : ringPop (d.ring sel) with
    | error e => rw [hx] at hs; exact slotFault_ended hs
    | ok x =>
      obtain ⟨b, r⟩ := x
      rw [hx] at hs
      exact .effect (Host.Outcome.next.inj hs ▸ .rbPop i sel d b r hp hr hI hc hx)

theorem execRbFull_ended {i : Idx} {sel : RingSel} {s t : State} (h : execRbFull i sel s = .next t) :
    s.fault = none ∧ Ended s (.rbFull i sel) t :=
  foreground_ended h (fun _ hs => guardedRing_ended hs (fun d hp hr hI hs =>
    .effect (Host.Outcome.next.inj hs ▸ .rbFull i sel d hp hr hI)))

theorem execRbEmpty_ended {i : Idx} {sel : RingSel} {s t : State} (h : execRbEmpty i sel s = .next t) :
    s.fault = none ∧ Ended s (.rbEmpty i sel) t :=
  foreground_ended h (fun _ hs => guardedRing_ended hs (fun d hp hr hI hs =>
    .effect (Host.Outcome.next.inj hs ▸ .rbEmpty i sel d hp hr hI)))

theorem execRbSize_ended {i : Idx} {sel : RingSel} {s t : State} (h : execRbSize i sel s = .next t) :
    s.fault = none ∧ Ended s (.rbSize i sel) t :=
  foreground_ended h (fun _ hs => guardedRing_ended hs (fun d hp hr hI hs =>
    .effect (Host.Outcome.next.inj hs ▸ .rbSize i sel d hp hr hI)))

theorem execRbCapacity_ended {i : Idx} {sel : RingSel} {s t : State} (h : execRbCapacity i sel s = .next t) :
    s.fault = none ∧ Ended s (.rbCapacity i sel) t :=
  foreground_ended h (fun _ hs => guardedRing_ended hs (fun d hp hr hI hs =>
    .effect (Host.Outcome.next.inj hs ▸ .rbCapacity i sel d hp hr hI)))

theorem execBaudSelect_ended {baud : Nat} {s t : State} (h : execBaudSelect baud s = .next t) :
    s.fault = none ∧ Ended s (.baudSelect baud) t := by
  refine foreground_ended h (fun _ hs => ?_)
  split at hs <;> exact .effect (Host.Outcome.next.inj hs ▸ .baudSelect baud _ _ _)

theorem deliver_ended {c : Bool} {body : State → Reaction} {s t : State} {ins : Instr} (hi : ins.isEvent = true)
    (h : deliver c body s = .next t)
    (hb : c = true → settle s (handler body s) = .next t → Ended s ins t) : s.fault = none ∧ Ended s ins t := by
  unfold deliver at h
  split at h
  · simp at h
  · rename_i hf
    refine ⟨by simpa using hf, ?_⟩
    split at h
    · exact hb ‹_› h
    · exact .idle hi (Host.Outcome.next.inj h).symm

theorem execEvRxc_ended {i : Idx} {s t : State} (h : execEvRxc i s = .next t) :
    s.fault = none ∧ Ended s (.evRxc i) t := by
  refine deliver_ended rfl h (fun hc hs => ?_)
  have hI : s.I = true := by simp [rxcDeliverable] at hc; exact hc.1.1.2
  simp only [handler, rxcBody, rxdRead, State.handlerEntry_eq, State.port_setI] at hs
  cases hb : (s.port i).rxHold with
  | none => simp [rxcDeliverable, Port.rxcPending, hb] at hc
  | some b =>
    simp only [hb, State.setPort_setI, State.port_setI, State.port_setPort_same] at hs
    have htaken : s.setPort i { s.port i with rxHold := none } = rxcTaken s i := rfl
    rw [htaken] at hs
    cases hr : (s.port i).reg with
    | none =>
      simp only [hr, Reaction.map_quiet, settle_quiet, State.handlerReturn_eq, State.setI_setI] at hs
      rw [State.setI_eq_self (by simpa [rxcTaken] using hI)] at hs
      exact .effect (Host.Outcome.next.inj hs ▸ .rxcDiscard i b hc hb hr)
    | some d =>
      simp only [hr] at hs
      cases hx : ringPushOverwrite d.rx b with
      | error e => simp only [hx, slotFault_map] at hs; exact slotFault_ended hs
      | ok x =>
        obtain ⟨ev, rx⟩ := x
        simp only [hx, Reaction.map_quiet, settle_quiet, State.handlerReturn_eq, State.setReg_setI,
          State.setI_setI] at hs
        rw [State.setI_eq_self (by simpa [rxcTaken] using hI)] at hs
        exact .effect (Host.Outcome.next.inj hs ▸ .rxcStore i b d ev rx hc hb hr hx)

theorem execEvUdre_ended {i : Idx} {s t : State} (h : execEvUdre i s = .next t) :
    s.fault = none ∧ Ended s (.evUdre i) t := by
  refine deliver_ended rfl h (fun hc hs => ?_)
  have hI : s.I = true := by simp [udreDeliverable] at hc; exact hc.1.1.2
  have key : settle s (handler (fun u => .quiet (u.setUdrie i false)) s) = .next t →
      t = s.setUdrie i false := by
    intro hs
    simp only [handler, State.handlerEntry_eq, Reaction.map_quiet, settle_quiet, State.handlerReturn_eq,
      State.setUdrie_setI, State.setI_setI] at hs
    rw [State.setI_eq_self (by simpa using hI)] at hs
    exact (Host.Outcome.next.inj hs).symm
  simp only [handler, udreBody, State.handlerEntry_eq, State.port_setI] at hs
  cases hr : (s.port i).reg with
  | none =>
    simp only [hr] at hs
    exact .effect (key hs ▸ .udreDisable i hc (by simp [hr]))
  | some d =>
    simp only [hr] at hs
    by_cases hn : 0 < d.tx.count
    · simp only [hn, if_true] at hs
      cases hx : ringPop d.tx with
      | error e => simp only [hx, slotFault_map] at hs; exact slotFault_ended hs
      | ok x =>
        obtain ⟨b, tx⟩ := x
        simp only [hx, Reaction.map_quiet, settle_quiet, State.handlerReturn_eq, State.setReg_setI, txdWrite_setI,
          State.setI_setI] at hs
        rw [State.setI_eq_self (by simpa using hI)] at hs
        exact .effect (Host.Outcome.next.inj hs ▸ .udreSend i d b tx hc hr hn hx)
    · simp only [hn, if_false] at hs
      refine .effect (key hs ▸ .udreDisable i hc (fun e he => ?_))
      rw [hr] at he; cases he; omega

/-- What an instruction can do. -/
theorem exec_ended {i : Instr} {s t : State} (h : exec i s = .next t) : s.fault = none ∧ Ended s i t := by
  cases i with
  | construct i nRx nTx => exact execConstruct_ended h
  | destruct i => exact execDestruct_ended h
  | configure i par stb baud => exact execConfigure_ended h
  | write i bytes => exact execWrite_ended h
  | read i len => exact execRead_ended h
  | flush i => exact execFlush_ended h
  | ovfRead i => exact execOvfRead_ended h
  | ovfClear i => exact execOvfClear_ended h
  | badRead i => exact execBadRead_ended h
  | csEnter => exact execCsEnter_ended h
  | csExit => exact execCsExit_ended h
  | rbPush i sel b => exact execRbPush_ended h
  | rbPop i sel => exact execRbPop_ended h
  | rbFull i sel => exact execRbFull_ended h
  | rbEmpty i sel => exact execRbEmpty_ended h
  | rbSize i sel => exact execRbSize_ended h
  | rbCapacity i sel => exact execRbCapacity_ended h
  | baudSelect baud => exact execBaudSelect_ended h
  | evRxc i => exact execEvRxc_ended h
  | evUdre i => exact execEvUdre_ended h

end Sys2Proof.Machine
end

