-- ==== Sys2Proof/Laws/Step.lean ====
section
/-! SUPPORT. What one step can do, said once: which turn it took and how that turn ended. -/

namespace Sys2Proof.Machine

/-- All that WRITE's second phase can end in. -/
theorem writePhase2_next {p : PendingWrite} {s t : State} (h : writePhase2 p s = .next t) :
    (∃ f, t = s.raise f) ∨
      (∃ d b tx, (s.port p.idx).reg = some d ∧ 0 < d.tx.count ∧ ringPop d.tx = .ok (b, tx) ∧
        t = (flushSent (s.setPending none) p.idx d b tx).answerOk (.written p.written)) ∨
      (∃ d, (s.port p.idx).reg = some d ∧ d.tx.count = 0 ∧
        t = ((s.setPending none).setUdrie p.idx false).answerOk (.written p.written)) := by
  unfold writePhase2 at h
  cases hr : (s.port p.idx).reg with
  | none => simp [hr] at h
  | some d =>
    simp only [hr] at h
    rcases flushBody_cases p.idx d ⟨.ok, .written p.written⟩ (s.setPending none) with
      ⟨e, hx⟩ | ⟨b, tx, hc, hpop, hx⟩ | ⟨hc, hx⟩
    · rw [hx] at h
      exact .inl (settle_slotFault_next h)
    · rw [hx] at h
      exact .inr (.inl ⟨d, b, tx, rfl, hc, hpop, (Host.Outcome.next.inj h).symm⟩)
    · rw [hx] at h
      exact .inr (.inr ⟨d, rfl, hc, (Host.Outcome.next.inj h).symm⟩)

/-- How a step that answers a next state can have ended. Each turn is taken off the schedule. -/
inductive Stepped (s t : State) : Prop where
  /-- no turn left: the block waits -/
  | wait : s.fault = none → s.sched = [] → t = s → Stepped s t
  /-- a turn that names no step of its agent -/
  | idle (turn : Turn) (turns : List Turn) : turn ≠ .reset → s.fault = none → s.sched = turn :: turns →
      t = s.setSched turns → Stepped s t
  /-- an illegal word was issued (R74, R75) -/
  | illegal (w : Word) (o : Operands) (rest : List Command) (turns : List Turn) : s.Issues w o rest turns →
      t = ((s.setSched turns).setProgram rest).raise (.illegalCommand w) → Stepped s t
  /-- the foreground issued a command -/
  | command (w : Word) (o : Operands) (rest : List Command) (turns : List Turn) (i : Instr) :
      s.Issues w o rest turns → decode w o = .ok i → i.isEvent = false →
      exec i ((s.setSched turns).setProgram rest) = .next t → Stepped s t
  /-- the second phase of a WRITE -/
  | phase2 (p : PendingWrite) (turns : List Turn) : s.fault = none → s.pending = some p →
      s.sched = .foreground :: turns → writePhase2 p (s.setSched turns) = .next t → Stepped s t
  /-- the dispatcher took an event record -/
  | event (w : Word) (turns : List Turn) (i : Instr) : s.fault = none → s.sched = .dispatch w :: turns →
      decode w .zero = .ok i → i.isEvent = true → exec i (s.setSched turns) = .next t → Stepped s t
  /-- RX_ARRIVE -/
  | rxArrive (i : Idx) (b : Byte) (turns : List Turn) : s.fault = none → s.sched = .rxArrive i b :: turns →
      t = rxArrive i b (s.setSched turns) → Stepped s t
  /-- TX_DRAIN -/
  | txDrain (i : Idx) (turns : List Turn) : s.fault = none → s.sched = .txDrain i :: turns →
      t = txDrain i (s.setSched turns) → Stepped s t
  /-- HW_FAULT -/
  | hwFault (i : Idx) (turns : List Turn) : s.fault = none → s.sched = .hwFault i :: turns →
      t = hwFault i (s.setSched turns) → Stepped s t
  /-- the reset event -/
  | reset (turns : List Turn) : s.sched = .reset :: turns → t = resetEvent (s.setSched turns) → Stepped s t

/-- What a step can do. -/
theorem step_next {s t : State} (h : step s = .next t) : Stepped s t := by
  unfold step takeTurn at h
  cases hs : s.sched with
  | nil =>
    rw [hs] at h
    simp only at h
    split at h
    · simp at h
    · rename_i hf
      exact .wait (by simpa using hf) hs (Host.Outcome.next.inj h).symm
  | cons turn rest =>
    rw [hs] at h
    simp only at h
    split at h
    · simp at h
    · rename_i hh
      have hf : turn ≠ .reset → s.fault = none := by
        intro hr
        cases hfl : s.fault with
        | none => rfl
        | some f => exact absurd ⟨by simp [hfl], hr⟩ hh
      cases turn with
      | foreground =>
        have hf := hf (by simp)
        simp only [turnStep, foregroundTurn, State.setSched_pending, State.setSched_program] at h
        cases hp : s.pending with
        | some p => rw [hp] at h; exact .phase2 p rest hf hp hs h
        | none =>
          rw [hp] at h
          cases hg : s.program with
          | nil => rw [hg] at h; exact .idle _ rest (by simp) hf hs (Host.Outcome.next.inj h).symm
          | cons c more =>
            rw [hg] at h
            simp only [issue] at h
            have hi : s.Issues c.word c.operands more rest := ⟨hf, hp, hg, hs⟩
            cases hd : decode c.word c.operands with
            | error e =>
              rw [hd] at h
              exact .illegal _ _ _ _ hi (Host.Outcome.next.inj h).symm
            | ok i =>
              rw [hd] at h
              simp only at h
              split at h
              · exact .illegal _ _ _ _ hi (Host.Outcome.next.inj h).symm
              · rename_i he
                exact .command _ _ _ _ i hi hd (by simpa using he) h
      | dispatch w =>
        have hf := hf (by simp)
        simp only [turnStep, dispatchTurn] at h
        cases hd : decode w .zero with
        | error e => rw [hd] at h; exact .idle _ rest (by simp) hf hs (Host.Outcome.next.inj h).symm
        | ok i =>
          rw [hd] at h
          simp only at h
          split at h
          · exact .event w rest i hf hs hd ‹_› h
          · exact .idle _ rest (by simp) hf hs (Host.Outcome.next.inj h).symm
      | rxArrive i b => exact .rxArrive i b rest (hf (by simp)) hs (Host.Outcome.next.inj h).symm
      | txDrain i => exact .txDrain i rest (hf (by simp)) hs (Host.Outcome.next.inj h).symm
      | hwFault i => exact .hwFault i rest (hf (by simp)) hs (Host.Outcome.next.inj h).symm
      | reset => exact .reset rest hs (Host.Outcome.next.inj h).symm

/-- A run of several steps of a machine takes its first step, then the others. -/
theorem run_succ_of_step {M : Host.Core} {k : Nat} {s t : M.State} (h : M.step s = .next t) :
    M.run (k + 1) s = M.run k t := by
  simp only [Host.Core.run, h]

/-- The same for the block's own step. -/
theorem run_succ {k : Nat} {s t : State} (h : step s = .next t) :
    Host.Core.run Sys2Proof.core (k + 1) s = Host.Core.run Sys2Proof.core k t :=
  run_succ_of_step (M := Sys2Proof.core) h

/-- What an arrival can do (R172 a). -/
theorem rxArrive_cases (i : Idx) (b : Byte) (s : State) :
    rxArrive i b s = s ∨
      (s.present i ∧ (rxArrive i b s = s.draw ∨
        rxArrive i b s = s.setPort i { s.port i with rxHold := some b } ∨
        rxArrive i b s = (s.setPort i { s.port i with rxHold := some b }).draw)) := by
  unfold rxArrive
  split
  · rename_i hp
    refine .inr ⟨hp.1, ?_⟩
    split
    · exact .inr (.inl rfl)
    · split
      · exact .inr (.inr rfl)
      · exact .inl rfl
  · exact .inl rfl

/-- What a drain can do (R174): the transmit register becomes empty and the line gains its byte or nothing. -/
theorem txDrain_cases (i : Idx) (s : State) :
    txDrain i s = s ∨
      (s.present i ∧ ∃ l, (l = (s.port i).lineOut ∨ l = (s.port i).lineOut ++ [(s.port i).txdReg]) ∧
        (txDrain i s = s.setPort i { s.port i with lineOut := l, txdEmpty := true } ∨
         txDrain i s = (s.setPort i { s.port i with lineOut := l, txdEmpty := true }).draw)) := by
  unfold txDrain
  simp only
  split
  · rename_i hp
    refine .inr ⟨hp.1, ?_⟩
    split
    · exact ⟨_, .inr rfl, .inl rfl⟩
    · split
      · exact ⟨_, .inr rfl, .inr rfl⟩
      · exact ⟨_, .inl rfl, .inr rfl⟩
  · exact .inl rfl

/-- What a hardware fault can do (R178). -/
theorem hwFault_cases (i : Idx) (s : State) :
    hwFault i s = s ∨
      (∃ d, s.present i ∧ s.cfg.badSource = true ∧ (s.port i).reg = some d ∧
        hwFault i s = s.setReg i (some { d with bad := true })) := by
  unfold hwFault
  split
  · rename_i hp
    split
    · exact .inl rfl
    · rename_i d hr
      exact .inr ⟨d, hp.1, hp.2, hr, rfl⟩
  · exact .inl rfl

end Sys2Proof.Machine
end

