-- ==== Sys2Proof/Laws/Frame.lean ====
section
/-! SUPPORT. What each kind of step leaves unchanged: the parameters, the save stack, I, other indices, ring slots; the
slots the ring loops write; how the invariant passes from a state to one that differs at one index. -/

namespace Sys2Proof.Machine

/-! ### Ring slots of a state (20_memory.md R50, R51) -/

theorem State.slot_setPort (s : State) (i j : Idx) (p : Port) (sel : RingSel) (k : Nat) :
    (s.setPort i p).slot j sel k =
      if j = i then p.reg.bind (fun d => (d.ring sel).store.read k) else s.slot j sel k := by
  unfold State.slot
  by_cases h : j = i
  · subst h; simp
  · simp [h]

@[simp] theorem State.slot_answer (s : State) (r : Reply) (j : Idx) (sel : RingSel) (k : Nat) :
    (s.answer r).slot j sel k = s.slot j sel k := rfl
@[simp] theorem State.slot_setPending (s : State) (v : Option PendingWrite) (j : Idx) (sel : RingSel) (k : Nat) :
    (s.setPending v).slot j sel k = s.slot j sel k := rfl

/-- Where the drivers' storages agree, so do the slots. -/
theorem State.slot_congr {s t : State} {j : Idx} {sel : RingSel} {k : Nat}
    (h : (t.port j).reg.map (fun d => (d.ring sel).store) = (s.port j).reg.map (fun d => (d.ring sel).store)) :
    t.slot j sel k = s.slot j sel k := by
  unfold State.slot
  cases h1 : (t.port j).reg <;> cases h2 : (s.port j).reg <;> simp_all

/-! ### The slots the ring loops touch -/

/-- WRITE's loop writes the slots from the tail on, one per byte, and no other. -/
theorem ringPushMany_slots {r r' : Ring} {bs : List Byte} {k : Nat} (h : r.Ok) (hm : ringPushMany r bs = .ok (k, r')) :
    (∀ m < k, r'.store.read ((r.tail + m) % r.N) = bs[m]?) ∧
      (∀ x, (∀ m < k, x ≠ (r.tail + m) % r.N) → r'.store.read x = r.store.read x) ∧
      r'.count = r.count + k ∧ r.count + k ≤ r.N := by
  induction bs generalizing r r' k with
  | nil =>
    simp only [ringPushMany, Except.ok.injEq, Prod.mk.injEq] at hm
    obtain ⟨rfl, rfl⟩ := hm
    have := h.2.1
    simpa using this
  | cons b bs ih =>
    by_cases hc : r.count < r.N
    · obtain ⟨r₁, hp, hok, hcon, hN1, hh1, ht1, hc1, hs1⟩ := ringPush_ok h hc b
      simp only [ringPushMany, hc, if_true, hp] at hm
      cases hx : ringPushMany r₁ bs with
      | error e => rw [hx] at hm; cases hm
      | ok x =>
        obtain ⟨k1, r2⟩ := x
        rw [hx] at hm
        simp only [Except.ok.injEq, Prod.mk.injEq] at hm
        obtain ⟨rfl, rfl⟩ := hm
        obtain ⟨i1, i2, i3, i4⟩ := ih hok hx
        have htl := h.2.2.1.2
        have hshift : ∀ m, (r₁.tail + m) % r₁.N = (r.tail + (m + 1)) % r.N := by
          intro m; rw [ht1, hN1, Nat.mod_add_mod]; congr 1; omega
        have hsep : ∀ m, m < k1 → (r.tail + 0) % r.N ≠ (r.tail + (m + 1)) % r.N := by
          intro m hm
          rw [mod_below_two (by omega), mod_below_two (by omega)]
          split <;> split <;> omega
        refine ⟨?_, ?_, by omega, by omega⟩
        · intro m hm
          cases m with
          | zero =>
            rw [i2 _ (fun m hm => by rw [hshift]; exact hsep m hm), hs1]
            simp [Nat.mod_eq_of_lt htl]
          | succ m => rw [← hshift, i1 m (by omega)]; simp
        · intro x hx2
          rw [i2 x (fun m hm => by rw [hshift]; exact hx2 (m + 1) (by omega)), hs1]
          have := hx2 0 (by omega)
          rw [Nat.add_zero, Nat.mod_eq_of_lt htl] at this
          rw [Memory.read_write_ne _ _ this]
    · simp only [ringPushMany, hc, if_false, Except.ok.injEq, Prod.mk.injEq] at hm
      obtain ⟨rfl, rfl⟩ := hm
      have := h.2.1
      simpa using this

/-- READ's loop writes no slot. -/
theorem ringPopMany_store {r r' : Ring} {k : Nat} {out : List Byte} (h : ringPopMany r k = .ok (out, r')) :
    r'.store = r.store := by
  induction k generalizing r out with
  | zero =>
    simp only [ringPopMany, Except.ok.injEq, Prod.mk.injEq] at h
    rw [← h.2]
  | succ k ih =>
    simp only [ringPopMany] at h
    cases hp : ringPop r with
    | error e => rw [hp] at h; cases h
    | ok x =>
      obtain ⟨b, r1⟩ := x
      rw [hp] at h
      simp only at h
      cases hm : ringPopMany r1 k with
      | error e => rw [hm] at h; cases h
      | ok y =>
        obtain ⟨bs, r2⟩ := y
        rw [hm] at h
        simp only [Except.ok.injEq, Prod.mk.injEq] at h
        obtain ⟨-, rfl⟩ := h
        rw [ih hm, (ringPop_inv hp).2.2]

/-! ### The LUT -/

/-- A match is an entry of the table. -/
theorem mem_of_select {lut : List LutEntry} {baud div : Nat} {dbl : Bool} (h : select lut baud = some (div, dbl)) :
    ⟨baud, div, dbl⟩ ∈ lut := by
  induction lut with
  | nil => simp [select] at h
  | cons e es ih =>
    simp only [select] at h
    split at h
    · rename_i he
      simp only [Option.some.injEq, Prod.mk.injEq] at h
      obtain ⟨rfl, rfl⟩ := h
      subst he
      simp
    · exact List.mem_cons_of_mem _ (ih h)

/-- The divisor of a built instance fits DIV (R108). -/
theorem select_divisor_lt (c : Config) {baud div : Nat} {dbl : Bool} (h : select c.baudLut baud = some (div, dbl)) :
    div < 2 ^ divW := by
  have hm := mem_of_select h
  have hp := c.ok
  simp only [Params.wf, Bool.and_eq_true, decide_eq_true_eq, List.all_eq_true] at hp
  exact (hp.1.2 _ hm).1

/-! ### Frames of an instruction's effect -/

/-- The state the flush body leaves, as one update of its index and a transmit write. -/
theorem flushSent_eq (s : State) (i : Idx) (d : Driver) (b : Byte) (tx : Ring) :
    flushSent s i d b tx =
      txdWrite i b (s.setPort i { s.port i with
        reg := some { d with tx := tx }
        ctrlB := { (s.port i).ctrlB with udrie := true } }) := by
  simp [flushSent, State.setUdrie, State.setReg]

/-- The index after a flush that sends. -/
theorem port_flushSent (s : State) (i : Idx) (d : Driver) (b : Byte) (tx : Ring) :
    ∃ v, (flushSent s i d b tx).port i = { s.port i with
      reg := some { d with tx := tx }
      ctrlB := { (s.port i).ctrlB with udrie := true }
      txdReg := v
      txdEmpty := false } := by
  obtain ⟨v, hv, -, -⟩ := port_txdWrite_same i b (s.setPort i { s.port i with
    reg := some { d with tx := tx }
    ctrlB := { (s.port i).ctrlB with udrie := true } })
  exact ⟨v, by rw [flushSent_eq, hv]; simp⟩

/-- An effect stays at its own index (R66). -/
theorem Effect.port_ne {s t : State} {ins : Instr} (h : Effect s ins t) {j : Idx} (hj : ins.idx? ≠ some j) :
    t.port j = s.port j := by
  cases h
  all_goals first
    | rfl
    | (have hj : j ≠ _ := fun e => hj (congrArg some e.symm)
       simp [hj, rxcTaken, Machine.flushSent])

theorem Effect.cfg {s t : State} {ins : Instr} (h : Effect s ins t) : t.cfg = s.cfg := by
  cases h <;> simp [rxcTaken, Machine.flushSent]

theorem Effect.fault {s t : State} {ins : Instr} (h : Effect s ins t) : t.fault = s.fault := by
  cases h <;> simp [rxcTaken, Machine.flushSent]

/-- Only CS_ENTER, CS_EXIT and CONSTRUCT change I. -/
theorem Effect.I {s t : State} {ins : Instr} (h : Effect s ins t) :
    t.I = s.I ∨ ins = .csEnter ∨ ins = .csExit ∨ ∃ i nRx nTx, ins = .construct i nRx nTx := by
  cases h <;> simp [rxcTaken, Machine.flushSent]

/-- Only CS_ENTER and CS_EXIT change the save stack. -/
theorem Effect.csStack {s t : State} {ins : Instr} (h : Effect s ins t) :
    (t.csStack = s.csStack ∧ ins ≠ .csEnter ∧ ins ≠ .csExit) ∨
      (ins = .csEnter ∧ t.csStack = s.csStack ++ [s.I] ∧ t.I = false) ∨
      (ins = .csExit ∧ s.csStack = t.csStack ++ [t.I]) := by
  cases h with
  | csExit v h =>
    refine .inr (.inr ⟨rfl, ?_⟩)
    have hne : s.csStack ≠ [] := by intro h0; simp [h0] at h
    have := List.dropLast_concat_getLast hne
    rw [List.getLast?_eq_some_getLast hne, Option.some.injEq] at h
    rw [h] at this
    simpa using this.symm
  | csEnter => exact .inr (.inl ⟨rfl, rfl, rfl⟩)
  | _ => exact .inl (by simp [rxcTaken, Machine.flushSent])

/-- An instruction keeps the parameters. -/
theorem exec_cfg {s t : State} {ins : Instr} (h : exec ins s = .next t) : t.cfg = s.cfg := by
  obtain ⟨-, h⟩ := exec_ended h
  cases h with
  | idle _ h => rw [h]
  | raised f h => rw [h]; rfl
  | error e _ h => rw [h]; rfl
  | effect h => exact h.cfg

/-! ### Frames of the other steps -/

/-- What WRITE's second phase can end in, index by index. -/
theorem writePhase2_ports {p : PendingWrite} {s t : State} (h : writePhase2 p s = .next t) :
    (∃ f, t = s.raise f) ∨
      (∃ d b tx v, (s.port p.idx).reg = some d ∧ 0 < d.tx.count ∧ ringPop d.tx = .ok (b, tx) ∧
        t.port p.idx = { s.port p.idx with
          reg := some { d with tx := tx }
          ctrlB := { (s.port p.idx).ctrlB with udrie := true }
          txdReg := v
          txdEmpty := false } ∧
        (∀ j, j ≠ p.idx → t.port j = s.port j) ∧ t.pending = none) ∨
      (∃ d, (s.port p.idx).reg = some d ∧ d.tx.count = 0 ∧
        t.port p.idx = { s.port p.idx with ctrlB := { (s.port p.idx).ctrlB with udrie := false } } ∧
        (∀ j, j ≠ p.idx → t.port j = s.port j) ∧ t.pending = none) := by
  rcases writePhase2_next h with ⟨f, h⟩ | ⟨d, b, tx, h1, h2, h3, h⟩ | ⟨d, h1, h2, h⟩
  · exact .inl ⟨f, h⟩
  · obtain ⟨v, hv⟩ := port_flushSent (s.setPending none) p.idx d b tx
    refine .inr (.inl ⟨d, b, tx, v, h1, h2, h3, ?_, fun j hj => ?_, ?_⟩)
    · rw [h, State.answerOk, State.port_answer, hv]; simp
    · rw [h, State.answerOk, State.port_answer, flushSent_eq]; simp [hj]
    · rw [h, flushSent_eq]; simp
  · refine .inr (.inr ⟨d, h1, h2, ?_, fun j hj => ?_, ?_⟩)
    · rw [h, State.answerOk, State.port_answer]; simp
    · rw [h, State.answerOk, State.port_answer]; simp [hj]
    · rw [h]; simp

theorem writePhase2_frame {p : PendingWrite} {s t : State} (h : writePhase2 p s = .next t) :
    t.csStack = s.csStack ∧ t.I = s.I ∧ t.cfg = s.cfg := by
  rcases writePhase2_next h with ⟨f, h⟩ | ⟨d, b, tx, -, -, -, h⟩ | ⟨d, -, -, h⟩ <;> subst h <;> simp [flushSent]

theorem rxArrive_frame (i : Idx) (b : Byte) (s : State) :
    (rxArrive i b s).csStack = s.csStack ∧ (rxArrive i b s).I = s.I ∧ (rxArrive i b s).cfg = s.cfg := by
  rcases rxArrive_cases i b s with h | ⟨-, h | h | h⟩ <;> rw [h] <;> simp

theorem txDrain_frame (i : Idx) (s : State) :
    (txDrain i s).csStack = s.csStack ∧ (txDrain i s).I = s.I ∧ (txDrain i s).cfg = s.cfg := by
  rcases txDrain_cases i s with h | ⟨-, l, -, h | h⟩ <;> rw [h] <;> simp

theorem hwFault_frame (i : Idx) (s : State) :
    (hwFault i s).csStack = s.csStack ∧ (hwFault i s).I = s.I ∧ (hwFault i s).cfg = s.cfg := by
  rcases hwFault_cases i s with h | ⟨d, -, -, -, h⟩ <;> rw [h] <;> simp

/-- Every index is at its reset value after a reset (R185). -/
@[simp] theorem port_resetEvent (s : State) (i : Idx) : (resetEvent s).port i = Port.reset := by
  have h : (resetEvent s).port i = (State.resetWith s.cfg).port i := rfl
  rw [h, State.port_resetWith]

/-- A step whose turn is a reset is the reset event. -/
theorem step_resets {s t : State} (h : step s = .next t) (hr : s.resets) :
    ∃ turns, t = resetEvent (s.setSched turns) := by
  cases step_next h with
  | reset turns _ h => exact ⟨turns, h⟩
  | idle _ _ hne _ hs h => simp [State.resets, hs] at hr; exact absurd hr hne
  | wait _ hs h => simp [State.resets, hs] at hr
  | illegal _ _ _ _ hi h => simp [State.resets, hi.2.2.2] at hr
  | command _ _ _ _ _ hi _ _ _ => simp [State.resets, hi.2.2.2] at hr
  | phase2 _ _ _ _ hs _ => simp [State.resets, hs] at hr
  | event _ _ _ _ hs _ _ _ => simp [State.resets, hs] at hr
  | rxArrive _ _ _ _ hs _ => simp [State.resets, hs] at hr
  | txDrain _ _ _ hs _ => simp [State.resets, hs] at hr
  | hwFault _ _ _ hs _ => simp [State.resets, hs] at hr

/-! ### How the invariant passes on -/

/-- The invariant reads the parameters, the indices and the pending WRITE only. -/
theorem State.Inv.of_same {s t : State} (hs : s.Inv) (hc : t.cfg = s.cfg) (hn : ∀ j, t.port j = s.port j)
    (hp : t.pending = s.pending) : t.Inv := by
  refine ⟨fun j => by rw [hn, hc]; exact hs.1 j, fun j hj => ?_, fun p hpp => ?_⟩
  · rw [hn]; exact hs.2.1 j (by simpa [State.present, hc] using hj)
  · rw [hp] at hpp
    have := hs.2.2 p hpp
    rw [hn]
    exact ⟨by simpa [State.present, hc] using this.1, this.2⟩

/-- A step that changes one existing index keeps the invariant if that index is sound after it. -/
theorem State.Inv.of_index {s t : State} (i : Idx) (hs : s.Inv) (hp : s.present i) (hc : t.cfg = s.cfg)
    (hn : ∀ j, j ≠ i → t.port j = s.port j) (hok : (t.port i).Ok s.cfg)
    (hpe : ∀ p ∈ t.pending, t.present p.idx ∧ (t.port p.idx).reg.isSome = true) : t.Inv := by
  refine ⟨fun j => ?_, fun j hj => ?_, hpe⟩
  · by_cases h : j = i
    · subst h; rw [hc]; exact hok
    · rw [hn j h, hc]; exact hs.1 j
  · have hj' : ¬ s.present j := by simpa [State.present, hc] using hj
    have : j ≠ i := by rintro rfl; exact hj' hp
    rw [hn j this]; exact hs.2.1 j hj'

/-- An index whose driver is replaced by a sound one with the same settings, and whose UDRIE may change, stays sound. -/
theorem Port.Ok.of_driver {c : Config} {p q : Port} {d d' : Driver} (hp : p.Ok c) (hr : p.reg = some d)
    (hd : d'.Ok c.badSource) (hst : d'.settings = d.settings) (hq : q.reg = some d') (h1 : q.u2x = p.u2x)
    (h2 : q.ctrlC = p.ctrlC) (h3 : q.div = p.div) (h4 : ∃ v, q.ctrlB = { p.ctrlB with udrie := v }) : q.Ok c := by
  obtain ⟨v, h4⟩ := h4
  obtain ⟨a, b, e⟩ := hp
  unfold Port.ImagesOk at b
  unfold Port.EnablesOk at e
  refine ⟨fun x hx => ?_, ?_, ?_⟩
  · rw [hq] at hx; cases hx; exact hd
  · unfold Port.ImagesOk; rw [h2, h4]; exact b
  · rw [hr] at e
    unfold Port.EnablesOk
    rw [h1, h2, h3, h4, hq]
    simp only [Option.bind_some] at e ⊢
    rw [hst]
    exact ⟨by simp, e.2⟩

end Sys2Proof.Machine
end

