-- ==== Sys2Proof/Laws/Fair.lean ====
section
/-! SUPPORT. Runs without an end and fairness: a step that is not enabled does nothing, what fairness gives, and what a
step without a foreground command does to the tx path of an index. -/

namespace Sys2Proof.Machine

@[simp] theorem State.facing_sched (s : State) (τ : Turn) (c : Option Command) : (s.facing τ c).sched = [τ] := rfl
@[simp] theorem State.facing_fault (s : State) (τ : Turn) (c : Option Command) : (s.facing τ c).fault = s.fault := rfl
@[simp] theorem State.facing_pending (s : State) (τ : Turn) (c : Option Command) :
    (s.facing τ c).pending = s.pending := rfl
@[simp] theorem State.facing_program (s : State) (τ : Turn) (c : Option Command) :
    (s.facing τ c).program = c.toList := rfl
@[simp] theorem State.facing_cfg (s : State) (τ : Turn) (c : Option Command) : (s.facing τ c).cfg = s.cfg := rfl
@[simp] theorem State.facing_I (s : State) (τ : Turn) (c : Option Command) : (s.facing τ c).I = s.I := rfl
@[simp] theorem State.port_facing (s : State) (τ : Turn) (c : Option Command) (i : Idx) :
    (s.facing τ c).port i = s.port i := rfl

/-- The record of an event decodes to it (R75). -/
@[simp] theorem decode_record_udre (i : Idx) : decode (encodeWord (.evUdre i)) .zero = .ok (.evUdre i) := by
  simp [encodeWord, decode, Word.op_wordOf, Word.idx_wordOf, decodePlain, Word.sub, Word.field_wordOf]

theorem State.enabled_udre (s : State) (i : Idx) :
    s.enabled (.dispatch (encodeWord (.evUdre i))) = (s.fault.isNone && udreDeliverable i s) := by
  simp [State.enabled]

/-- A turn that is not enabled passes without effect (log 2). -/
theorem step_of_not_enabled {s : State} {τ : Turn} {turns : List Turn} (hf : s.fault = none)
    (hs : s.sched = τ :: turns) (hr : τ ≠ .reset) (he : s.enabled τ = false) : step s = .next (s.setSched turns) := by
  have h : step s = turnStep τ (s.setSched turns) := by simp [step, takeTurn, hs, hf]
  rw [h]
  cases τ with
  | foreground =>
    simp only [State.enabled, hf, Option.isNone_none, Bool.true_and, Bool.or_eq_false_iff, Bool.not_eq_false',
      List.isEmpty_iff, Option.isSome_eq_false_iff, Option.isNone_iff_eq_none] at he
    simp [turnStep, foregroundTurn, he.1, he.2]
  | dispatch w =>
    simp only [turnStep, dispatchTurn]
    cases hd : decode w .zero with
    | error e => rfl
    | ok i =>
      simp only
      split
      · rename_i hi
        simp only [State.enabled, hf, hd, Option.isNone_none, Bool.true_and] at he
        cases i <;> first | cases hi | skip
        · change deliver (rxcDeliverable _ s) _ _ = _
          simp [deliver, hf, he]
        · change deliver (udreDeliverable _ s) _ _ = _
          simp [deliver, hf, he]
      · rfl
  | rxArrive i b => simp [State.enabled, hf] at he; simp only [turnStep, rxArrive]; rw [if_neg (by simpa using he)]
  | txDrain i =>
    simp [State.enabled, hf] at he; simp only [turnStep, txDrain]; rw [if_neg (by simpa using he)]
  | hwFault i =>
    simp [State.enabled, hf] at he
    simp only [turnStep, hwFault]
    split
    · rename_i h; rw [State.port_setSched, he h.1 h.2]
    · rfl
  | reset => exact absurd rfl hr

/-- What fairness gives: from a point where `K` holds, if `K` enables `τ` and each other turn keeps `K`, then `τ` is
taken where `K` holds. -/
theorem FairFor.leads_to {turn : Nat → Turn} {state : Nat → State} {τ : Turn} {K : Nat → Prop} {n : Nat}
    (hfair : FairFor turn state τ) (hn : K n) (hen : ∀ m, K m → (state m).enabled τ = true)
    (hkeep : ∀ m, K m → turn m ≠ τ → K (m + 1)) : ∃ m, n ≤ m ∧ K m ∧ turn m = τ := by
  refine Classical.byContradiction fun hno => ?_
  have hall : ∀ k, K (n + k) := by
    intro k
    induction k with
    | zero => exact hn
    | succ k ih => exact hkeep _ ih (fun h => hno ⟨n + k, by omega, ih, h⟩)
  have hK : ∀ m, n ≤ m → K m := fun m hm => by have := hall (m - n); rwa [show n + (m - n) = m by omega] at this
  obtain ⟨m, hm, ht⟩ := hfair n (fun m hm => hen m (hK m hm))
  exact hno ⟨m, hm, hK m hm, ht⟩

/-- Along a run no block is halted but where the turn is a reset (R165). -/
theorem IsRun.fault_none {turn : Nat → Turn} {offer : Nat → Option Command} {state : Nat → State}
    (h : IsRun turn offer state) {n : Nat} (hr : turn n ≠ .reset) : (state n).fault = none := by
  have hs := h n
  simp only [step, takeTurn, State.facing_sched] at hs
  split at hs
  · simp at hs
  · rename_i hh
    cases hf : (state n).fault with
    | none => rfl
    | some f => exact absurd ⟨by simp [hf], hr⟩ hh

/-- The tx path of index `i` in `s` while it drains: the ring, whether the transmit register is empty, its byte if not,
and the line; no WRITE is between its phases, I = 1 and TXEN = 1. -/
abbrev TxAt (s : State) (i : Idx) (tx : Ring) (e : Bool) (v : Byte) (l : List Byte) : Prop :=
  s.pending = none ∧ s.I = true ∧ s.present i ∧ (s.port i).reg.map Driver.tx = some tx ∧
    (s.port i).ctrlB.udrie = true ∧ (s.port i).ctrlB.txen = true ∧ (s.port i).txdEmpty = e ∧
    (e = false → (s.port i).txdReg = v) ∧ (s.port i).lineOut = l

/-- The tx path reads the parts named, so a state that agrees on them is at the same point. -/
theorem TxAt.of_same {s t : State} {i : Idx} {tx : Ring} {e : Bool} {v : Byte} {l : List Byte}
    (h : TxAt s i tx e v l) (hp : t.pending = s.pending) (hI : t.I = s.I) (hc : t.cfg = s.cfg)
    (h1 : (t.port i).reg.map Driver.tx = (s.port i).reg.map Driver.tx) (h2 : (t.port i).ctrlB = (s.port i).ctrlB)
    (h3 : (t.port i).txdEmpty = (s.port i).txdEmpty) (h4 : (t.port i).txdReg = (s.port i).txdReg)
    (h5 : (t.port i).lineOut = (s.port i).lineOut) : TxAt t i tx e v l := by
  unfold TxAt State.present at *
  rw [hp, hI, hc, h1, h2, h3, h4, h5]
  exact h

/-- In a state at that point the UDRE event is enabled iff the transmit register is empty, and so is the drain iff not. -/
theorem TxAt.enabled {s : State} {i : Idx} {tx : Ring} {e : Bool} {v : Byte} {l : List Byte} (h : TxAt s i tx e v l)
    (hf : s.fault = none) :
    s.enabled (.dispatch (encodeWord (.evUdre i))) = e ∧ s.enabled (.txDrain i) = !e := by
  obtain ⟨-, hI, hp, -, hu, -, he, -, -⟩ := h
  constructor
  · rw [State.enabled_udre]; simp [hf, udreDeliverable, Port.udrePending, hI, hp, hu, he]
  · simp [State.enabled, hf, hp, he]

/-- A turn that is not enabled keeps the point. -/
theorem TxAt.not_enabled {s t : State} {i : Idx} {tx : Ring} {e : Bool} {v : Byte} {l : List Byte} {τ : Turn}
    (h : TxAt s i tx e v l) (hf : s.fault = none) (hr : τ ≠ .reset) (he : (s.facing τ none).enabled τ = false)
    (hst : step (s.facing τ none) = .next t) : TxAt t i tx e v l := by
  rw [step_of_not_enabled (s := s.facing τ none) hf rfl hr he] at hst
  cases hst
  exact h

/-- Every other turn than the UDRE event and the drain of the index keeps the point, if the block goes on. -/
theorem TxAt.other {s t : State} {i : Idx} {tx : Ring} {e : Bool} {v : Byte} {l : List Byte} {τ : Turn}
    (h : TxAt s i tx e v l) (hr : τ ≠ .reset) (hu : τ ≠ .dispatch (encodeWord (.evUdre i))) (hd : τ ≠ .txDrain i)
    (hst : step (s.facing τ none) = .next t) (hft : t.fault = none) : TxAt t i tx e v l := by
  cases step_next hst with
  | wait _ hs _ => simp at hs
  | idle _ turns _ _ _ ht => subst ht; exact h
  | illegal w o rest turns hi _ => cases hi.2.2.1
  | command w o rest turns j hi => cases hi.2.2.1
  | phase2 p turns _ hp _ _ => rw [State.facing_pending, h.1] at hp; cases hp
  | reset turns hs _ => simp at hs; exact absurd hs.1 hr
  | event w turns ins hf hs hdec hev hx =>
    obtain ⟨-, hx⟩ := exec_ended hx
    cases hx with
    | idle _ ht => subst ht; exact h
    | raised f ht => subst ht; cases hft
    | error e he _ => cases ins <;> simp [Instr.isEvent, Instr.errors] at hev he
    | effect hx =>
      simp only [State.facing_sched, List.cons.injEq] at hs
      have hw := eq_record_of_decode hdec hev
      cases hx <;> simp only [Instr.isEvent, Bool.false_eq_true] at hev
      case rxcDiscard j b hc hb hr' =>
        by_cases hj : i = j
        · subst hj; refine h.of_same ?_ ?_ ?_ ?_ ?_ ?_ ?_ ?_ <;> simp [rxcTaken]
        · refine h.of_same ?_ ?_ ?_ ?_ ?_ ?_ ?_ ?_ <;> simp [rxcTaken, hj]
      case rxcStore j b d ev rx hc hb hr' hp =>
        rw [State.port_setSched, State.port_facing] at hr'
        by_cases hj : i = j
        · subst hj; refine h.of_same ?_ ?_ ?_ ?_ ?_ ?_ ?_ ?_ <;> simp [rxcTaken, hr']
        · refine h.of_same ?_ ?_ ?_ ?_ ?_ ?_ ?_ ?_ <;> simp [rxcTaken, hj]
      case udreSend j d b tx hc hr' hn hp =>
        have hj : i ≠ j := by rintro rfl; exact hu (hw ▸ hs.1)
        refine h.of_same ?_ ?_ ?_ ?_ ?_ ?_ ?_ ?_ <;> simp [hj]
      case udreDisable j hc hn =>
        have hj : i ≠ j := by rintro rfl; exact hu (hw ▸ hs.1)
        refine h.of_same ?_ ?_ ?_ ?_ ?_ ?_ ?_ ?_ <;> simp [hj]
  | rxArrive j b turns _ _ ht =>
    subst ht
    rcases rxArrive_cases j b ((s.facing τ none).setSched turns) with hc | ⟨-, hc | hc | hc⟩ <;> rw [hc]
    all_goals
      by_cases hj : i = j
      · subst hj; refine h.of_same ?_ ?_ ?_ ?_ ?_ ?_ ?_ ?_ <;> simp
      · refine h.of_same ?_ ?_ ?_ ?_ ?_ ?_ ?_ ?_ <;> simp [hj]
  | txDrain j turns _ hs ht =>
    subst ht
    simp at hs
    have hj : i ≠ j := by rintro rfl; exact hd hs.1
    rcases txDrain_cases j ((s.facing τ none).setSched turns) with hc | ⟨-, l', -, hc | hc⟩ <;> rw [hc]
    all_goals refine h.of_same ?_ ?_ ?_ ?_ ?_ ?_ ?_ ?_ <;> simp [hj]
  | hwFault j turns _ _ ht =>
    subst ht
    rcases hwFault_cases j ((s.facing τ none).setSched turns) with hc | ⟨d, -, -, hr', hc⟩ <;> rw [hc]
    · exact h
    · by_cases hj : i = j
      · subst hj
        rw [State.port_setSched, State.port_facing] at hr'
        refine h.of_same ?_ ?_ ?_ ?_ ?_ ?_ ?_ ?_ <;> simp [hr']
      · refine h.of_same ?_ ?_ ?_ ?_ ?_ ?_ ?_ ?_ <;> simp [hj]

/-- What a dispatcher's UDRE record does where the event is deliverable (R151, R154). -/
theorem step_udre {s : State} {i : Idx} {d : Driver} (hf : s.fault = none) (hp : s.present i) (hI : s.I = true)
    (hu : (s.port i).ctrlB.udrie = true) (he : (s.port i).txdEmpty = true) (hr : (s.port i).reg = some d) :
    (∀ b tx, 0 < d.tx.count → ringPop d.tx = .ok (b, tx) →
      step (s.facing (.dispatch (encodeWord (.evUdre i))) none) = .next
        (((s.setSched []).setProgram []).setPort i { s.port i with
          reg := some { d with tx := tx }, txdReg := b, txdEmpty := false })) ∧
    (d.tx.count = 0 →
      step (s.facing (.dispatch (encodeWord (.evUdre i))) none) = .next
        (((s.setSched []).setProgram []).setUdrie i false)) := by
  have hst : step (s.facing (.dispatch (encodeWord (.evUdre i))) none) =
      deliver (udreDeliverable i s) (udreBody i) ((s.setSched []).setProgram []) := by
    simp [step, takeTurn, hf, turnStep, dispatchTurn, Instr.isEvent]
    rfl
  have hde : udreDeliverable i s = true := by simp [udreDeliverable, Port.udrePending, hp, hI, hu, he]
  have hI' : ∀ p, ((((s.setSched []).setProgram []).setPort i p).setI true) = ((s.setSched []).setProgram []).setPort i p :=
    fun p => State.setI_eq_self (by simpa using hI)
  rw [hst, hde]
  constructor
  · intro b tx hn hpop
    simp [deliver, hf, handler, udreBody, hr, hn, hpop, txdWrite, he, State.setReg, hI',
      State.handlerEntry_eq, State.handlerReturn_eq]
  · intro hn
    simp [deliver, hf, handler, udreBody, hr, hn, State.setUdrie, hI', State.handlerEntry_eq,
      State.handlerReturn_eq]

/-- The UDRE event where the ring holds bytes hands the oldest to the transmit register (R154, R157). -/
theorem TxAt.udre_send {s t : State} {i : Idx} {tx : Ring} {v : Byte} {l : List Byte} (h : TxAt s i tx true v l)
    (hf : s.fault = none) (hok : tx.Ok) (hn : 0 < tx.count)
    (hst : step (s.facing (.dispatch (encodeWord (.evUdre i))) none) = .next t) :
    ∃ b tx', tx'.Ok ∧ tx.contents = b :: tx'.contents ∧ tx'.count = tx.count - 1 ∧ TxAt t i tx' false b l := by
  obtain ⟨hp, hI, hpr, hr, hu, hx, he, -, hl⟩ := h
  obtain ⟨d, hr', rfl⟩ := Option.map_eq_some_iff.1 hr
  obtain ⟨b, tx', hpop, hok', hcon, -, -, -, -, hc, -⟩ := ringPop_ok hok hn
  rw [(step_udre hf hpr hI hu he hr').1 b tx' hn hpop] at hst
  cases hst
  exact ⟨b, tx', hok', hcon, hc, by simp [TxAt, hp, hI, hpr, hu, hx, hl]⟩

/-- The UDRE event where the ring is empty ends the drain (R154, R156). -/
theorem TxAt.udre_idle {s t : State} {i : Idx} {tx : Ring} {v : Byte} {l : List Byte} (h : TxAt s i tx true v l)
    (hf : s.fault = none) (hn : tx.count = 0)
    (hst : step (s.facing (.dispatch (encodeWord (.evUdre i))) none) = .next t) :
    (t.port i).reg.map Driver.tx = some tx ∧ (t.port i).ctrlB.udrie = false ∧ (t.port i).txdEmpty = true ∧
      (t.port i).lineOut = l := by
  obtain ⟨hp, hI, hpr, hr, hu, hx, he, -, hl⟩ := h
  obtain ⟨d, hr', rfl⟩ := Option.map_eq_some_iff.1 hr
  rw [(step_udre hf hpr hI hu he hr').2 hn] at hst
  cases hst
  simp [hr, he, hl]

/-- The drain of the index puts the transmit register's byte on the line (R174). -/
theorem TxAt.drain {s t : State} {i : Idx} {tx : Ring} {v : Byte} {l : List Byte} (h : TxAt s i tx false v l)
    (hf : s.fault = none) (hst : step (s.facing (.txDrain i) none) = .next t) : TxAt t i tx true v (l ++ [v]) := by
  obtain ⟨hp, hI, hpr, hr, hu, hx, he, hv, hl⟩ := h
  have : t = ((s.setSched []).setProgram []).setPort i
      { s.port i with lineOut := (s.port i).lineOut ++ [(s.port i).txdReg], txdEmpty := true } := by
    have : step (s.facing (.txDrain i) none) = .next (txDrain i ((s.setSched []).setProgram [])) := by
      simp [step, takeTurn, hf, turnStep]
      rfl
    rw [this] at hst
    cases hst
    simp [txDrain, hpr, he, hx]
  subst this
  simp [TxAt, hp, hI, hpr, hr, hu, hx, hl, hv rfl]

end Sys2Proof.Machine
end

