-- ==== Sys2Proof/Laws/PerInstr.lean ====
section
/-! SUPPORT. Family RowMatch: the word of every instruction has the fixed bits of its row of the opcode table
(spec/opcode_table.json, 30_encoding.md R67 to R71). -/

namespace Sys2Proof.Laws.RowMatch

/-- The instruction's row is in the table and its word fits it. -/
def Statement (i : Instr) : Prop := i.row ∈ opcodeTable ∧ i.row.fits (encodeWord i)

theorem construct (idx : Idx) (nRx nTx : Nat) : Statement (.construct idx nRx nTx) :=
  ⟨by simp [Instr.row, opcodeTable], by simp only [Instr.row, encodeWord]; decide +revert⟩
theorem destruct (idx : Idx) : Statement (.destruct idx) :=
  ⟨by simp [Instr.row, opcodeTable], by simp only [Instr.row, encodeWord]; decide +revert⟩
theorem configure (idx : Idx) (par : Parity) (stb : StopBits) (baud : Nat) :
    Statement (.configure idx par stb baud) := by
  refine ⟨by simp [Instr.row, opcodeTable], ?_⟩
  cases par <;> cases stb <;> (simp only [Instr.row, encodeWord]; decide +revert)
theorem write (idx : Idx) (bytes : List Byte) : Statement (.write idx bytes) :=
  ⟨by simp [Instr.row, opcodeTable], by simp only [Instr.row, encodeWord]; decide +revert⟩
theorem read (idx : Idx) (len : Nat) : Statement (.read idx len) :=
  ⟨by simp [Instr.row, opcodeTable], by simp only [Instr.row, encodeWord]; decide +revert⟩
theorem flush (idx : Idx) : Statement (.flush idx) :=
  ⟨by simp [Instr.row, opcodeTable], by simp only [Instr.row, encodeWord]; decide +revert⟩
theorem ovfRead (idx : Idx) : Statement (.ovfRead idx) :=
  ⟨by simp [Instr.row, opcodeTable], by simp only [Instr.row, encodeWord]; decide +revert⟩
theorem ovfClear (idx : Idx) : Statement (.ovfClear idx) :=
  ⟨by simp [Instr.row, opcodeTable], by simp only [Instr.row, encodeWord]; decide +revert⟩
theorem badRead (idx : Idx) : Statement (.badRead idx) :=
  ⟨by simp [Instr.row, opcodeTable], by simp only [Instr.row, encodeWord]; decide +revert⟩
theorem csEnter : Statement .csEnter :=
  ⟨by simp [Instr.row, opcodeTable], by simp only [Instr.row, encodeWord]; decide⟩
theorem csExit : Statement .csExit :=
  ⟨by simp [Instr.row, opcodeTable], by simp only [Instr.row, encodeWord]; decide⟩
theorem rbPush (idx : Idx) (sel : RingSel) (b : Nat) : Statement (.rbPush idx sel b) := by
  refine ⟨by simp [Instr.row, opcodeTable], ?_⟩
  cases sel <;> (simp only [Instr.row, encodeWord]; decide +revert)
theorem rbPop (idx : Idx) (sel : RingSel) : Statement (.rbPop idx sel) := by
  refine ⟨by simp [Instr.row, opcodeTable], ?_⟩
  cases sel <;> (simp only [Instr.row, encodeWord]; decide +revert)
theorem rbFull (idx : Idx) (sel : RingSel) : Statement (.rbFull idx sel) := by
  refine ⟨by simp [Instr.row, opcodeTable], ?_⟩
  cases sel <;> (simp only [Instr.row, encodeWord]; decide +revert)
theorem rbEmpty (idx : Idx) (sel : RingSel) : Statement (.rbEmpty idx sel) := by
  refine ⟨by simp [Instr.row, opcodeTable], ?_⟩
  cases sel <;> (simp only [Instr.row, encodeWord]; decide +revert)
theorem rbSize (idx : Idx) (sel : RingSel) : Statement (.rbSize idx sel) := by
  refine ⟨by simp [Instr.row, opcodeTable], ?_⟩
  cases sel <;> (simp only [Instr.row, encodeWord]; decide +revert)
theorem rbCapacity (idx : Idx) (sel : RingSel) : Statement (.rbCapacity idx sel) := by
  refine ⟨by simp [Instr.row, opcodeTable], ?_⟩
  cases sel <;> (simp only [Instr.row, encodeWord]; decide +revert)
theorem baudSelect (baud : Nat) : Statement (.baudSelect baud) :=
  ⟨by simp [Instr.row, opcodeTable], by simp only [Instr.row, encodeWord]; decide⟩
theorem evRxc (idx : Idx) : Statement (.evRxc idx) :=
  ⟨by simp [Instr.row, opcodeTable], by simp only [Instr.row, encodeWord]; decide +revert⟩
theorem evUdre (idx : Idx) : Statement (.evUdre idx) :=
  ⟨by simp [Instr.row, opcodeTable], by simp only [Instr.row, encodeWord]; decide +revert⟩

end Sys2Proof.Laws.RowMatch
end

