-- ==== Sys2Proof/Tests/Slice0.lean ====
section
/-! SUPPORT. The author's own tests: ill-formed terms refused, words written out from the encoding tables decoded, one
step per vector of spec/95_test_vectors.md (its id stands in the comment: the expected result is the spec's), and for
every obligation with hypotheses a witness that meets them. -/

namespace Sys2Proof.Tests

open Sys2Proof Sys2Proof.Machine

/-! ### Well-formedness refuses each ill-formed operand (R72, R81) -/

theorem test_wf_construct_rx_zero : Instr.wf (.construct 0 0 4) = false := by decide
theorem test_wf_construct_tx_zero : Instr.wf (.construct 0 4 0) = false := by decide
theorem test_wf_construct_rx_high : Instr.wf (.construct 0 65536 4) = false := by decide
theorem test_wf_construct_tx_high : Instr.wf (.construct 0 4 65536) = false := by decide
theorem test_wf_construct_bounds : Instr.wf (.construct 0 1 65535) = true := by decide
theorem test_wf_configure_baud_high : Instr.wf (.configure 0 .none .one (2 ^ 32)) = false := by decide
theorem test_wf_write_too_long : Instr.wf (.write 0 (List.replicate 65536 0)) = false := by
  rw [Instr.wf, List.length_replicate]; decide
theorem test_wf_read_too_long : Instr.wf (.read 0 65536) = false := by decide
theorem test_wf_push_not_a_byte : Instr.wf (.rbPush 0 .rx 256) = false := by decide
theorem test_wf_select_baud_high : Instr.wf (.baudSelect (2 ^ 32)) = false := by decide

/-! ### Decoding: the words of 95_test_vectors.md section 4 and of its vectors -/

/-- The operand record of the decoding tests. -/
def ops : Operands := { nRx := 4, nTx := 8, baud := 9600, bytes := [1, 2], len := 3, byte := 0x41 }

theorem test_decode_construct : decode 0b0001_0000_0000_0000#16 ops = .ok (.construct 0 4 8) := rfl
theorem test_decode_destruct : decode 0b0010_0001_0000_0000#16 ops = .ok (.destruct 1) := rfl
theorem test_decode_configure_8e2 : decode 0b0011_0000_0000_0011#16 ops = .ok (.configure 0 .even .two 9600) := rfl
theorem test_decode_configure_odd : decode 0b0011_0000_0000_0100#16 ops = .ok (.configure 0 .odd .one 9600) := rfl
theorem test_decode_write : decode 0b0100_0001_0000_0000#16 ops = .ok (.write 1 [1, 2]) := rfl
theorem test_decode_read : decode 0b0101_0000_0000_0000#16 ops = .ok (.read 0 3) := rfl
theorem test_decode_flush : decode 0b0110_0000_0000_0000#16 ops = .ok (.flush 0) := rfl
theorem test_decode_ovf_read : decode 0b0111_0000_0000_0000#16 ops = .ok (.ovfRead 0) := rfl
theorem test_decode_ovf_clear : decode 0b0111_0000_0000_0001#16 ops = .ok (.ovfClear 0) := rfl
theorem test_decode_bad_read : decode 0b0111_0001_0000_0010#16 ops = .ok (.badRead 1) := rfl
theorem test_decode_cs_enter : decode 0b1000_0000_0000_0000#16 ops = .ok .csEnter := rfl
theorem test_decode_cs_exit : decode 0b1001_0000_0000_0000#16 ops = .ok .csExit := rfl
theorem test_decode_rb_push : decode 0b1010_0000_0000_0000#16 ops = .ok (.rbPush 0 .rx 0x41) := rfl
theorem test_decode_rb_pop : decode 0b1010_0000_1000_0001#16 ops = .ok (.rbPop 0 .tx) := rfl
theorem test_decode_rb_full : decode 0b1010_0000_0000_0010#16 ops = .ok (.rbFull 0 .rx) := rfl
theorem test_decode_rb_empty : decode 0b1010_0000_0000_0011#16 ops = .ok (.rbEmpty 0 .rx) := rfl
theorem test_decode_rb_size : decode 0b1010_0001_1000_0100#16 ops = .ok (.rbSize 1 .tx) := rfl
theorem test_decode_rb_capacity : decode 0b1010_0000_1000_0101#16 ops = .ok (.rbCapacity 0 .tx) := rfl
theorem test_decode_baud_select : decode 0b1011_0000_0000_0000#16 ops = .ok (.baudSelect 9600) := rfl
theorem test_decode_ev_rxc : decode 0b1100_0001_0000_0000#16 ops = .ok (.evRxc 1) := rfl
theorem test_decode_ev_udre : decode 0b1101_0000_0000_0000#16 ops = .ok (.evUdre 0) := rfl
theorem test_decode_reserved_op : decode 0xE000 ops = .error .reservedOp := rfl
theorem test_decode_reserved_parity : decode 0x3006 ops = .error .reservedParity := rfl
theorem test_decode_reserved_flag : decode 0x7003 ops = .error .reservedFlag := rfl
theorem test_decode_reserved_prim : decode 0xA007 ops = .error .reservedPrim := rfl
theorem test_decode_nonzero_sub : decode 0x1001 ops = .error .nonzeroSub := rfl
theorem test_decode_nonzero_idx : decode 0x8100 ops = .error .nonzeroIdx := rfl

/-- No word has the fixed bits of two rows of the opcode table. -/
theorem test_rows_disjoint :
    opcodeTable.Pairwise (fun a b => a.pattern &&& b.mask ≠ b.pattern &&& a.mask) := by decide

theorem test_asm_configure :
    Instr.asm (.configure 0 .none .one 9600) = "CONFIGURE u0, baud=9600, stop=one, parity=none" := by decide
/-- V7.8 -/
theorem test_ovf_take_words : (ovfTake 0).map encodeWord = [0x8000, 0x7000, 0x7001, 0x9000] := by decide

/-! ### Building an instance (R109) -/

/-- V3.8 -/
theorem test_build_divisor_too_wide :
    Config.build { Params.fixture with baudLut := Params.fixture.baudLut ++ [⟨300, 4096, false⟩] } = none := by decide
/-- R109 (b), R110 -/
theorem test_build_16mhz_without_9600 :
    Config.build { Params.fixture with baudLut := [⟨2400, 416, false⟩] } = none := by decide
theorem test_build_no_index : Config.build { Params.fixture with maxUarts := 0 } = none := by decide
theorem test_build_too_many : Config.build { Params.fixture with maxUarts := 17 } = none := by decide
theorem test_build_no_clock : Config.build { Params.fixture with fCpu := 0 } = none := by decide
/-- R109 (c) -/
theorem test_build_empty_table :
    (Config.build { Params.fixture with fCpu := 8000000, baudLut := [] }).isSome = true := by decide
/-- V3.5 -/
theorem test_build_duplicate_keys :
    (Config.build { Params.fixture with baudLut := [⟨9600, 103, false⟩, ⟨9600, 207, true⟩] }).isSome = true := by
  decide
/-- V3.5 -/
theorem test_select_first_match : select [⟨9600, 103, false⟩, ⟨9600, 207, true⟩] 9600 = some (103, false) := by decide

/-! ### Small states -/

/-- The state an outcome leaves. -/
def after : Outcome → Option State
  | .next t => some t
  | .fault _ => none
  | .refused _ => none

/-- The last reply of the state an outcome leaves. -/
def lastReply (o : Outcome) : Option Reply := (after o).bind (fun t => t.replies.getLast?)

/-- The fault record of the state an outcome leaves. -/
def recorded (o : Outcome) : Option FaultRecord := (after o).bind State.fault

/-- Index 0 of the state an outcome leaves. -/
def port0 (o : Outcome) : Option Port := (after o).map (fun t => t.port 0)

/-- The driver of index 0 of the state an outcome leaves. -/
def driver0 (o : Outcome) : Option Driver := (port0 o).bind Port.reg

/-- A driver with the rings given. -/
def driver (rx tx : Ring) : Driver := { rx := rx, tx := tx, overwritten := false, bad := false, settings := none }

/-- The reset state with a driver on index 0 that no CONFIGURE has configured. -/
def withDriver (d : Driver) (i : Bool) : State := (State.reset.setReg 0 (some d)).setI i

/-- The settings of 9600 8N1. -/
def set8N1 : Settings := { baud := 9600, stop := .one, parity := .none }

/-- Index 0 configured at 9600 8N1 (V5.1) with the rings given. -/
def configured (rx tx : Ring) (udrie : Bool) : Port :=
  { Port.reset with
    reg := some { driver rx tx with settings := some set8N1 }
    div := 103
    ctrlB := { rxcie := true, txcie := false, udrie := udrie, rxen := true, txen := true, ws2 := false } }

/-- The reset state with that index 0. -/
def withPort (p : Port) (i : Bool) : State := (State.reset.setPort 0 p).setI i

/-- Rings of the vectors. -/
def fresh4 : Ring := Ring.fresh 4
def one49 : Ring := { N := 4, store := [(0, 0x49)], head := 0, tail := 1, count := 1 }
def rx123 : Ring := { N := 3, store := [(0, 1), (1, 2), (2, 3)], head := 0, tail := 0, count := 3 }
def rx41 : Ring := { N := 4, store := [(0, 0x41), (1, 0x42), (2, 0x43)], head := 0, tail := 3, count := 3 }
def full4 : Ring := { N := 4, store := [(0, 0x10), (1, 0x20), (2, 0x30), (3, 0x40)], head := 0, tail := 0, count := 4 }
def wrapPush : Ring := { N := 4, store := [(2, 0x33)], head := 2, tail := 3, count := 1 }
def wrapPop : Ring := { N := 4, store := [(0, 0x20), (3, 0x10)], head := 3, tail := 1, count := 2 }
/-- V1.4, before its last push. -/
def beforeF6 : Ring :=
  { N := 4, store := [(0, 0xE5), (1, 0xB2), (2, 0xC3), (3, 0xD4)], head := 2, tail := 1, count := 3 }

/-! ### One step per vector -/

/-- V4.1 -/
theorem test_construct : driver0 (exec (.construct 0 4 4) State.reset) = some (driver fresh4 fresh4) := by decide
theorem test_construct_enables : (after (exec (.construct 0 4 4) State.reset)).map State.I = some true := by decide
/-- V4.8 -/
theorem test_destruct_clears :
    port0 (exec (.destruct 0) (withPort (configured fresh4 one49 true) true)) =
      some { Port.reset with div := 103 } := by decide
/-- V5.3: C = 0x2E, DIV 103 -/
theorem test_configure_8e2 :
    (port0 (exec (.configure 0 .even .two 9600) (withDriver (driver fresh4 fresh4) true))).map
      (fun p => (p.byteB .default, p.byteC .default, p.div, p.u2x)) = some (0x98, 0x2E, 103, false) := by decide
/-- V5.2: DIV 16, U2X 1, C = 0x36 -/
theorem test_configure_115200_odd :
    (port0 (exec (.configure 0 .odd .one 115200) (withPort (configured fresh4 fresh4 false) true))).map
      (fun p => (p.byteB .default, p.byteC .default, p.div, p.u2x)) = some (0x98, 0x36, 16, true) := by decide
/-- V5.8, W1 -/
theorem test_write_fills :
    (after (exec (.write 0 [1, 2, 3, 4, 5, 6]) (withPort (configured fresh4 fresh4 false) false))).map
      (fun t => ((t.port 0).reg.map (fun d => d.tx.contents), t.pending)) =
      some (some [1, 2, 3, 4], some ⟨0, 4⟩) := by decide
/-- V5.8, W2 -/
theorem test_write_phase2 :
    (after (writePhase2 ⟨0, 4⟩ (withPort (configured fresh4 full4 false) false))).map
      (fun t => ((t.port 0).txdReg, (t.port 0).txdEmpty, (t.port 0).ctrlB.udrie, t.replies)) =
      some (0x10, false, true, [⟨.ok, .written 4⟩]) := by decide
/-- V5.15 -/
theorem test_read_two :
    lastReply (exec (.read 0 2) (withPort (configured rx41 fresh4 false) true)) =
      some ⟨.ok, .read [0x41, 0x42] 2 1 4⟩ := by decide
/-- V5.16 -/
theorem test_read_empty :
    lastReply (exec (.read 0 8) (withPort (configured fresh4 fresh4 false) true)) =
      some ⟨.ok, .read [] 0 0 4⟩ := by decide
/-- V5.13 -/
theorem test_flush_sends :
    (port0 (exec (.flush 0) (withPort (configured fresh4 one49 false) true))).map
      (fun p => (p.byteB .default, p.txdReg, p.txdEmpty)) = some (0xB8, 0x49, false) := by decide
/-- V5.14 -/
theorem test_flush_empty_disables :
    port0 (exec (.flush 0) (withPort (configured fresh4 fresh4 true) false)) =
      some (configured fresh4 fresh4 false) := by decide
/-- V5.17 -/
theorem test_ovf_read :
    lastReply (exec (.ovfRead 0) (withDriver { driver fresh4 fresh4 with overwritten := true } true)) =
      some ⟨.ok, .flag true⟩ := by decide
theorem test_ovf_clear :
    driver0 (exec (.ovfClear 0) (withDriver { driver fresh4 fresh4 with overwritten := true } true)) =
      some (driver fresh4 fresh4) := by decide
/-- V5.19 -/
theorem test_bad_read :
    lastReply (exec (.badRead 0) (withDriver (driver fresh4 fresh4) true)) = some ⟨.ok, .flag false⟩ := by decide
/-- V2.2, second enter and outer exit -/
theorem test_cs_enter_nested :
    (after (exec .csEnter (State.reset.setCsStack [true]))).map (fun t => (t.csStack, t.I)) =
      some ([true, false], false) := by decide
theorem test_cs_exit_outer :
    (after (exec .csExit (State.reset.setCsStack [true]))).map (fun t => (t.csStack, t.I)) = some ([], true) := by
  decide
/-- V1.7 -/
theorem test_rb_push_wraps :
    driver0 (exec (.rbPush 0 .rx 0x41) (withDriver (driver wrapPush fresh4) false)) =
      some (driver { wrapPush with store := [(2, 0x33), (3, 0x41)], tail := 0, count := 2 } fresh4) := by decide
/-- V1.4, the last push -/
theorem test_rb_push_order :
    (driver0 (exec (.rbPush 0 .rx 0xF6) (withDriver (driver beforeF6 fresh4) false))).map (fun d => d.rx.contents) =
      some [0xC3, 0xD4, 0xE5, 0xF6] := by decide
/-- V1.8 -/
theorem test_rb_pop_wraps :
    driver0 (exec (.rbPop 0 .tx) (withDriver (driver fresh4 wrapPop) false)) =
      some (driver fresh4 { wrapPop with head := 0, count := 1 }) := by decide
theorem test_rb_pop_answers :
    lastReply (exec (.rbPop 0 .tx) (withDriver (driver fresh4 wrapPop) false)) = some ⟨.ok, .byte 0x10⟩ := by decide
/-- V1.3 -/
theorem test_rb_full :
    lastReply (exec (.rbFull 0 .rx) (withDriver (driver full4 fresh4) false)) = some ⟨.ok, .flag true⟩ := by decide
theorem test_rb_empty :
    lastReply (exec (.rbEmpty 0 .rx) (withDriver (driver full4 fresh4) false)) = some ⟨.ok, .flag false⟩ := by decide
theorem test_rb_size :
    lastReply (exec (.rbSize 0 .rx) (withDriver (driver full4 fresh4) false)) = some ⟨.ok, .number 4⟩ := by decide
/-- V1.10 -/
theorem test_rb_capacity :
    lastReply (exec (.rbCapacity 0 .tx) (withDriver (driver (Ring.fresh 16) (Ring.fresh 8)) false)) =
      some ⟨.ok, .number 8⟩ := by decide
/-- V3.1 -/
theorem test_baud_select : lastReply (exec (.baudSelect 9600) State.reset) = some ⟨.ok, .baud true 103 false⟩ := by
  decide
/-- V3.4 -/
theorem test_baud_select_miss :
    lastReply (exec (.baudSelect 4294967295) State.reset) = some ⟨.ok, .baud false 0 false⟩ := by decide
/-- V3.3, the two registers of 416 -/
theorem test_divisor_split :
    let p : Port := { Port.reset with div := 416 }
    (p.divHigh, p.divLow) = (0x01, 0xA0) := by decide
/-- V6.1 -/
theorem test_ev_rxc_evicts :
    (driver0 (exec (.evRxc 0) (withPort { configured rx123 fresh4 false with rxHold := some 4 } true))).map
      (fun d => (d.rx, d.overwritten)) =
      some ({ rx123 with store := [(0, 4), (1, 2), (2, 3)], head := 1, tail := 1 }, true) := by decide
/-- V6.5 -/
theorem test_ev_rxc_held_off :
    port0 (exec (.evRxc 0) (withPort { configured rx123 fresh4 false with rxHold := some 0x41 } false)) =
      some { configured rx123 fresh4 false with rxHold := some 0x41 } := by decide
/-- V6.8 -/
theorem test_ev_udre_sends :
    (port0 (exec (.evUdre 0) (withPort (configured fresh4 one49 true) true))).map
      (fun p => (p.txdReg, p.txdEmpty, p.ctrlB.udrie, p.reg.map (fun d => d.tx.count))) =
      some (0x49, false, true, some 0) := by decide
/-- V6.9 -/
theorem test_ev_udre_disables :
    port0 (exec (.evUdre 0) (withPort (configured fresh4 fresh4 true) true)) =
      some (configured fresh4 fresh4 false) := by decide

/-! ### Errors and faults -/

/-- V4.2, V4.4, V4.7, V5.4, V5.6, V1.12, V1.13 -/
theorem test_duplicate :
    lastReply (exec (.construct 0 8 8) (withDriver (driver fresh4 fresh4) true)) = some ⟨.eDuplicate, .empty⟩ := by
  decide
theorem test_index_range : lastReply (exec (.construct 2 4 4) State.reset) = some ⟨.eIndexRange, .empty⟩ := by decide
theorem test_not_constructed : lastReply (exec (.destruct 1) State.reset) = some ⟨.eNotConstructed, .empty⟩ := by
  decide
theorem test_baud_unsupported :
    lastReply (exec (.configure 0 .none .one 12345) (withDriver (driver fresh4 fresh4) true)) =
      some ⟨.eBaudUnsupported, .empty⟩ := by decide
theorem test_tx_busy :
    lastReply (exec (.configure 0 .none .one 9600) (withPort (configured fresh4 one49 true) true)) =
      some ⟨.eTxBusy, .empty⟩ := by decide
/-- V1.2, V1.6, V1.11, V2.4, V4.5 -/
theorem test_overrun :
    recorded (exec (.rbPush 0 .rx 0x50) (withDriver (driver full4 fresh4) false)) =
      some (.ringOverrun 0xA000 0 .rx) := by decide
theorem test_underrun :
    recorded (exec (.rbPop 0 .rx) (withDriver (driver fresh4 fresh4) false)) = some (.ringUnderrun 0xA001 0 .rx) := by
  decide
theorem test_unguarded :
    recorded (exec (.rbSize 0 .rx) (withDriver (driver fresh4 fresh4) true)) = some (.unguardedAccess 0xA004) := by
  decide
theorem test_cs_underflow : recorded (exec .csExit State.reset) = some (.csUnderflow 0x9000) := by decide
theorem test_bad_operand :
    recorded (exec (.construct 0 0 4) State.reset) =
      some (.badOperand 0x1000 { Operands.zero with nTx := 4 }) := by decide
/-- R51: a head slot that no push wrote -/
theorem test_unwritten_slot :
    recorded (exec (.rbPop 0 .rx) (withDriver (driver { fresh4 with tail := 1, count := 1 } fresh4) false)) =
      some (.unwrittenSlot 0 .rx 0) := by decide

/-! ### Steps -/

/-- The reset state with one command to issue. -/
def issuing (w : Word) (o : Operands) : State := (State.reset.setProgram [⟨w, o⟩]).setSched [.foreground]

/-- A halted block. -/
def halted : State := State.reset.raise (.csUnderflow 0x9000)

/-- V7.3 -/
theorem test_step_illegal : recorded (step (issuing 0xF123 .zero)) = some (.illegalCommand 0xF123) := by decide
/-- V5.23: the operand check comes before the index check -/
theorem test_step_check_order :
    recorded (step (issuing 0x5300 { Operands.zero with len := 70000 })) =
      some (.badOperand 0x5300 { Operands.zero with len := 70000 }) := by decide
/-- V7.2 -/
theorem test_step_halted : step (halted.setSched [.foreground]) = .fault .halted := rfl
/-- R185 -/
theorem test_step_reset_clears_fault : recorded (step (halted.setSched [.reset])) = none := by decide
/-- P2, step 3 -/
theorem test_step_arrive :
    (port0 (step ((withPort (configured fresh4 fresh4 false) true).setSched [.rxArrive 0 0x41]))).map Port.rxHold =
      some (some 0x41) := by decide
/-- V6.9, the drain -/
theorem test_step_drain :
    (port0 (step ((withPort { configured fresh4 fresh4 true with txdReg := 0x49, txdEmpty := false } true).setSched
      [.txDrain 0]))).map (fun p => (p.lineOut, p.txdEmpty)) = some ([0x49], true) := by decide
/-- The host's placing of a word: the next step runs it. -/
theorem test_fetch_cs_enter :
    (after (step (State.reset.withFetchWord 16 0x8000))).map State.csStack = some [false] := by decide

/-! ### Witnesses: a concrete state and operands that meet each statement's hypotheses -/

/-- A state in which driver 0 is ready, with I as given. -/
def ready (rx tx : Ring) (i : Bool) : State := withDriver (driver rx tx) i

theorem witness_EncodeOfDecode : decode 0xA184 .zero = .ok (.rbSize 1 .tx) := rfl

/-- Every clause of the list of illegal words. -/
theorem witness_IllegalWordRaises_ops_and_subs :
    (Word.op 0x0FFF = 0x0 ∧ Word.op 0xE000 = 0xE ∧ Word.op 0xFFFF = 0xF) ∧
    (Word.op 0x1001 = 0x1 ∧ Word.sub 0x1001 ≠ 0 ∧ Word.op 0x60FF = 0x6 ∧ Word.sub 0x60FF ≠ 0 ∧
      Word.op 0xD080 = 0xD ∧ Word.sub 0xD080 ≠ 0) := by decide
theorem witness_IllegalWordRaises_fields :
    (Word.op 0x3008 = 3 ∧ Word.field 0x3008 7 3 ≠ 0) ∧ (Word.op 0x7004 = 7 ∧ Word.field 0x7004 7 2 ≠ 0) ∧
    (Word.op 0xA008 = 0xA ∧ Word.field 0xA008 6 3 ≠ 0) ∧ (Word.op 0x3006 = 3 ∧ Word.field 0x3006 2 1 = 3) ∧
    (Word.op 0x7003 = 7 ∧ Word.field 0x7003 1 0 = 3) ∧
    (Word.op 0xA006 = 0xA ∧ Word.field 0xA006 2 0 = 6) ∧ (Word.op 0xA007 = 0xA ∧ Word.field 0xA007 2 0 = 7) ∧
    (Word.op 0x8100 = 8 ∧ Word.op 0x9F00 = 9 ∧ Word.op 0xB100 = 0xB ∧ Word.field 0x8100 11 8 ≠ 0) := by
  decide
theorem witness_IllegalWordRaises :
    (∀ r ∈ opcodeTable, ¬ r.fits 0xA007) ∧
    (issuing 0xA007 .zero).Issues 0xA007 .zero [] [] := by decide

theorem witness_EventRecordsNameDispatcherSteps :
    (issuing 0xC100 .zero).Issues 0xC100 .zero [] [] ∧ Word.op 0xC100 = 0xC ∧
    (issuing 0xDF00 .zero).Issues 0xDF00 .zero [] [] ∧ Word.op 0xDF00 = 0xD ∧
    (State.reset.setSched [.dispatch 0xC100]).sched = .dispatch (BitVec.ofNat 16 (0xC000 + (1 : Idx).val * 256)) :: [] ∧
    (State.reset.setSched [.dispatch 0xDF00]).sched = .dispatch (BitVec.ofNat 16 (0xD000 + (15 : Idx).val * 256)) :: [] ∧
    State.reset.fault = none := by decide

theorem witness_StepRunsDecodedInstruction :
    ((issuing 0x8000 .zero).Issues 0x8000 .zero [] [] ∧ decode 0x8000 .zero = .ok .csEnter ∧
      Instr.isEvent .csEnter = false) ∧
    (let s := ((ready fresh4 one49 true).setPending (some ⟨0, 1⟩)).setSched [.foreground]
     s.fault = none ∧ s.pending = some ⟨0, 1⟩ ∧ s.sched = [.foreground]) ∧
    (let s := State.reset.setSched [.dispatch 0xD000]
     s.fault = none ∧ s.sched = [.dispatch 0xD000] ∧ decode 0xD000 .zero = .ok (.evUdre 0) ∧
      Instr.isEvent (.evUdre 0) = true) ∧
    (State.reset.fault = none ∧ State.reset.sched = []) := by
  refine ⟨⟨by decide, rfl, rfl⟩, by decide, ⟨rfl, rfl, rfl, rfl⟩, by decide⟩

/-- A tx ring that no run reaches: a held byte whose slot no push has written. -/
def hole4 : Ring := { N := 4, store := [], head := 0, tail := 1, count := 1 }

/-- A second phase, a handler and an issued command that record a fault. -/
theorem witness_FaultRecordedAndHalts_steps :
    (∃ t, writePhase2 ⟨0, 1⟩ (ready fresh4 hole4 true) = .next t ∧ (ready fresh4 hole4 true).fault = none ∧
      t.fault = some (.unwrittenSlot 0 .tx 0)) ∧
    (∃ t, step ((withPort (configured fresh4 hole4 true) true).setSched [.dispatch 0xD000]) = .next t ∧
      t.fault = some (.unwrittenSlot 0 .tx 0)) ∧
    (∃ t, step (issuing 0x9000 .zero) = .next t ∧ t.fault = some (.csUnderflow 0x9000)) :=
  ⟨⟨_, rfl, by decide, by decide⟩, ⟨_, rfl, by decide⟩, ⟨_, rfl, by decide⟩⟩

theorem witness_FaultRecordedAndHalts :
    (exec .csExit State.reset = .next halted ∧ halted.fault = some (.csUnderflow 0x9000)) ∧
    halted.fault ≠ none ∧
    ((halted.setSched [.reset]).fault ≠ none ∧ step (halted.setSched [.reset]) = .next State.reset ∧
      (halted.setSched [.reset]).resets) :=
  ⟨⟨rfl, rfl⟩, by decide, by decide, rfl, by decide⟩

theorem witness_OperandOutOfRangeRaises :
    State.reset.fault = none ∧ 65535 < 65536 ∧ 65535 < (List.replicate 65536 (0 : Byte)).length ∧
    2 ^ 32 ≤ 4294967296 ∧ 255 < 256 := by
  refine ⟨rfl, by decide, ?_, by decide, by decide⟩
  rw [List.length_replicate]; decide

/-- At the first index that does not exist and at the last the field can hold. -/
theorem witness_IndexOutOfRangeAnswersError :
    ∀ ins ∈ ([.construct 2 4 4, .flush 15, .rbPush 2 .tx 255] : List Instr),
      (∃ i : Idx, ins.idx? = some i ∧ State.reset.cfg.maxUarts ≤ i.val) ∧ ins.isEvent = false ∧ ins.wf = true ∧
      State.reset.fault = none := by decide

theorem witness_EmptySlotAnswersNotConstructed :
    ∀ ins ∈ ([.destruct 1, .write 1 [], .rbSize 0 .rx] : List Instr),
      (∃ i : Idx, ins.idx? = some i ∧ State.reset.present i ∧ (State.reset.port i).reg = none) ∧
      ins.isDriverCommand = true ∧ ins.wf = true ∧ State.reset.fault = none := by decide

/-- The instructions that answer a state with no reply more: a fault, an event, the first phase of a WRITE. -/
theorem witness_ErrorStatusesPerCommand_no_reply :
    (∃ t, exec .csExit State.reset = .next t ∧ t.replies = State.reset.replies ∧ t.fault ≠ none) ∧
    (∃ t, exec (.evRxc 0) State.reset = .next t ∧ t.replies = State.reset.replies) ∧
    (∃ t, exec (.write 0 [1, 2]) (ready fresh4 fresh4 true) = .next t ∧ t.replies = [] ∧
      t.pending = some ⟨0, 2⟩) :=
  ⟨⟨_, rfl, rfl, by decide⟩, ⟨_, rfl, rfl⟩, ⟨_, rfl, rfl, by decide⟩⟩

/-- One instruction of each row of the statement, with a status other than OK where it can give one. -/
theorem witness_ErrorStatusesPerCommand :
    (∃ t, exec .csEnter State.reset = .next t) ∧ (∃ t, exec (.baudSelect 9600) State.reset = .next t) ∧
    (∃ t, exec (.construct 2 4 4) State.reset = .next t ∧ t = State.reset.answer ⟨.eIndexRange, .empty⟩) ∧
    (∃ t, exec (.configure 0 .none .one 1) (ready fresh4 fresh4 true) = .next t ∧
      t = (ready fresh4 fresh4 true).answer ⟨.eBaudUnsupported, .empty⟩) ∧
    (∃ t, exec (.flush 1) State.reset = .next t ∧ t = State.reset.answer ⟨.eNotConstructed, .empty⟩) :=
  ⟨⟨_, rfl⟩, ⟨_, rfl⟩, ⟨_, rfl, rfl⟩, ⟨_, rfl, rfl⟩, ⟨_, rfl, rfl⟩⟩

theorem witness_RingPushAppends :
    (wrapPush.count < wrapPush.N ∧ wrapPush.tail < wrapPush.N ∧ wrapPush.tail + 1 = wrapPush.N ∧ wrapPush.store.wf) ∧
    (fresh4.count < fresh4.N ∧ fresh4.tail + 1 < fresh4.N) := by decide

theorem witness_RingPopRemovesHead :
    0 < wrapPop.count ∧ wrapPop.head < wrapPop.N ∧ wrapPop.head + 1 = wrapPop.N ∧
    wrapPop.store.read wrapPop.head = some 0x10 := by decide

theorem witness_RingPushOverwriteEvicts :
    (full4.Ok ∧ full4.count = full4.N) ∧ (wrapPush.Ok ∧ wrapPush.count ≠ wrapPush.N) := by decide

theorem witness_RingIsFifo :
    (full4.Ok ∧ 0 < full4.count ∧ full4.count = full4.N) ∧ (fresh4.Ok ∧ fresh4.count < fresh4.N) ∧
    (1 ≤ 1 ∧ 65535 ≤ 65535) := by decide

theorem witness_OverflowKeepsNewestBytes : (Ring.fresh 3).Ok ∧ (Ring.fresh 3).N < ([1, 2, 3, 4, 5] : List Byte).length := by
  decide

theorem witness_RbPushAppendsOneByte :
    let d := driver wrapPush fresh4
    (ready wrapPush fresh4 false).Ready 0 d ∧ (ready wrapPush fresh4 false).I = false ∧ 255 ≤ 255 ∧
    ((d.ring .rx).Ok ∧ (d.ring .rx).count < (d.ring .rx).N) ∧
    ((d.ring .tx).Ok ∧ (d.ring .tx).count < (d.ring .tx).N) := by decide

theorem witness_RbPopRemovesOldestByte :
    let d := driver fresh4 wrapPop
    (ready fresh4 wrapPop false).Ready 0 d ∧ (ready fresh4 wrapPop false).I = false ∧
    (d.ring .tx).Ok ∧ 0 < (d.ring .tx).count := by decide

theorem witness_RingQueriesAnswer :
    (ready full4 fresh4 false).Ready 0 (driver full4 fresh4) ∧ (ready full4 fresh4 false).I = false := by decide

theorem witness_RingCommandFaults :
    ((ready full4 fresh4 true).Ready 0 (driver full4 fresh4) ∧ (ready full4 fresh4 true).I = true) ∧
    ((ready full4 fresh4 false).Ready 0 (driver full4 fresh4) ∧ (ready full4 fresh4 false).I = false ∧
      ((driver full4 fresh4).ring .rx).count = ((driver full4 fresh4).ring .rx).N ∧
      ((driver full4 fresh4).ring .tx).count = 0) := by decide

theorem witness_CsEnterAndExit :
    State.reset.fault = none ∧ State.reset.csStack = [] ∧
    (State.reset.setCsStack [true, false]).fault = none ∧
    (State.reset.setCsStack [true, false]).csStack = [true] ++ [false] := by decide

/-- A step that leaves the stack, a CS_ENTER and a CS_EXIT. -/
theorem witness_CsStackChangesOnlyByEnterAndExit :
    (step (State.reset.setSched [.txDrain 0]) = .next State.reset ∧ ¬ (State.reset.setSched [.txDrain 0]).resets) ∧
    (∃ t, step (issuing 0x8000 .zero) = .next t ∧ t.csStack = [false] ∧ ¬ (issuing 0x8000 .zero).resets) ∧
    (∃ t, step ((issuing 0x9000 .zero).setCsStack [true]) = .next t ∧ t.csStack = [] ∧ t.I = true ∧
      ¬ ((issuing 0x9000 .zero).setCsStack [true]).resets) :=
  ⟨⟨rfl, by decide⟩, ⟨_, rfl, rfl, by decide⟩, ⟨_, rfl, rfl, rfl, by decide⟩⟩

/-- V2.1, with a second section opened and closed inside. -/
theorem witness_NestingLaw :
    ∃ a b t, exec .csEnter (State.reset.setSched [.foreground, .foreground] |>.setProgram
        [⟨0x8000, .zero⟩, ⟨0x9000, .zero⟩]) = .next a ∧
      Within 1 a b ∧ a ≠ b ∧ b.csStack.length = 1 ∧ exec .csExit b = .next t := by
  refine ⟨_, _, _, rfl, .more _ _ _ (.more _ _ _ (.here _ (by decide)) rfl (by decide)) rfl (by decide), by decide,
    by decide, rfl⟩

theorem witness_DriverCommandsRestoreI :
    (∃ t, exec (.flush 0) (ready fresh4 one49 true) = .next t ∧ t.I = true) ∧ Instr.isDriverCommand (.flush 0) = true ∧
    (∃ t, exec (.evUdre 0) (withPort (configured fresh4 one49 true) true) = .next t ∧ t.I = true) ∧
    (∃ t, writePhase2 ⟨0, 1⟩ (ready fresh4 one49 false) = .next t ∧ t.I = false) :=
  ⟨⟨_, rfl, rfl⟩, rfl, ⟨_, rfl, rfl⟩, ⟨_, rfl, rfl⟩⟩

theorem witness_InterruptEnableRises :
    (let s := issuing 0x1000 { Operands.zero with nRx := 4, nTx := 4 }
     ∃ t, step s = .next t ∧ s.I = false ∧ t.I = true) ∧
    (let s := (issuing 0x9000 .zero).setCsStack [true]
     ∃ t, step s = .next t ∧ s.I = false ∧ t.I = true) :=
  ⟨⟨_, rfl, rfl, rfl⟩, ⟨_, rfl, rfl, rfl⟩⟩

theorem witness_SixteenMegahertzSelects103 : Config.fixture.fCpu = 16000000 := by decide

/-- Parameters that fail each check, and parameters that pass. -/
theorem witness_InstanceCheckRefusesBadTables :
    (∃ e ∈ ([⟨300, 4096, false⟩] : List LutEntry), 2 ^ 12 ≤ e.divisor) ∧ 16 < 17 ∧
    (⟨9600, 103, false⟩ : LutEntry) ∉ ([⟨9600, 104, false⟩] : List LutEntry) ∧
    (let p := { Params.fixture with fCpu := 1, maxUarts := 16, baudLut := [⟨4294967295, 4095, true⟩] }
     1 ≤ p.maxUarts ∧ p.maxUarts ≤ 16 ∧ 0 < p.fCpu ∧ p.fCpu ≠ 16000000 ∧
      ∀ e ∈ p.baudLut, e.divisor < 2 ^ 12 ∧ e.baud < 2 ^ 32) := by decide

theorem witness_BaudSelectAnswersQuery :
    State.reset.fault = none ∧ 4294967295 < 2 ^ 32 ∧ select State.reset.cfg.baudLut 115200 = some (16, true) ∧
    select State.reset.cfg.baudLut 4294967295 = none := by decide

/-- A step of each agent. -/
theorem witness_ParametersNeverChange :
    (∃ t, step (issuing 0x8000 .zero) = .next t) ∧ (∃ t, step (State.reset.setSched [.dispatch 0xC000]) = .next t) ∧
    (∃ t, step (halted.setSched [.reset]) = .next t) :=
  ⟨⟨_, rfl⟩, ⟨_, rfl⟩, ⟨_, rfl⟩⟩

theorem witness_ConstructRegistersDriver :
    State.reset.fault = none ∧ State.reset.present 1 ∧ (State.reset.port 1).reg = none ∧ 1 ≤ 65535 ∧
    ((ready fresh4 fresh4 true).port 0).reg ≠ none ∧ (ready fresh4 fresh4 true).present 0 := by decide

theorem witness_DestructClearsEnablesAndSlot :
    (withPort (configured fresh4 one49 true) true).Ready 0 { driver fresh4 one49 with settings := some set8N1 } := by
  decide

/-- With policy Reject and an empty ring, and with policy Proceed and bytes in the ring. -/
theorem witness_ConfigureLoadsSettings :
    (let s := ready fresh4 fresh4 true
     s.Ready 0 (driver fresh4 fresh4) ∧ 9600 < 2 ^ 32 ∧ select s.cfg.baudLut 9600 = some (103, false) ∧
      (driver fresh4 fresh4).tx.count = 0) ∧
    (let s : State := { ready fresh4 one49 true with cfg := ⟨{ Params.fixture with policy := .proceed }, by decide⟩ }
     s.Ready 0 (driver fresh4 one49) ∧ select s.cfg.baudLut 57600 = some (34, true) ∧ s.cfg.policy = .proceed ∧
      0 < (driver fresh4 one49).tx.count) := by decide

theorem witness_ConfigureErrorsWriteNothing :
    (ready fresh4 one49 true).Ready 0 (driver fresh4 one49) ∧ 12345 < 2 ^ 32 ∧
    select (ready fresh4 one49 true).cfg.baudLut 12345 = none ∧
    select (ready fresh4 one49 true).cfg.baudLut 9600 ≠ none ∧ (ready fresh4 one49 true).cfg.policy = .reject ∧
    0 < (driver fresh4 one49).tx.count := by decide

/-- Bytes that fit, that fill the ring and that do not fit. -/
theorem witness_WriteEnqueuesWhatFits :
    (ready fresh4 wrapPush true).Ready 0 (driver fresh4 wrapPush) ∧ (driver fresh4 wrapPush).tx.Ok ∧
    ([] : List Byte).length ≤ 65535 ∧ ([1, 2, 3, 4] : List Byte).length ≤ 65535 ∧
    wrapPush.N - wrapPush.count < ([1, 2, 3, 4] : List Byte).length := by decide

theorem witness_WriteSecondPhaseFlushes :
    (let s := ((ready fresh4 one49 true).setPending (some ⟨0, 1⟩)).setSched [.foreground]
     s.fault = none ∧ s.pending = some ⟨0, 1⟩ ∧ s.sched = [.foreground] ∧
      (s.port 0).reg = some (driver fresh4 one49) ∧ (driver fresh4 one49).tx.Ok ∧ 0 < (driver fresh4 one49).tx.count) ∧
    (let s := ((ready fresh4 fresh4 true).setPending (some ⟨0, 0⟩)).setSched [.foreground]
     s.fault = none ∧ s.pending = some ⟨0, 0⟩ ∧ (s.port 0).reg = some (driver fresh4 fresh4) ∧
      (driver fresh4 fresh4).tx.Ok ∧ (driver fresh4 fresh4).tx.count = 0) := by decide

theorem witness_FlushPrimesOrDisables :
    ((ready fresh4 one49 true).Ready 0 (driver fresh4 one49) ∧ (driver fresh4 one49).tx.Ok ∧
      0 < (driver fresh4 one49).tx.count ∧ ((ready fresh4 one49 true).port 0).txdEmpty = true) ∧
    ((ready fresh4 fresh4 true).Ready 0 (driver fresh4 fresh4) ∧ (driver fresh4 fresh4).tx.count = 0) := by decide

theorem witness_ReadDequeuesOldestBytes :
    (ready rx41 fresh4 true).Ready 0 (driver rx41 fresh4) ∧ (driver rx41 fresh4).rx.Ok ∧ 65535 ≤ 65535 := by decide

theorem witness_FlagCommandsAnswer : (ready fresh4 fresh4 true).Ready 0 (driver fresh4 fresh4) := by decide

/-- A full ring, one that is not, and no driver. -/
theorem witness_RxcHandlerStoresByte :
    (let s := withPort { configured rx123 fresh4 false with rxHold := some 4 } true
     s.RxcReady 0 4 ∧ ∃ d ∈ (s.port 0).reg, d.rx.Ok ∧ d.rx.count = d.rx.N) ∧
    (let s := withPort { configured rx41 fresh4 false with rxHold := some 4 } true
     s.RxcReady 0 4 ∧ ∃ d ∈ (s.port 0).reg, d.rx.Ok ∧ d.rx.count ≠ d.rx.N) ∧
    (let s := withPort { configured rx41 fresh4 false with rxHold := some 4, reg := none } true
     s.RxcReady 0 4 ∧ (s.port 0).reg = none) := by
  refine ⟨⟨by decide, _, rfl, by decide⟩, ⟨by decide, _, rfl, by decide⟩, by decide⟩

theorem witness_UdreHandlerFeedsOrDisables :
    (let s := withPort (configured fresh4 one49 true) true
     s.UdreReady 0 ∧ ∃ d ∈ (s.port 0).reg, d.tx.Ok ∧ 0 < d.tx.count) ∧
    (let s := withPort (configured fresh4 fresh4 true) true
     s.UdreReady 0 ∧ ∃ d, (s.port 0).reg = some d ∧ d.tx.count = 0) ∧
    (let s := withPort { configured fresh4 fresh4 true with reg := none } true
     s.UdreReady 0 ∧ (s.port 0).reg = none) := by
  refine ⟨⟨by decide, _, rfl, by decide⟩, ⟨by decide, _, rfl, by decide⟩, by decide⟩

theorem witness_EventsNeedTheirConditions :
    State.reset.fault = none ∧ (∀ b, ¬ State.reset.RxcReady 0 b) ∧ ¬ State.reset.UdreReady 0 := by
  refine ⟨rfl, fun b h => ?_, by decide⟩
  exact absurd h.2.2.1 (by decide)

/-- A state whose other indices are as at reset meets the invariant if index 0 is sound. -/
theorem inv_of_port0 {s : State} (h0 : (s.port 0).Ok s.cfg) (hr : Port.reset.Ok s.cfg)
    (hn : ∀ i : Idx, i ≠ 0 → s.port i = Port.reset) (hz : s.present 0)
    (hp : ∀ p ∈ s.pending, s.present p.idx ∧ (s.port p.idx).reg.isSome = true) : s.Inv := by
  refine ⟨fun i => ?_, fun i hi => hn i ?_, hp⟩
  · by_cases h : i = 0
    · rw [h]; exact h0
    · rw [hn i h]; exact hr
  · rintro rfl; exact hi hz

theorem witness_EmptySlotDeliversNoEvent :
    (State.reset.setI true).Inv ∧ (State.reset.setI true).fault = none ∧ ((State.reset.setI true).port 0).reg = none :=
  ⟨inv_of_port0 (by decide) (by decide) (by decide) (by decide) (by decide), by decide, by decide⟩

theorem witness_HandlersWriteNoControlFieldButUdrie :
    Instr.isEvent (.evUdre 0) = true ∧
    ∃ t, exec (.evUdre 0) (withPort (configured fresh4 fresh4 true) true) = .next t ∧
      (t.port 0).ctrlB.udrie = false := ⟨rfl, _, rfl, by decide⟩

theorem witness_DrainProgress :
    let s := (withPort (configured fresh4 full4 true) true).setSched (drainSchedule 0 4)
    s.UdreReady 0 ∧ (s.port 0).ctrlB.txen = true ∧
      ∃ d, (s.port 0).reg = some d ∧ d.tx.Ok ∧ d.tx.count = 4 ∧ s.sched = drainSchedule 0 d.tx.count :=
  ⟨by decide, by decide, _, rfl, by decide, rfl, rfl⟩

/-- A run without an end: the UDRE event and the drain of index 0 by turns, from a ring of one byte. -/
def fairTurn (n : Nat) : Turn := if n % 2 = 0 then .dispatch 0xD000 else .txDrain 0

/-- The state after a turn with no command. -/
def afterTurn (s : State) (τ : Turn) : State :=
  match step (s.facing τ none) with
  | .next t => t
  | _ => s

/-- Its states: the byte is sent, drained, the path goes Idle, and nothing changes from then on. -/
def fairSent : State := afterTurn (withPort (configured fresh4 one49 true) true) (.dispatch 0xD000)
def fairDrained : State := afterTurn fairSent (.txDrain 0)
def fairIdle : State := afterTurn fairDrained (.dispatch 0xD000)
def fairState : Nat → State
  | 0 => withPort (configured fresh4 one49 true) true
  | 1 => fairSent
  | 2 => fairDrained
  | _ + 3 => fairIdle

theorem fairState_idle_udre :
    step ((fairState 3).facing (.dispatch 0xD000) none) = .next (fairState 3) := rfl
theorem fairState_idle_drain : step ((fairState 3).facing (.txDrain 0) none) = .next (fairState 3) := rfl

theorem witness_DrainProgress_fair_run :
    IsRun fairTurn (fun _ => none) fairState ∧ (∀ n, fairTurn n ≠ .reset) ∧
    FairFor fairTurn fairState (.dispatch (encodeWord (.evUdre 0))) ∧ FairFor fairTurn fairState (.txDrain 0) ∧
    (fairState 0).pending = none ∧ (fairState 0).I = true ∧ (fairState 0).present 0 ∧
    (∃ d, ((fairState 0).port 0).reg = some d ∧ d.tx.Ok ∧ d.tx.count = 1) ∧
    ((fairState 0).port 0).txPath = .draining ∧ ((fairState 0).port 0).ctrlB.txen = true ∧
    ((fairState 3).port 0).txPath = .idle ∧ ((fairState 3).port 0).lineOut = [0x49] := by
  refine ⟨fun n => ?_, fun n => ?_, fun n _ => ⟨2 * n, by omega, ?_⟩, fun n _ => ⟨2 * n + 1, by omega, ?_⟩,
    rfl, rfl, by decide, ⟨_, rfl, by decide, rfl⟩, by decide, by decide, by decide, by decide⟩
  · match n with
    | 0 => rfl
    | 1 => rfl
    | 2 => rfl
    | k + 3 =>
      unfold fairTurn
      split
      · exact fairState_idle_udre
      · exact fairState_idle_drain
  · unfold fairTurn
    split <;> simp
  · rw [fairTurn, if_pos (by omega)]; rfl
  · rw [fairTurn, if_neg (by omega)]

/-- Turns that are enabled and turns that are not (R166). -/
theorem test_enabled :
    (fairState 0).enabled (.dispatch 0xD000) = true ∧ (fairState 0).enabled (.txDrain 0) = false ∧
    (fairState 1).enabled (.dispatch 0xD000) = false ∧ (fairState 1).enabled (.txDrain 0) = true ∧
    (fairState 0).enabled (.rxArrive 0 1) = true ∧ (fairState 0).enabled .foreground = false ∧
    State.reset.enabled (.rxArrive 0 1) = false ∧ halted.enabled .foreground = false := by decide

theorem witness_ReceiveArrivalAndRead :
    (let s := (withPort (configured fresh4 fresh4 false) true).setSched [.rxArrive 0 0x41]
     s.fault = none ∧ s.sched = [.rxArrive 0 0x41] ∧ s.present 0 ∧ (s.port 0).ctrlB.rxen = true ∧
      (s.port 0).rxHold = none) ∧
    (let s := (withPort { configured fresh4 fresh4 false with rxHold := some 1 } true).setSched [.rxArrive 0 2]
     s.fault = none ∧ s.sched = [.rxArrive 0 2] ∧ s.present 0 ∧ (s.port 0).ctrlB.rxen = true ∧
      (s.port 0).rxHold = some 1) ∧
    (let s := State.reset.setSched [.rxArrive 0 2]
     s.fault = none ∧ s.sched = [.rxArrive 0 2] ∧ (s.port 0).ctrlB.rxen = false) := by decide

theorem witness_TransmitWriteOrBusyChoice :
    (State.reset.port 0).txdEmpty = true ∧
    ((State.reset.setPort 0 { Port.reset with txdEmpty := false }).port 0).txdEmpty = false := by decide

theorem witness_TransmitDrainAppendsToLine :
    (let s := (withPort { configured fresh4 fresh4 true with txdEmpty := false } true).setSched [.txDrain 0]
     s.fault = none ∧ s.sched = [.txDrain 0] ∧ s.present 0 ∧ (s.port 0).txdEmpty = false ∧
      (s.port 0).ctrlB.txen = true) ∧
    (let s := (withPort { Port.reset with txdEmpty := false } true).setSched [.txDrain 0]
     s.fault = none ∧ s.sched = [.txDrain 0] ∧ s.present 0 ∧ (s.port 0).txdEmpty = false ∧
      (s.port 0).ctrlB.txen = false) ∧
    (let s := State.reset.setSched [.txDrain 0]
     s.fault = none ∧ s.sched = [.txDrain 0] ∧ (s.port 0).txdEmpty = true) := by decide

theorem witness_HardwareFaultSetsBad :
    (let s := (ready fresh4 fresh4 true).setSched [.hwFault 0]
     s.Ready 0 (driver fresh4 fresh4) ∧ s.sched = [.hwFault 0] ∧ s.cfg.badSource = false) ∧
    (let s : State := { (ready fresh4 fresh4 true).setSched [.hwFault 0] with
       cfg := ⟨{ Params.fixture with badSource := true }, by decide⟩ }
     s.Ready 0 (driver fresh4 fresh4) ∧ s.sched = [.hwFault 0] ∧ s.cfg.badSource = true) ∧
    (let s := State.reset.setSched [.hwFault 0]
     s.fault = none ∧ s.sched = [.hwFault 0] ∧ (s.port 0).reg = none) := by decide

/-- A hardware fault that sets the flag, a step that keeps it, a new driver. -/
theorem witness_HardwareFaultSetsBad_whole_machine :
    (let s : State := { (ready fresh4 fresh4 true).setSched [.hwFault 0] with
       cfg := ⟨{ Params.fixture with badSource := true }, by decide⟩ }
     ∃ t, step s = .next t ∧ (s.port 0).reg.map Driver.bad = some false ∧
      (t.port 0).reg.map Driver.bad = some true) ∧
    (let s := ((withDriver { driver fresh4 fresh4 with bad := true } true).setProgram [⟨0x7001, .zero⟩]).setSched
       [.foreground]
     ∃ t, step s = .next t ∧ (s.port 0).reg.map Driver.bad = some true ∧
      (t.port 0).reg.map Driver.bad = some true) ∧
    (let s := issuing 0x1000 { Operands.zero with nRx := 4, nTx := 4 }
     ∃ t, step s = .next t ∧ (s.port 0).reg = none ∧ (t.port 0).reg.isSome = true) :=
  ⟨⟨_, rfl, by decide, by decide⟩, ⟨_, rfl, by decide, by decide⟩, ⟨_, rfl, by decide, by decide⟩⟩

theorem witness_LineGrowsOnlyByDrain :
    (∃ t, step ((withPort { configured fresh4 fresh4 true with txdEmpty := false } true).setSched [.txDrain 0]) = .next t ∧
      (t.port 0).lineOut = [0]) ∧
    (∃ t, step (State.reset.setSched [.reset]) = .next t) ∧ (State.reset.setSched [.reset]).resets :=
  ⟨⟨_, rfl, by decide⟩, ⟨_, rfl⟩, by decide⟩

theorem witness_ResetSetsEveryElement :
    (State.reset.setSched [.reset]).resets ∧ (halted.setSched [.reset]).resets := by decide

/-- From a configured state: a command, an event and a WRITE's second phase. -/
theorem witness_StepKeepsInvariant :
    (let s := ((withPort (configured fresh4 one49 true) true).setProgram [⟨0x6000, .zero⟩]).setSched [.foreground]
     s.Inv ∧ ∃ t, step s = .next t) ∧
    (let s := (withPort (configured fresh4 one49 true) true).setSched [.dispatch 0xD000]
     s.Inv ∧ ∃ t, step s = .next t) ∧
    (let s := ((withPort (configured fresh4 one49 true) true).setPending (some ⟨0, 1⟩)).setSched [.foreground]
     s.Inv ∧ ∃ t, step s = .next t) :=
  ⟨⟨inv_of_port0 (by decide) (by decide) (by decide) (by decide) (by decide), _, rfl⟩,
    ⟨inv_of_port0 (by decide) (by decide) (by decide) (by decide) (by decide), _, rfl⟩,
    ⟨inv_of_port0 (by decide) (by decide) (by decide) (by decide) (by decide), _, rfl⟩⟩

/-- A handler on a full ring, a second phase and an issued command that faults. -/
theorem witness_SoundStateStepsWithoutSlotFault :
    (let s := (withPort { configured rx123 one49 true with rxHold := some 4 } true).setSched [.dispatch 0xC000]
     s.Inv ∧ s.fault = none) ∧
    (let s := ((withPort (configured fresh4 one49 true) true).setPending (some ⟨0, 1⟩)).setSched [.foreground]
     s.Inv ∧ s.fault = none) ∧
    (let s := ((withPort (configured fresh4 full4 true) true).setProgram [⟨0xA000, .zero⟩]).setSched [.foreground]
     s.Inv ∧ s.fault = none ∧ ∃ t, step s = .next t ∧ t.fault = some (.unguardedAccess 0xA000)) :=
  ⟨⟨inv_of_port0 (by decide) (by decide) (by decide) (by decide) (by decide), rfl⟩,
    ⟨inv_of_port0 (by decide) (by decide) (by decide) (by decide) (by decide), rfl⟩,
    ⟨inv_of_port0 (by decide) (by decide) (by decide) (by decide) (by decide), rfl, _, rfl, by decide⟩⟩

theorem witness_CommandsTouchOnlyTheirIndex :
    (∃ t, exec (.flush 0) (ready fresh4 one49 true) = .next t) ∧ Instr.idx? (.flush 0) ≠ some 1 ∧
    (∃ t, exec .csEnter State.reset = .next t) ∧ Instr.idx? .csEnter ≠ some 0 :=
  ⟨⟨_, rfl⟩, by decide, ⟨_, rfl⟩, by decide⟩

theorem witness_FormsThatStoreNothing :
    (∃ t, exec (.read 0 4) (ready rx41 fresh4 true) = .next t ∧ t.slot 0 .rx 0 = some 0x41) ∧
    (∃ t, exec (.construct 1 4 4) (ready rx41 fresh4 true) = .next t ∧ t.slot 0 .rx 0 = some 0x41) ∧
    (∃ t, exec (.destruct 0) (ready rx41 fresh4 true) = .next t) :=
  ⟨⟨_, rfl, by decide⟩, ⟨_, rfl, by decide⟩, ⟨_, rfl⟩⟩

/-- An eviction, an OVF_CLEAR and a new driver. -/
theorem witness_OverwrittenSetByEvictionClearedByCommand :
    (let s := (withPort { configured rx123 fresh4 false with rxHold := some 4 } true).setSched [.dispatch 0xC000]
     ∃ t, step s = .next t ∧ (s.port 0).reg.map Driver.overwritten = some false ∧
      (t.port 0).reg.map Driver.overwritten = some true) ∧
    (let s := ((withDriver { driver fresh4 fresh4 with overwritten := true } true).setProgram [⟨0x7001, .zero⟩]).setSched
       [.foreground]
     ∃ t, step s = .next t ∧ (s.port 0).reg.map Driver.overwritten = some true ∧
      (t.port 0).reg.map Driver.overwritten = some false) ∧
    (let s := issuing 0x1000 { Operands.zero with nRx := 4, nTx := 4 }
     ∃ t, step s = .next t ∧ (s.port 0).reg = none ∧ (t.port 0).reg.isSome = true) ∧
    (ready fresh4 fresh4 true).Ready 0 (driver fresh4 fresh4) :=
  ⟨⟨_, rfl, by decide, by decide⟩, ⟨_, rfl, by decide, by decide⟩, ⟨_, rfl, by decide, by decide⟩, by decide⟩

theorem witness_DivisorWrittenOnlyByConfigure :
    let s := ((ready fresh4 fresh4 true).setProgram [⟨0x3000, { Operands.zero with baud := 115200 }⟩]).setSched
      [.foreground]
    ∃ t, step s = .next t ∧ ¬ s.resets ∧ (t.port 0).div ≠ (s.port 0).div ∧ (t.port 0).u2x ≠ (s.port 0).u2x :=
  ⟨_, rfl, by decide, by decide, by decide⟩

/-- A FLUSH that starts a drain, a UDRE event that ends it. -/
theorem witness_TxPathTransitions :
    (let s := ((withPort (configured fresh4 one49 false) true).setProgram [⟨0x6000, .zero⟩]).setSched [.foreground]
     ∃ t, step s = .next t ∧ ¬ s.resets ∧ (s.port 0).txPath = .idle ∧ (t.port 0).txPath = .draining) ∧
    (let s := (withPort (configured fresh4 fresh4 true) true).setSched [.dispatch 0xD000]
     ∃ t, step s = .next t ∧ ¬ s.resets ∧ (s.port 0).txPath = .draining ∧ (t.port 0).txPath = .idle) :=
  ⟨⟨_, rfl, by decide, by decide, by decide⟩, ⟨_, rfl, by decide, by decide, by decide⟩⟩

end Sys2Proof.Tests
end

section
/-! SUPPORT. What the ring operations keep, what an instruction's effect does to the fields of an index, and how a step
can leave one index, each said once. -/

namespace Sys2Proof.Machine

/-! ### The ring operations keep a sound ring sound (R95) -/

theorem Ring.fresh_ok {n : Nat} (h1 : 1 ≤ n) (h2 : n ≤ 65535) : (Ring.fresh n).Ok :=
  ⟨⟨h1, h2⟩, Nat.zero_le n, ⟨h1, h1⟩, (Nat.zero_mod n).symm, fun j hj => absurd hj (Nat.not_lt_zero j),
    List.Pairwise.nil, fun _ hc => absurd hc List.not_mem_nil⟩

theorem Ring.Ok.push {r r' : Ring} {b : Byte} (h : r.Ok) (hc : r.count ≠ r.N) (hp : ringPush r b = .ok r') : r'.Ok := by
  obtain ⟨r₁, hp₁, hok, -⟩ := ringPush_ok h (Nat.lt_of_le_of_ne h.2.1 hc) b
  rw [hp] at hp₁
  cases hp₁
  exact hok

theorem Ring.Ok.pop {r r' : Ring} {b : Byte} (h : r.Ok) (hc : 0 < r.count) (hp : ringPop r = .ok (b, r')) : r'.Ok := by
  obtain ⟨c, r₁, hp₁, hok, -⟩ := ringPop_ok h hc
  rw [hp] at hp₁
  cases hp₁
  exact hok

theorem Ring.Ok.pushMany {r r' : Ring} {bs : List Byte} {k : Nat} (h : r.Ok) (hp : ringPushMany r bs = .ok (k, r')) :
    r'.Ok := by
  obtain ⟨r₁, hp₁, hok, -⟩ := ringPushMany_ok h bs
  rw [hp] at hp₁
  cases hp₁
  exact hok

theorem Ring.Ok.popMany {r r' : Ring} {out : List Byte} {k : Nat} (h : r.Ok) (hk : k ≤ r.count)
    (hp : ringPopMany r k = .ok (out, r')) : r'.Ok := by
  obtain ⟨r₁, hp₁, hok, -⟩ := ringPopMany_ok h hk
  rw [hp] at hp₁
  cases hp₁
  exact hok

theorem Ring.Ok.pushOverwrite {r r' : Ring} {b : Byte} {e : Bool} (h : r.Ok)
    (hp : ringPushOverwrite r b = .ok (e, r')) : r'.Ok := by
  obtain ⟨r₁, hp₁, hok, -⟩ := ringPushOverwrite_ok h b
  rw [hp] at hp₁
  cases hp₁
  exact hok

/-! ### The transmit write, field by field -/

/-- A transmit write touches the transmit register of one index only. -/
theorem port_txdWrite (i : Idx) (b : Byte) (s : State) (j : Idx) :
    ∃ v e, (txdWrite i b s).port j = { s.port j with txdReg := v, txdEmpty := e } := by
  by_cases h : j = i
  · subst h
    obtain ⟨v, hv, -, -⟩ := port_txdWrite_same j b s
    exact ⟨v, false, hv⟩
  · exact ⟨(s.port j).txdReg, (s.port j).txdEmpty, port_txdWrite_ne b s h⟩

@[simp] theorem txdWrite_reg (i : Idx) (b : Byte) (s : State) (j : Idx) :
    ((txdWrite i b s).port j).reg = (s.port j).reg := by
  obtain ⟨v, e, h⟩ := port_txdWrite i b s j; rw [h]
@[simp] theorem txdWrite_u2x (i : Idx) (b : Byte) (s : State) (j : Idx) :
    ((txdWrite i b s).port j).u2x = (s.port j).u2x := by
  obtain ⟨v, e, h⟩ := port_txdWrite i b s j; rw [h]
@[simp] theorem txdWrite_ctrlB (i : Idx) (b : Byte) (s : State) (j : Idx) :
    ((txdWrite i b s).port j).ctrlB = (s.port j).ctrlB := by
  obtain ⟨v, e, h⟩ := port_txdWrite i b s j; rw [h]
@[simp] theorem txdWrite_ctrlC (i : Idx) (b : Byte) (s : State) (j : Idx) :
    ((txdWrite i b s).port j).ctrlC = (s.port j).ctrlC := by
  obtain ⟨v, e, h⟩ := port_txdWrite i b s j; rw [h]
@[simp] theorem txdWrite_div (i : Idx) (b : Byte) (s : State) (j : Idx) :
    ((txdWrite i b s).port j).div = (s.port j).div := by
  obtain ⟨v, e, h⟩ := port_txdWrite i b s j; rw [h]
@[simp] theorem txdWrite_lineOut (i : Idx) (b : Byte) (s : State) (j : Idx) :
    ((txdWrite i b s).port j).lineOut = (s.port j).lineOut := by
  obtain ⟨v, e, h⟩ := port_txdWrite i b s j; rw [h]

/-! ### An instruction seen from one index -/

/-- The index whose receive register the handler has taken (R153, R172 b). -/
theorem port_rxcTaken (s : State) (i : Idx) : (rxcTaken s i).port i = { s.port i with rxHold := none } :=
  s.port_setPort_same i _

/-- What delivering the RXC event asks (R150). -/
theorem rxcDeliverable_iff {i : Idx} {s : State} : rxcDeliverable i s = true ↔
    s.present i ∧ s.I = true ∧ (s.port i).ctrlB.rxcie = true ∧ (s.port i).rxcPending = true := by
  simp [rxcDeliverable, and_assoc]

/-- What delivering the UDRE event asks (R151). -/
theorem udreDeliverable_iff {i : Idx} {s : State} : udreDeliverable i s = true ↔
    s.present i ∧ s.I = true ∧ (s.port i).ctrlB.udrie = true ∧ (s.port i).udrePending = true := by
  simp [udreDeliverable, and_assoc]

/-- The index an effect acts on exists (R77). -/
theorem Effect.present {s t : State} {ins : Instr} (h : Effect s ins t) {i : Idx} (hi : ins.idx? = some i) :
    s.present i := by
  cases h <;> cases hi
  case rxcDiscard => exact (rxcDeliverable_iff.1 ‹_›).1
  case rxcStore => exact (rxcDeliverable_iff.1 ‹_›).1
  case udreSend => exact (udreDeliverable_iff.1 ‹_›).1
  case udreDisable => exact (udreDeliverable_iff.1 ‹_›).1
  all_goals assumption

/-- An instruction that answers a next state leaves every index, the pending WRITE and the save stack, or has its own
effect. -/
theorem exec_same_or_effect {s t : State} {ins : Instr} (h : exec ins s = .next t) :
    ((∀ j, t.port j = s.port j) ∧ t.pending = s.pending ∧ t.csStack = s.csStack) ∨ Effect s ins t := by
  obtain ⟨-, h⟩ := exec_ended h
  cases h with
  | idle _ h => subst h; exact .inl ⟨fun _ => rfl, rfl, rfl⟩
  | raised f h => subst h; exact .inl ⟨fun _ => rfl, rfl, rfl⟩
  | error e _ h => subst h; exact .inl ⟨fun _ => rfl, rfl, rfl⟩
  | effect h => exact .inr h

/-- No effect writes the line of an index (R40). -/
theorem Effect.lineOut {s t : State} {ins : Instr} (h : Effect s ins t) (j : Idx) :
    (t.port j).lineOut = (s.port j).lineOut := by
  by_cases hj : ins.idx? = some j
  case neg => rw [h.port_ne hj]
  case pos => cases h <;> cases hj <;> simp [rxcTaken, Machine.flushSent, configurePort]

/-- The divisor of a match fits DIV, so DIV holds exactly it (R108, R113). -/
theorem toNat_divisor {c : Config} {baud div : Nat} {dbl : Bool} (h : select c.baudLut baud = some (div, dbl)) :
    (BitVec.ofNat divW div).toNat = div := by
  rw [BitVec.toNat_ofNat, Nat.mod_eq_of_lt (select_divisor_lt c h)]

/-- Only a CONFIGURE writes DIV and U2X, and it writes what `select` answers (R34, R35, R113). -/
theorem Effect.divisor {s t : State} {ins : Instr} (h : Effect s ins t) (j : Idx) :
    ((t.port j).div = (s.port j).div ∧ (t.port j).u2x = (s.port j).u2x) ∨
      ∃ par stb baud, ins = .configure j par stb baud ∧
        select s.cfg.baudLut baud = some ((t.port j).div.toNat, (t.port j).u2x) := by
  by_cases hj : ins.idx? = some j
  case neg => rw [h.port_ne hj]; exact .inl ⟨rfl, rfl⟩
  case pos =>
    cases h <;> cases hj
    case configure par stb baud d div dbl _ _ _ _ _ =>
      have hsel : select s.cfg.baudLut baud = some (div, dbl) := ‹_›
      exact .inr ⟨par, stb, baud, rfl, by rw [hsel]; simp [configurePort, toNat_divisor hsel, -BitVec.toNat_ofNat]⟩
    all_goals exact .inl (by simp [rxcTaken, Machine.flushSent])

/-- A driver that an effect puts into an empty slot is a fresh one (R43, R118). -/
theorem Effect.driver_new {s t : State} {ins : Instr} (h : Effect s ins t) {j : Idx} {d' : Driver}
    (hs : (s.port j).reg = none) (ht : (t.port j).reg = some d') : ∃ nRx nTx, d' = Driver.fresh nRx nTx := by
  by_cases hj : ins.idx? = some j
  case neg => rw [h.port_ne hj, hs] at ht; cases ht
  case pos =>
    cases h <;> cases hj
    case construct nRx nTx _ _ _ => exact ⟨nRx, nTx, by simpa using ht.symm⟩
    all_goals simp_all [rxcTaken]

/-- An eviction is reported of a full ring only (R87). -/
theorem full_of_evicted {r r' : Ring} {b : Byte} (h : ringPushOverwrite r b = .ok (true, r')) : r.count = r.N := by
  by_cases hc : r.count = r.N
  case pos => exact hc
  case neg =>
    simp only [ringPushOverwrite, hc, if_false] at h
    split at h <;> simp at h

/-- What an effect does to the flags of a driver that stays: `bad` is kept; `overwritten` is kept, or cleared by
OVF_CLEAR, or set by EV_RXC on a full ring (R27, R28). -/
theorem Effect.driver_flags {s t : State} {ins : Instr} (h : Effect s ins t) {j : Idx} {d d' : Driver}
    (hs : (s.port j).reg = some d) (ht : (t.port j).reg = some d') :
    d'.bad = d.bad ∧
      (d'.overwritten = d.overwritten ∨ (ins = .ovfClear j ∧ d'.overwritten = false) ∨
        (ins = .evRxc j ∧ d.rx.count = d.rx.N ∧ d'.overwritten = true)) := by
  by_cases hj : ins.idx? = some j
  case neg =>
    rw [h.port_ne hj, hs] at ht
    cases ht
    exact ⟨rfl, .inl rfl⟩
  case pos =>
    cases h <;> cases hj
    case rxcStore b e ev rx _ _ _ _ =>
      have he : (s.port j).reg = some e := ‹_›
      have hpush : ringPushOverwrite e.rx b = .ok (ev, rx) := ‹_›
      obtain rfl : e = d := Option.some.inj (he.symm.trans hs)
      obtain rfl : _ = d' := by simpa using ht
      cases ev with
      | false => simp
      | true => simp [full_of_evicted hpush]
    case construct => simp_all
    case destruct => simp_all
    all_goals
      obtain rfl : _ = d' := by simpa [rxcTaken, Machine.flushSent, configurePort, hs] using ht
      simp_all

/-! ### A step seen from one index -/

/-- How a step that answers `t` can leave index `i`. -/
inductive PortStepped (s t : State) (i : Idx) : Prop where
  /-- the step leaves the index -/
  | same : t.port i = s.port i → PortStepped s t i
  /-- the foreground issued a command and it had its effect -/
  | command (w : Word) (o : Operands) (rest : List Command) (turns : List Turn) (ins : Instr) :
      s.Issues w o rest turns → decode w o = .ok ins → ins.isEvent = false →
      Effect ((s.setSched turns).setProgram rest) ins t → PortStepped s t i
  /-- the dispatcher delivered an event and it had its effect -/
  | event (w : Word) (turns : List Turn) (ins : Instr) : s.sched = .dispatch w :: turns →
      decode w .zero = .ok ins → ins.isEvent = true → Effect (s.setSched turns) ins t → PortStepped s t i
  /-- the second phase of a WRITE: the tx ring, UDRIE and the transmit register may change -/
  | phase2 (d : Driver) (tx : Ring) (u : Bool) (v : Byte) (e : Bool) : (s.port i).reg = some d →
      (d.tx.Ok → tx.Ok) →
      t.port i = { s.port i with
        reg := some { d with tx := tx }
        ctrlB := { (s.port i).ctrlB with udrie := u }
        txdReg := v
        txdEmpty := e } → PortStepped s t i
  /-- RX_ARRIVE -/
  | rxArrive (b : Byte) : s.present i → t.port i = { s.port i with rxHold := some b } → PortStepped s t i
  /-- TX_DRAIN -/
  | txDrain (l : List Byte) : s.sched.head? = some (.txDrain i) → s.present i →
      (l = (s.port i).lineOut ∨ l = (s.port i).lineOut ++ [(s.port i).txdReg]) →
      t.port i = { s.port i with lineOut := l, txdEmpty := true } → PortStepped s t i
  /-- HW_FAULT -/
  | hwFault (d : Driver) : s.sched.head? = some (.hwFault i) → s.cfg.badSource = true → (s.port i).reg = some d →
      t.port i = { s.port i with reg := some { d with bad := true } } → PortStepped s t i
  /-- the reset event -/
  | reset : s.resets → t.port i = Port.reset → PortStepped s t i

/-- WRITE's second phase, seen from one index. -/
theorem port_writePhase2 {p : PendingWrite} {s t : State} (h : writePhase2 p s = .next t) (i : Idx) :
    t.port i = s.port i ∨ ∃ d tx u v e, (s.port i).reg = some d ∧ (d.tx.Ok → tx.Ok) ∧
      t.port i = { s.port i with
        reg := some { d with tx := tx }
        ctrlB := { (s.port i).ctrlB with udrie := u }
        txdReg := v
        txdEmpty := e } := by
  rcases writePhase2_ports h with ⟨f, rfl⟩ | ⟨d, b, tx, v, hr, hc, hp, hport, hne, -⟩ | ⟨d, hr, -, hport, hne, -⟩
  · exact .inl rfl
  · by_cases hi : i = p.idx
    · subst hi; exact .inr ⟨d, tx, true, v, false, hr, fun hok => hok.pop hc hp, hport⟩
    · exact .inl (hne i hi)
  · by_cases hi : i = p.idx
    · subst hi
      exact .inr ⟨d, d.tx, false, (s.port p.idx).txdReg, (s.port p.idx).txdEmpty, hr, id, by rw [hport, ← hr]⟩
    · exact .inl (hne i hi)

/-- An arrival, seen from one index. -/
theorem port_rxArrive (j : Idx) (b : Byte) (s : State) (i : Idx) :
    (rxArrive j b s).port i = s.port i ∨
      (s.present i ∧ (rxArrive j b s).port i = { s.port i with rxHold := some b }) := by
  by_cases hi : i = j
  · subst hi
    rcases rxArrive_cases i b s with h | ⟨hp, h | h | h⟩
    · exact .inl (by rw [h])
    · exact .inl (by rw [h]; rfl)
    · exact .inr ⟨hp, by rw [h]; simp⟩
    · exact .inr ⟨hp, by rw [h]; simp⟩
  · rcases rxArrive_cases j b s with h | ⟨-, h | h | h⟩ <;> rw [h] <;> simp [hi]

/-- A drain, seen from one index. -/
theorem port_txDrain (j : Idx) (s : State) (i : Idx) :
    (txDrain j s).port i = s.port i ∨
      (i = j ∧ s.present i ∧ ∃ l, (l = (s.port i).lineOut ∨ l = (s.port i).lineOut ++ [(s.port i).txdReg]) ∧
        (txDrain j s).port i = { s.port i with lineOut := l, txdEmpty := true }) := by
  by_cases hi : i = j
  · subst hi
    rcases txDrain_cases i s with h | ⟨hp, l, hl, h | h⟩
    · exact .inl (by rw [h])
    · exact .inr ⟨rfl, hp, l, hl, by rw [h]; simp⟩
    · exact .inr ⟨rfl, hp, l, hl, by rw [h]; simp⟩
  · rcases txDrain_cases j s with h | ⟨-, l, -, h | h⟩ <;> rw [h] <;> simp [hi]

/-- A hardware fault, seen from one index. -/
theorem port_hwFault (j : Idx) (s : State) (i : Idx) :
    (hwFault j s).port i = s.port i ∨
      (i = j ∧ s.cfg.badSource = true ∧ ∃ d, (s.port i).reg = some d ∧
        (hwFault j s).port i = { s.port i with reg := some { d with bad := true } }) := by
  rcases hwFault_cases j s with h | ⟨d, -, hb, hr, h⟩
  · exact .inl (by rw [h])
  · by_cases hi : i = j
    · subst hi; exact .inr ⟨rfl, hb, d, hr, by rw [h]; simp⟩
    · exact .inl (by rw [h]; simp [hi])

/-- Every step, seen from one index. -/
theorem step_port {s t : State} (h : step s = .next t) (i : Idx) : PortStepped s t i := by
  cases step_next h with
  | wait _ _ h => subst h; exact .same rfl
  | idle _ _ _ _ _ h => subst h; exact .same rfl
  | illegal _ _ _ _ _ h => subst h; exact .same rfl
  | command w o rest turns ins hi hd he hx =>
    rcases exec_same_or_effect hx with ⟨hsame, -⟩ | hx
    · exact .same (hsame i)
    · exact .command w o rest turns ins hi hd he hx
  | phase2 p turns _ _ _ hx =>
    rcases port_writePhase2 hx i with h | ⟨d, tx, u, v, e, hr, hok, h⟩
    · exact .same h
    · exact .phase2 d tx u v e hr hok h
  | event w turns ins _ hs hd he hx =>
    rcases exec_same_or_effect hx with ⟨hsame, -⟩ | hx
    · exact .same (hsame i)
    · exact .event w turns ins hs hd he hx
  | rxArrive j b turns _ _ h =>
    subst h
    rcases port_rxArrive j b (s.setSched turns) i with h | ⟨hp, h⟩
    · exact .same h
    · exact .rxArrive b hp h
  | txDrain j turns _ hs h =>
    subst h
    rcases port_txDrain j (s.setSched turns) i with h | ⟨rfl, hp, l, hl, h⟩
    · exact .same h
    · exact .txDrain l (by rw [hs]; rfl) hp hl h
  | hwFault j turns _ hs h =>
    subst h
    rcases port_hwFault j (s.setSched turns) i with h | ⟨rfl, hb, d, hr, h⟩
    · exact .same h
    · exact .hwFault d (by rw [hs]; rfl) hb hr h
  | reset turns hs h => subst h; exact .reset (by rw [State.resets, hs]; rfl) (port_resetEvent _ i)

end Sys2Proof.Machine
end

section
/-! What every step keeps of the state of 10_state.md, or who alone may write it: the parameters (R20), the save stack
(R22), the flags of a driver (R27, R28), DIV and U2X (R34, R35), the control images (R36), the line (R40). -/

namespace Sys2Proof.Machine

/-- Settles O30: each kind of step keeps the parameters. -/
theorem parametersNeverChange : Obligations.ParametersNeverChange := by
  intro s t h
  cases step_next h with
  | wait _ _ h => rw [h]
  | idle _ _ _ _ _ h => rw [h]; rfl
  | illegal _ _ _ _ _ h => rw [h]; rfl
  | command _ _ _ _ _ _ _ _ hx => exact (exec_cfg hx).trans rfl
  | phase2 _ _ _ _ _ hx => exact (writePhase2_frame hx).2.2
  | event _ _ _ _ _ _ _ hx => exact (exec_cfg hx).trans rfl
  | rxArrive i b _ _ _ h => rw [h]; exact (rxArrive_frame i b _).2.2
  | txDrain i _ _ _ h => rw [h]; exact (txDrain_frame i _).2.2
  | hwFault i _ _ _ h => rw [h]; exact (hwFault_frame i _).2.2
  | reset _ _ h => rw [h]; rfl

/-- An event's effect leaves the save stack (R105). -/
theorem Effect.csStack_of_event {s t : State} {ins : Instr} (h : Effect s ins t) (he : ins.isEvent = true) :
    t.csStack = s.csStack := by
  rcases h.csStack with ⟨hk, -⟩ | ⟨rfl, -⟩ | ⟨rfl, -⟩
  · exact hk
  · cases he
  · cases he

/-- Settles O22: of the commands only CS_ENTER and CS_EXIT write the save stack, and no other step does. -/
theorem csStackChangesOnlyByEnterAndExit : Obligations.CsStackChangesOnlyByEnterAndExit := by
  intro s t h hr
  cases step_next h with
  | wait _ _ h => exact .inl (by rw [h])
  | idle _ _ _ _ _ h => exact .inl (by rw [h]; rfl)
  | illegal _ _ _ _ _ h => exact .inl (by rw [h]; rfl)
  | command w o rest turns ins hi hd _ hx =>
    rcases exec_same_or_effect hx with ⟨-, -, hk⟩ | hx
    · exact .inl hk
    · rcases hx.csStack with ⟨hk, -⟩ | ⟨rfl, hk, hI⟩ | ⟨rfl, hk⟩
      · exact .inl hk
      · exact .inr (.inl ⟨w, o, rest, turns, hi, hd, hk, hI⟩)
      · exact .inr (.inr ⟨w, o, rest, turns, hi, hd, hk⟩)
  | phase2 _ _ _ _ _ hx => exact .inl (writePhase2_frame hx).1
  | event _ _ _ _ _ _ he hx =>
    rcases exec_same_or_effect hx with ⟨-, -, hk⟩ | hx
    · exact .inl hk
    · exact .inl (hx.csStack_of_event he)
  | rxArrive i b _ _ _ h => exact .inl (by rw [h]; exact (rxArrive_frame i b _).1)
  | txDrain i _ _ _ h => exact .inl (by rw [h]; exact (txDrain_frame i _).1)
  | hwFault i _ _ _ h => exact .inl (by rw [h]; exact (hwFault_frame i _).1)
  | reset _ hs _ => exact absurd (by rw [State.resets, hs]; rfl) hr

/-- An event's effect writes no control field but UDRIE, and that only to 0 (R36). -/
theorem Effect.controls_of_event {s t : State} {ins : Instr} (h : Effect s ins t) (he : ins.isEvent = true) (j : Idx) :
    (t.port j).u2x = (s.port j).u2x ∧ (t.port j).div = (s.port j).div ∧ (t.port j).ctrlC = (s.port j).ctrlC ∧
      ((t.port j).ctrlB = (s.port j).ctrlB ∨ (t.port j).ctrlB = { (s.port j).ctrlB with udrie := false }) := by
  by_cases hj : ins.idx? = some j
  case neg => rw [h.port_ne hj]; exact ⟨rfl, rfl, rfl, .inl rfl⟩
  case pos =>
    cases h <;> cases he <;> cases hj
    case rxcDiscard => simp [port_rxcTaken]
    case rxcStore => simp [port_rxcTaken]
    case udreSend => simp
    case udreDisable => simp

/-- Settles O44: an event that is not delivered or raises a fault writes no index, one that is delivered has its effect. -/
theorem handlersWriteNoControlFieldButUdrie : Obligations.HandlersWriteNoControlFieldButUdrie := by
  intro ins s t he h
  rcases exec_same_or_effect h with ⟨hport, -, hk⟩ | hx
  · exact ⟨hk, fun j => by rw [hport j]; exact ⟨rfl, rfl, rfl, .inl rfl⟩⟩
  · exact ⟨hx.csStack_of_event he, hx.controls_of_event he⟩

/-- Settles O50: seen from one index, only the drain writes the line, and a reset empties it. -/
theorem lineGrowsOnlyByDrain : Obligations.LineGrowsOnlyByDrain := by
  refine ⟨fun s t i h hr => ?_, fun s t i h hr => ?_, fun i => by rw [State.reset, State.port_resetWith]; rfl⟩
  · cases step_port h i with
    | same h => exact .inl (by rw [h])
    | command _ _ _ _ _ _ _ _ hx => exact .inl (hx.lineOut i)
    | event _ _ _ _ _ _ hx => exact .inl (hx.lineOut i)
    | phase2 _ _ _ _ _ _ _ h => exact .inl (by rw [h])
    | rxArrive _ _ h => exact .inl (by rw [h])
    | txDrain l hs _ hl h =>
      rw [h]
      exact hl.imp id fun hl => ⟨hs, hl⟩
    | hwFault _ _ _ _ h => exact .inl (by rw [h])
    | reset hr' _ => exact absurd hr' hr
  · obtain ⟨turns, rfl⟩ := step_resets h hr
    rw [port_resetEvent]; rfl

/-- Settles O57: of all steps but a reset only a CONFIGURE's effect writes DIV and U2X. -/
theorem divisorWrittenOnlyByConfigure : Obligations.DivisorWrittenOnlyByConfigure := by
  intro s t i h hr hne
  have changed (h1 : (t.port i).div = (s.port i).div) (h2 : (t.port i).u2x = (s.port i).u2x) : False :=
    hne.elim (fun h => h h1) (fun h => h h2)
  cases step_port h i with
  | same h => exact (changed (by rw [h]) (by rw [h])).elim
  | command w o rest turns ins hi hd _ hx =>
    rcases hx.divisor i with ⟨h1, h2⟩ | ⟨par, stb, baud, rfl, hsel⟩
    · exact (changed h1 h2).elim
    · exact ⟨w, o, rest, turns, par, stb, baud, hi, hd, hsel⟩
  | event w turns ins _ _ he hx =>
    rcases hx.divisor i with ⟨h1, h2⟩ | ⟨par, stb, baud, rfl, -⟩
    · exact (changed h1 h2).elim
    · cases he
  | phase2 _ _ _ _ _ _ _ h => exact (changed (by rw [h]) (by rw [h])).elim
  | rxArrive _ _ h => exact (changed (by rw [h]) (by rw [h])).elim
  | txDrain _ _ _ _ h => exact (changed (by rw [h]) (by rw [h])).elim
  | hwFault _ _ _ _ h => exact (changed (by rw [h]) (by rw [h])).elim
  | reset hr' _ => exact absurd hr' hr

/-! ### The flags of a driver -/

/-- A driver that a step puts into an empty slot is a fresh one (R43). -/
theorem driver_new_of_step {s t : State} {i : Idx} {d' : Driver} (h : step s = .next t) (hs : (s.port i).reg = none)
    (ht : (t.port i).reg = some d') : ∃ nRx nTx, d' = Driver.fresh nRx nTx := by
  cases step_port h i with
  | command _ _ _ _ _ _ _ _ hx => exact hx.driver_new hs ht
  | event _ _ _ _ _ _ hx => exact hx.driver_new hs ht
  | same h => rw [h, hs] at ht; cases ht
  | phase2 _ _ _ _ _ hr _ _ => rw [hs] at hr; cases hr
  | rxArrive _ _ h => rw [h, hs] at ht; cases ht
  | txDrain _ _ _ _ h => rw [h, hs] at ht; cases ht
  | hwFault _ _ _ hr _ => rw [hs] at hr; cases hr
  | reset _ h => rw [h] at ht; cases ht

/-- What a step does to the flags of a driver that stays: `bad` is kept or set by HW_FAULT, `overwritten` is kept, or
cleared by an OVF_CLEAR, or set by an EV_RXC on a full ring (R27, R28). -/
theorem driver_flags_of_step {s t : State} {i : Idx} {d d' : Driver} (h : step s = .next t)
    (hs : (s.port i).reg = some d) (ht : (t.port i).reg = some d') :
    (d'.bad = d.bad ∨ (d'.bad = true ∧ s.sched.head? = some (.hwFault i) ∧ s.cfg.badSource = true)) ∧
      (d'.overwritten = d.overwritten ∨
        (d'.overwritten = false ∧ ∃ w o rest turns, s.Issues w o rest turns ∧ decode w o = .ok (.ovfClear i)) ∨
        (d'.overwritten = true ∧
          ∃ w turns, s.sched = .dispatch w :: turns ∧ decode w .zero = .ok (.evRxc i) ∧ d.rx.count = d.rx.N)) := by
  cases step_port h i with
  | same h => rw [h, hs] at ht; cases ht; exact ⟨.inl rfl, .inl rfl⟩
  | command w o rest turns ins hi hd he hx =>
    obtain ⟨hbad, hov | ⟨rfl, hov⟩ | ⟨rfl, hfull, hov⟩⟩ := hx.driver_flags hs ht
    · exact ⟨.inl hbad, .inl hov⟩
    · exact ⟨.inl hbad, .inr (.inl ⟨hov, w, o, rest, turns, hi, hd⟩)⟩
    · cases he
  | event w turns ins hsch hd he hx =>
    obtain ⟨hbad, hov | ⟨rfl, hov⟩ | ⟨rfl, hfull, hov⟩⟩ := hx.driver_flags hs ht
    · exact ⟨.inl hbad, .inl hov⟩
    · cases he
    · exact ⟨.inl hbad, .inr (.inr ⟨hov, w, turns, hsch, hd, hfull⟩)⟩
  | phase2 e _ _ _ _ hr _ h =>
    obtain rfl : e = d := Option.some.inj (hr.symm.trans hs)
    rw [h] at ht; cases ht
    exact ⟨.inl rfl, .inl rfl⟩
  | rxArrive _ _ h => rw [h, hs] at ht; cases ht; exact ⟨.inl rfl, .inl rfl⟩
  | txDrain _ _ _ _ h => rw [h, hs] at ht; cases ht; exact ⟨.inl rfl, .inl rfl⟩
  | hwFault e hsch hb hr h =>
    obtain rfl : e = d := Option.some.inj (hr.symm.trans hs)
    rw [h] at ht; cases ht
    exact ⟨.inr ⟨rfl, hsch, hb⟩, .inl rfl⟩
  | reset _ h => rw [h] at ht; cases ht

/-- A turn HW_FAULT in a block that is not halted (R178). -/
theorem step_hwFault {s : State} {i : Idx} {turns : List Turn} (hf : s.fault = none) (hs : s.sched = .hwFault i :: turns) :
    step s = .next (hwFault i (s.setSched turns)) := by
  simp [step, takeTurn, hs, hf, turnStep]

/-- Settles O49: HW_FAULT as its rule states it, and of the whole machine the only step that writes `bad` of a driver
that stays. -/
theorem hardwareFaultSetsBad : Obligations.HardwareFaultSetsBad := by
  refine ⟨fun s i turns hf hs => ?_, fun s t i d d' h hr hr' => ?_, fun s t i d' h hr hr' => ?_⟩
  · rw [step_hwFault hf hs]
    refine ⟨fun d hb hp hr => ?_, fun hb => ?_, fun hr => ?_⟩
    · simp [hwFault, hb, hp, hr, State.setReg]
    · simp [hwFault, hb]
    · simp [hwFault, hr]
  · obtain ⟨hbad | ⟨hbad, hsch, hb⟩, -⟩ := driver_flags_of_step h hr hr'
    · rw [hbad]
      exact ⟨fun h0 h1 => absurd (h0.symm.trans h1) (by decide), id⟩
    · exact ⟨fun _ _ => ⟨hsch, hb⟩, fun _ => hbad⟩
  · obtain ⟨nRx, nTx, rfl⟩ := driver_new_of_step h hr hr'
    rfl

/-- Settles O56: of a driver that stays only an EV_RXC on a full ring sets `overwritten` and only an OVF_CLEAR clears
it. -/
theorem overwrittenSetByEvictionClearedByCommand : Obligations.OverwrittenSetByEvictionClearedByCommand := by
  refine ⟨fun s t i d d' h hr hr' => ?_, fun s t i d' h hr hr' => ?_, fun s i d ⟨hf, hp, hr⟩ => ?_⟩
  · obtain ⟨-, hov | ⟨hov, hclear⟩ | ⟨hov, hset⟩⟩ := driver_flags_of_step h hr hr'
    · rw [hov]
      exact ⟨fun h0 h1 => absurd (h0.symm.trans h1) (by decide), fun h1 h0 => absurd (h0.symm.trans h1) (by decide)⟩
    · exact ⟨fun _ h1 => absurd (hov.symm.trans h1) (by decide), fun _ _ => hclear⟩
    · exact ⟨fun _ _ => hset, fun _ h0 => absurd (h0.symm.trans hov) (by decide)⟩
  · obtain ⟨nRx, nTx, rfl⟩ := driver_new_of_step h hr hr'
    rfl
  · change execOvfRead i s = _
    rw [execOvfRead, foreground_eq hf rfl, perDriver_eq hp hr]
    rfl

end Sys2Proof.Machine
end

section
/-! The machine's invariant: it holds after reset (R42), and every step keeps it (R26, R31, R32, R95, R121, R122, R130,
R134). A step is taken apart index by index; of an index the invariant asks its driver, its images and its enables. -/

namespace Sys2Proof.Machine

/-! ### Drivers -/

theorem Driver.fresh_ok {nRx nTx : Nat} {c : Bool} (i : Idx) (h : Instr.wf (.construct i nRx nTx) = true) :
    (Driver.fresh nRx nTx).Ok c := by
  simp only [Instr.wf, capacityInRange, Bool.and_eq_true, decide_eq_true_eq] at h
  obtain ⟨⟨hr1, hr2⟩, ht1, ht2⟩ := h
  exact ⟨Ring.fresh_ok hr1 hr2, Ring.fresh_ok ht1 ht2, fun _ => rfl⟩

theorem Driver.Ok.ring {c : Bool} {d : Driver} (h : d.Ok c) (sel : RingSel) : (d.ring sel).Ok := by
  cases sel with
  | rx => exact h.1
  | tx => exact h.2.1

theorem Driver.Ok.setRing {c : Bool} {d : Driver} {r : Ring} (h : d.Ok c) (sel : RingSel) (hr : r.Ok) :
    (d.setRing sel r).Ok c := by
  cases sel with
  | rx => exact ⟨hr, h.2⟩
  | tx => exact ⟨h.1, hr, h.2.2⟩

/-! ### One index -/

theorem Port.reset_ok (c : Config) : Port.reset.Ok c := by
  simp [Port.Ok, Port.ImagesOk, Port.EnablesOk, Port.reset, CtrlB.reset, CtrlC.reset]

/-- The invariant of an index reads its slot, DIV, U2X and the images only. -/
theorem Port.Ok.of_same {c : Config} {p q : Port} (hp : p.Ok c) (h1 : q.reg = p.reg) (h2 : q.u2x = p.u2x)
    (h3 : q.ctrlB = p.ctrlB) (h4 : q.ctrlC = p.ctrlC) (h5 : q.div = p.div) : q.Ok c := by
  unfold Port.Ok Port.ImagesOk Port.EnablesOk
  rw [h1, h2, h3, h4, h5]
  exact hp

/-- UDRIE may become 0 at any index. -/
theorem Port.Ok.udrie_false {c : Config} {p : Port} (hp : p.Ok c) :
    ({ p with ctrlB := { p.ctrlB with udrie := false } } : Port).Ok c := by
  obtain ⟨hd, himg, -, hen⟩ := hp
  exact ⟨hd, himg, fun _ => rfl, hen⟩

/-- An index whose driver is replaced by a sound one with the same settings stays sound. -/
theorem Port.Ok.setDriver {c : Config} {p : Port} {d d' : Driver} (hp : p.Ok c) (hr : p.reg = some d)
    (hd : d'.Ok c.badSource) (hst : d'.settings = d.settings) : ({ p with reg := some d' } : Port).Ok c :=
  hp.of_driver hr hd hst rfl rfl rfl rfl ⟨p.ctrlB.udrie, rfl⟩

/-- A fresh driver is not configured, so it asks of the enables what the empty slot asked (R118). -/
theorem Port.Ok.construct {c : Config} {p : Port} {i : Idx} {nRx nTx : Nat} (hp : p.Ok c) (hr : p.reg = none)
    (hw : Instr.wf (.construct i nRx nTx) = true) : ({ p with reg := some (Driver.fresh nRx nTx) } : Port).Ok c := by
  obtain ⟨-, himg, -, hoff, -⟩ := hp
  refine ⟨fun d hd => ?_, himg, fun h => (by cases h), fun _ => hoff (by rw [hr]; rfl), fun st hst => (by cases hst)⟩
  cases hd
  exact Driver.fresh_ok i hw

/-- DESTRUCT leaves an index with no driver and its enables 0 (R120). -/
theorem Port.Ok.destruct {c : Config} {p : Port} (hp : p.Ok c) :
    ({ p with ctrlB := p.ctrlB.clearEnables, reg := none } : Port).Ok c := by
  obtain ⟨-, ⟨-, hws, himg⟩, -⟩ := hp
  exact ⟨fun d hd => (by cases hd), ⟨rfl, hws, himg⟩, fun _ => rfl, fun _ => ⟨rfl, rfl, rfl⟩, fun st hst => (by cases hst)⟩

/-- CONFIGURE leaves an index whose images, DIV and U2X are those of its settings (R113, R129, R130). -/
theorem Port.Ok.configure {c : Config} {p : Port} {d : Driver} {st : Settings} {div : Nat} {dbl : Bool} (hp : p.Ok c)
    (hr : p.reg = some d) (hsel : select c.baudLut st.baud = some (div, dbl)) : (configurePort p d st div dbl).Ok c := by
  have hd : d.Ok c.badSource := hp.1 d hr
  refine ⟨fun e he => ?_, ⟨rfl, rfl, rfl, ?_, rfl, rfl⟩, fun h => (by cases h), fun h => (by cases h), fun st' hst => ?_⟩
  · cases he; exact hd
  · change parityField st.parity ≠ 1
    cases st.parity <;> decide
  · cases hst
    exact ⟨rfl, rfl, rfl, rfl, by rw [hsel]; simp only [configurePort, toNat_divisor hsel]⟩

/-- An instruction's effect keeps every index sound. -/
theorem Effect.port_ok {s t : State} {ins : Instr} (h : Effect s ins t) {i : Idx} (hok : (s.port i).Ok s.cfg) :
    (t.port i).Ok s.cfg := by
  by_cases hi : ins.idx? = some i
  case neg => rw [h.port_ne hi]; exact hok
  case pos =>
    have driver {d : Driver} (hr : (s.port i).reg = some d) : d.Ok s.cfg.badSource := hok.1 d hr
    cases h with
    | construct j nRx nTx _ hr hw =>
      cases hi
      simpa using hok.construct hr hw
    | destruct j d _ hr =>
      cases hi
      simpa using hok.destruct
    | configure j par stb baud d div dbl _ hr _ hsel _ =>
      cases hi
      simpa using hok.configure (st := ⟨baud, stb, par⟩) hr hsel
    | write j bytes d k tx _ hr hpush =>
      cases hi
      obtain ⟨hrx, htx, hbad⟩ := driver hr
      simpa using hok.setDriver hr (d' := { d with tx := tx }) ⟨hrx, htx.pushMany hpush, hbad⟩ rfl
    | read j len d out rx _ hr hpop =>
      cases hi
      obtain ⟨hrx, htx, hbad⟩ := driver hr
      simpa using hok.setDriver hr (d' := { d with rx := rx }) ⟨hrx.popMany (Nat.min_le_right _ _) hpop, htx, hbad⟩ rfl
    | flushSent j d b tx _ hr hc hpop =>
      cases hi
      obtain ⟨hrx, htx, hbad⟩ := driver hr
      obtain ⟨v, hport⟩ := port_flushSent s i d b tx
      rw [State.port_answer, hport]
      exact hok.of_driver (d' := { d with tx := tx }) hr ⟨hrx, htx.pop hc hpop, hbad⟩ rfl rfl rfl rfl rfl ⟨true, rfl⟩
    | flushEmpty j d _ hr _ =>
      cases hi
      simpa using hok.udrie_false
    | ovfRead => exact hok
    | ovfClear j d _ hr =>
      cases hi
      have hd := driver hr
      simpa using hok.setDriver hr (d' := { d with overwritten := false }) hd rfl
    | badRead => exact hok
    | csEnter => cases hi
    | csExit => cases hi
    | rbPush j sel b d r _ hr _ hc hpush =>
      cases hi
      have hd := driver hr
      simpa using hok.setDriver hr (hd.setRing sel ((hd.ring sel).push hc hpush)) (d.setRing_settings sel r)
    | rbPop j sel d b r _ hr _ hc hpop =>
      cases hi
      have hd := driver hr
      simpa using hok.setDriver hr (hd.setRing sel ((hd.ring sel).pop (Nat.pos_of_ne_zero hc) hpop))
        (d.setRing_settings sel r)
    | rbFull => exact hok
    | rbEmpty => exact hok
    | rbSize => exact hok
    | rbCapacity => exact hok
    | baudSelect => cases hi
    | rxcDiscard j b _ _ hr =>
      cases hi
      rw [port_rxcTaken]
      exact hok.of_same rfl rfl rfl rfl rfl
    | rxcStore j b d ev rx _ _ hr hpush =>
      cases hi
      obtain ⟨hrx, htx, hbad⟩ := driver hr
      rw [State.port_setReg_same, port_rxcTaken]
      exact hok.of_driver (d' := { d with rx := rx, overwritten := d.overwritten || ev }) hr
        ⟨hrx.pushOverwrite hpush, htx, hbad⟩ rfl rfl rfl rfl rfl ⟨(s.port i).ctrlB.udrie, rfl⟩
    | udreSend j d b tx _ hr hc hpop =>
      cases hi
      obtain ⟨hrx, htx, hbad⟩ := driver hr
      obtain ⟨v, e, hport⟩ := port_txdWrite i b (s.setReg i (some { d with tx := tx })) i
      rw [hport, State.port_setReg_same]
      exact hok.of_driver (d' := { d with tx := tx }) hr ⟨hrx, htx.pop hc hpop, hbad⟩ rfl rfl rfl rfl rfl
        ⟨(s.port i).ctrlB.udrie, rfl⟩
    | udreDisable j _ _ =>
      cases hi
      simpa using hok.udrie_false

/-! ### The whole state -/

/-- Every step keeps an index sound. -/
theorem PortStepped.port_ok {s t : State} {i : Idx} (h : PortStepped s t i) (hok : (s.port i).Ok s.cfg) :
    (t.port i).Ok s.cfg := by
  cases h with
  | same h => rw [h]; exact hok
  | command _ _ _ _ _ _ _ _ hx => exact hx.port_ok hok
  | event _ _ _ _ _ _ hx => exact hx.port_ok hok
  | phase2 d tx u v e hr htx h =>
    obtain ⟨hrx, htx', hbad⟩ := hok.1 d hr
    rw [h]
    exact hok.of_driver (d' := { d with tx := tx }) hr ⟨hrx, htx htx', hbad⟩ rfl rfl rfl rfl rfl ⟨u, rfl⟩
  | rxArrive b _ h => rw [h]; exact hok.of_same rfl rfl rfl rfl rfl
  | txDrain l _ _ _ h => rw [h]; exact hok.of_same rfl rfl rfl rfl rfl
  | hwFault d _ hb hr h =>
    obtain ⟨hrx, htx, -⟩ := hok.1 d hr
    rw [h]
    exact hok.setDriver (d' := { d with bad := true }) hr ⟨hrx, htx, fun h0 => absurd (h0.symm.trans hb) (by decide)⟩ rfl
  | reset _ h => rw [h]; exact Port.reset_ok s.cfg

/-- No step touches an index that does not exist (log 10). -/
theorem PortStepped.absent {s t : State} {i : Idx} (h : PortStepped s t i) (hi : ¬ s.present i)
    (hreset : s.port i = Port.reset) : t.port i = Port.reset := by
  have hnone : (s.port i).reg = none := by rw [hreset]; rfl
  cases h with
  | same h => rw [h, hreset]
  | command _ _ _ _ _ _ _ _ hx => exact (hx.port_ne fun he => hi (hx.present he)).trans hreset
  | event _ _ _ _ _ _ hx => exact (hx.port_ne fun he => hi (hx.present he)).trans hreset
  | phase2 _ _ _ _ _ hr _ _ => rw [hnone] at hr; cases hr
  | rxArrive _ hp _ => exact absurd hp hi
  | txDrain _ _ hp _ _ => exact absurd hp hi
  | hwFault _ _ _ hr _ => rw [hnone] at hr; cases hr
  | reset _ h => exact h

/-- Only a WRITE's first phase leaves a second phase waiting, and it leaves its driver (R133, R134). -/
theorem Effect.pending {s t : State} {ins : Instr} (h : Effect s ins t) :
    t.pending = s.pending ∨
      ∃ i k, t.pending = some ⟨i, k⟩ ∧ s.present i ∧ (t.port i).reg.isSome = true := by
  cases h with
  | write i bytes d k tx hp hr _ => exact .inr ⟨i, k, rfl, hp, by simp⟩
  | _ => exact .inl (by simp [rxcTaken, Machine.flushSent])

/-- What an instruction does to the pending WRITE: nothing, or it leaves one with its driver. -/
theorem exec_pending {s t : State} {ins : Instr} (h : exec ins s = .next t) :
    t.pending = s.pending ∨ ∃ i k, t.pending = some ⟨i, k⟩ ∧ s.present i ∧ (t.port i).reg.isSome = true := by
  rcases exec_same_or_effect h with ⟨-, hpe, -⟩ | hx
  · exact .inl hpe
  · exact hx.pending

/-- An event's effect keeps every driver. -/
theorem Effect.reg_isSome_of_event {s t : State} {ins : Instr} (h : Effect s ins t) (he : ins.isEvent = true) (j : Idx) :
    (t.port j).reg.isSome = (s.port j).reg.isSome := by
  by_cases hj : ins.idx? = some j
  case neg => rw [h.port_ne hj]
  case pos =>
    cases h <;> cases he <;> cases hj
    case rxcDiscard => rw [port_rxcTaken]
    case rxcStore d _ _ _ _ _ _ =>
      have hr : (s.port j).reg = some d := ‹_›
      rw [State.port_setReg_same, hr]; rfl
    case udreSend d _ _ _ _ _ _ =>
      have hr : (s.port j).reg = some d := ‹_›
      rw [txdWrite_reg, State.port_setReg_same, hr]; rfl
    case udreDisable => rw [State.port_setUdrie_same]

/-- Between the phases of a WRITE every step but a reset keeps the drivers (R134). -/
theorem PortStepped.reg_isSome_of_pending {s t : State} {i : Idx} (h : PortStepped s t i) (hp : s.pending ≠ none)
    (hr : ¬ s.resets) : (t.port i).reg.isSome = (s.port i).reg.isSome := by
  cases h with
  | same h => rw [h]
  | command _ _ _ _ _ hi _ _ _ => exact absurd hi.2.1 hp
  | event _ _ _ _ _ he hx => exact hx.reg_isSome_of_event he i
  | phase2 _ _ _ _ _ hr _ h => rw [h, hr]; rfl
  | rxArrive _ _ h => rw [h]
  | txDrain _ _ _ _ h => rw [h]
  | hwFault _ _ _ hr h => rw [h, hr]; rfl
  | reset h _ => exact absurd h hr

/-- What a step does to the pending WRITE: nothing, or it ends it, or it leaves one with its driver. -/
theorem step_pending {s t : State} (h : step s = .next t) :
    t.pending = none ∨ (t.pending = s.pending ∧ ¬ s.resets) ∨
      ∃ i k, t.pending = some ⟨i, k⟩ ∧ s.present i ∧ (t.port i).reg.isSome = true := by
  by_cases hr : s.resets
  · obtain ⟨turns, rfl⟩ := step_resets h hr
    exact .inl rfl
  · cases step_next h with
    | wait _ _ h => exact .inr (.inl ⟨by rw [h], hr⟩)
    | idle _ _ _ _ _ h => exact .inr (.inl ⟨by rw [h]; rfl, hr⟩)
    | illegal _ _ _ _ _ h => exact .inr (.inl ⟨by rw [h]; rfl, hr⟩)
    | command _ _ _ _ _ _ _ _ hx => exact .inr ((exec_pending hx).imp (fun hpe => ⟨hpe, hr⟩) id)
    | phase2 _ _ _ _ _ hx =>
      rcases writePhase2_ports hx with ⟨f, rfl⟩ | ⟨_, _, _, _, _, _, _, _, _, hpe⟩ | ⟨_, _, _, _, _, hpe⟩
      · exact .inr (.inl ⟨rfl, hr⟩)
      · exact .inl hpe
      · exact .inl hpe
    | event _ _ _ _ _ _ _ hx => exact .inr ((exec_pending hx).imp (fun hpe => ⟨hpe, hr⟩) id)
    | rxArrive i b turns _ _ h =>
      refine .inr (.inl ⟨?_, hr⟩)
      rcases rxArrive_cases i b (s.setSched turns) with hc | ⟨-, hc | hc | hc⟩ <;> rw [h, hc] <;> rfl
    | txDrain i turns _ _ h =>
      refine .inr (.inl ⟨?_, hr⟩)
      rcases txDrain_cases i (s.setSched turns) with hc | ⟨-, l, -, hc | hc⟩ <;> rw [h, hc] <;> rfl
    | hwFault i turns _ _ h =>
      refine .inr (.inl ⟨?_, hr⟩)
      rcases hwFault_cases i (s.setSched turns) with hc | ⟨d, -, -, -, hc⟩ <;> rw [h, hc] <;> rfl
    | reset _ hs _ => exact absurd (by rw [State.resets, hs]; rfl) hr

/-- Settles O53: every step keeps each index sound, leaves the indices that do not exist, and leaves a WRITE between its
phases with its driver. -/
theorem stepKeepsInvariant : Obligations.StepKeepsInvariant := by
  intro s t ⟨hok, habsent, hpend⟩ h
  have hcfg : t.cfg = s.cfg := parametersNeverChange s t h
  have hpresent (i : Idx) : t.present i ↔ s.present i := by rw [State.present, hcfg]
  refine ⟨fun i => ?_, fun i hi => ?_, fun p hp => ?_⟩
  · rw [hcfg]
    exact (step_port h i).port_ok (hok i)
  · rw [hpresent] at hi
    exact (step_port h i).absent hi (habsent i hi)
  · rw [hpresent]
    rcases step_pending h with hnone | ⟨hsame, hr⟩ | ⟨i, k, hnew, hpi, hsome⟩
    · rw [hnone] at hp; cases hp
    · rw [hsame] at hp
      obtain ⟨hpi, hsome⟩ := hpend p hp
      have hne : s.pending ≠ none := fun h0 => by rw [h0] at hp; cases hp
      exact ⟨hpi, ((step_port h p.idx).reg_isSome_of_pending hne hr).trans hsome⟩
    · rw [hnew] at hp
      cases hp
      exact ⟨hpi, hsome⟩

/-- The state after reset meets the invariant, whatever the parameters. -/
theorem State.resetWith_inv (c : Config) : (State.resetWith c).Inv :=
  ⟨fun i => by rw [State.port_resetWith]; exact Port.reset_ok c, fun i _ => State.port_resetWith c i,
    fun p hp => by cases hp⟩

/-- Settles O52: every index is at its reset value and no WRITE is pending. -/
theorem resetMeetsInvariant : Obligations.ResetMeetsInvariant :=
  ⟨State.resetWith_inv, State.resetWith_inv Config.fixture⟩

end Sys2Proof.Machine
end

section
/-! From a sound state every step answers a next state and records no F_UNWRITTEN_SLOT (R44, R51, R164, R170): the
model's stops for a slot that does not exist and for a lost driver are not reached. -/

namespace Sys2Proof.Machine

/-- No F_UNWRITTEN_SLOT is recorded. -/
def State.NoSlotFault (s : State) : Prop :=
  ∀ (i : Idx) (sel : RingSel) (k : Nat), s.fault ≠ some (.unwrittenSlot i sel k)

/-- An end of a command or handler that does not stop the model and records no F_UNWRITTEN_SLOT. -/
def Reaction.NoSlotFault : Reaction → Prop
  | .reply _ t => t.NoSlotFault
  | .quiet t => t.NoSlotFault
  | .raise f => ∀ (i : Idx) (sel : RingSel) (k : Nat), f ≠ .unwrittenSlot i sel k
  | .stop _ => False

theorem State.noSlotFault_of_none {s : State} (h : s.fault = none) : s.NoSlotFault := by
  intro i sel k; rw [h]; exact nofun

/-- The rings of every driver are sound: what the invariant gives the commands and handlers. -/
def State.RingsOk (s : State) : Prop := ∀ (i : Idx) (d : Driver), (s.port i).reg = some d → d.rx.Ok ∧ d.tx.Ok

theorem State.Inv.ringsOk {s : State} (h : s.Inv) : s.RingsOk := fun i d hr =>
  have hd := (h.1 i).1 d hr
  ⟨hd.1, hd.2.1⟩

theorem State.RingsOk.ring {s : State} (h : s.RingsOk) {i : Idx} {d : Driver} (hr : (s.port i).reg = some d)
    (sel : RingSel) : (d.ring sel).Ok := by
  cases sel with
  | rx => exact (h i d hr).1
  | tx => exact (h i d hr).2

/-! ### The shared operations of a command -/

theorem settle_answers {s : State} {x : Reaction} (h : x.NoSlotFault) : ∃ t, settle s x = .next t ∧ t.NoSlotFault := by
  cases x with
  | reply r t => exact ⟨_, rfl, h⟩
  | quiet t => exact ⟨_, rfl, h⟩
  | raise f => exact ⟨_, rfl, fun i sel k he => h i sel k (Option.some.inj he)⟩
  | stop f => exact h.elim

theorem foreground_answers {ins : Instr} {s : State} {x : Reaction} (hf : s.fault = none) (h : x.NoSlotFault) :
    ∃ t, foreground ins s x = .next t ∧ t.NoSlotFault := by
  simp only [foreground, hf, Option.isSome_none, Bool.false_eq_true, if_false]
  split
  · exact settle_answers h
  · exact settle_answers (x := .raise _) nofun

theorem Reaction.noSlotFault_reply {s : State} (hf : s.fault = none) (r : Reply) : (Reaction.reply r s).NoSlotFault :=
  State.noSlotFault_of_none hf

theorem perDriver_noSlotFault {i : Idx} {s : State} {f : Driver → Reaction} (hf : s.fault = none)
    (h : ∀ d, (s.port i).reg = some d → (f d).NoSlotFault) : (perDriver i s f).NoSlotFault := by
  rcases perDriver_cases i s f with ⟨e, -, hx⟩ | ⟨d, -, hr, hx⟩ <;> rw [hx]
  · exact Reaction.noSlotFault_reply hf _
  · exact h d hr

theorem guardedRing_noSlotFault {w : Word} {i : Idx} {sel : RingSel} {s : State} {f : Driver → Ring → Reaction}
    (hf : s.fault = none) (h : ∀ d, (s.port i).reg = some d → (f d (d.ring sel)).NoSlotFault) :
    (guardedRing w i sel s f).NoSlotFault := by
  rcases guardedRing_cases w i sel s f with ⟨e, -, hx⟩ | hx | ⟨d, -, hr, -, hx⟩ <;> rw [hx]
  · exact Reaction.noSlotFault_reply hf _
  · exact nofun
  · exact h d hr

/-- Setting I at the end of a reaction does not matter. -/
theorem Reaction.NoSlotFault.map_setI {x : Reaction} (h : x.NoSlotFault) (v : Bool) :
    (x.map (fun t => t.setI v)).NoSlotFault := by
  cases x <;> exact h

theorem criticalSection_noSlotFault {body : State → Reaction} {s : State} (h : (body (s.setI false)).NoSlotFault) :
    (criticalSection body s).NoSlotFault :=
  h.map_setI s.I

theorem flushBody_noSlotFault {i : Idx} {d : Driver} {r : Reply} {s : State} (hf : s.fault = none) (h : d.tx.Ok) :
    (flushBody i d r s).NoSlotFault := by
  obtain ⟨t, ht, hft⟩ := flushBody_sound (r := r) s h
  rw [ht]
  exact Reaction.noSlotFault_reply (hft.trans hf) r

/-! ### Commands, the second phase of a WRITE, events -/

/-- With every ring sound no command stops the model or records F_UNWRITTEN_SLOT. -/
theorem exec_answers {ins : Instr} {s : State} (hf : s.fault = none) (hs : s.RingsOk) (he : ins.isEvent = false) :
    ∃ t, exec ins s = .next t ∧ t.NoSlotFault := by
  have clean : s.NoSlotFault := State.noSlotFault_of_none hf
  cases ins with
  | construct i nRx nTx =>
    refine foreground_answers hf ?_
    unfold perIndex
    split
    · split
      · exact criticalSection_noSlotFault clean
      · refine Reaction.NoSlotFault.map_setI (criticalSection_noSlotFault ?_) true
        exact clean
    · exact clean
  | destruct i =>
    exact foreground_answers hf (perDriver_noSlotFault hf fun d _ => criticalSection_noSlotFault clean)
  | configure i par stb baud =>
    refine foreground_answers hf (perDriver_noSlotFault hf fun d _ => criticalSection_noSlotFault ?_)
    split
    · exact clean
    · split
      · exact clean
      · exact clean
  | write i bytes =>
    refine foreground_answers hf (perDriver_noSlotFault hf fun d hr => criticalSection_noSlotFault ?_)
    obtain ⟨tx, hp, -⟩ := ringPushMany_ok (hs i d hr).2 bytes
    rw [hp]
    exact clean
  | read i len =>
    refine foreground_answers hf (perDriver_noSlotFault hf fun d hr => criticalSection_noSlotFault ?_)
    obtain ⟨rx, hp, -⟩ := ringPopMany_ok (hs i d hr).1 (Nat.min_le_right len d.rx.count)
    simp only [hp]
    exact clean
  | flush i =>
    exact foreground_answers hf (perDriver_noSlotFault hf fun d hr => flushBody_noSlotFault hf (hs i d hr).2)
  | ovfRead i =>
    exact foreground_answers hf (perDriver_noSlotFault hf fun d _ => criticalSection_noSlotFault clean)
  | ovfClear i =>
    exact foreground_answers hf (perDriver_noSlotFault hf fun d _ => criticalSection_noSlotFault clean)
  | badRead i =>
    exact foreground_answers hf (perDriver_noSlotFault hf fun d _ => criticalSection_noSlotFault clean)
  | csEnter => exact foreground_answers hf clean
  | csExit =>
    refine foreground_answers hf ?_
    split
    · exact nofun
    · exact clean
  | rbPush i sel b =>
    refine foreground_answers hf (guardedRing_noSlotFault hf fun d hr => ?_)
    split
    · exact nofun
    · rename_i hc
      have hok := hs.ring hr sel
      obtain ⟨r', hp, -⟩ := ringPush_ok hok (Nat.lt_of_le_of_ne hok.2.1 hc) (BitVec.ofNat 8 b)
      rw [hp]
      exact clean
  | rbPop i sel =>
    refine foreground_answers hf (guardedRing_noSlotFault hf fun d hr => ?_)
    split
    · exact nofun
    · rename_i hc
      obtain ⟨b, r', hp, -⟩ := ringPop_ok (hs.ring hr sel) (Nat.pos_of_ne_zero hc)
      rw [hp]
      exact clean
  | rbFull i sel => exact foreground_answers hf (guardedRing_noSlotFault hf fun d _ => clean)
  | rbEmpty i sel => exact foreground_answers hf (guardedRing_noSlotFault hf fun d _ => clean)
  | rbSize i sel => exact foreground_answers hf (guardedRing_noSlotFault hf fun d _ => clean)
  | rbCapacity i sel => exact foreground_answers hf (guardedRing_noSlotFault hf fun d _ => clean)
  | baudSelect baud =>
    refine foreground_answers hf ?_
    split
    · exact clean
    · exact clean
  | evRxc i => cases he
  | evUdre i => cases he

/-- With every ring sound an event answers a state without a fault (R170). -/
theorem exec_event_answers {ins : Instr} {s : State} (hf : s.fault = none) (hs : s.RingsOk) (he : ins.isEvent = true) :
    ∃ t, exec ins s = .next t ∧ t.fault = none := by
  cases ins <;> cases he
  case evRxc i =>
    obtain ⟨t, ht, hft⟩ := rxcBody_sound (i := i) (s := s.handlerEntry) fun d hr => (hs i d hr).1
    exact deliver_sound hf ⟨t, ht, hft.trans hf⟩
  case evUdre i =>
    obtain ⟨t, ht, hft⟩ := udreBody_sound (i := i) (s := s.handlerEntry) fun d hr => (hs i d hr).2
    exact deliver_sound hf ⟨t, ht, hft.trans hf⟩

/-- The second phase of a WRITE whose driver is there answers a state without a fault (R134). -/
theorem writePhase2_answers {p : PendingWrite} {s : State} (hf : s.fault = none) (hs : s.RingsOk)
    (hp : (s.port p.idx).reg.isSome = true) : ∃ t, writePhase2 p s = .next t ∧ t.fault = none := by
  obtain ⟨d, hr⟩ := Option.isSome_iff_exists.1 hp
  obtain ⟨t, ht, hft⟩ := flushBody_sound (i := p.idx) (r := ⟨.ok, .written p.written⟩) (s.setPending none) (hs _ d hr).2
  exact ⟨t.answer ⟨.ok, .written p.written⟩, by simp only [writePhase2, hr, ht]; rfl, hft.trans hf⟩

/-! ### The environment raises nothing -/

theorem rxArrive_fault (i : Idx) (b : Byte) (s : State) : (rxArrive i b s).fault = s.fault := by
  rcases rxArrive_cases i b s with h | ⟨-, h | h | h⟩ <;> rw [h] <;> rfl

theorem txDrain_fault (i : Idx) (s : State) : (txDrain i s).fault = s.fault := by
  rcases txDrain_cases i s with h | ⟨-, l, -, h | h⟩ <;> rw [h] <;> rfl

theorem hwFault_fault (i : Idx) (s : State) : (hwFault i s).fault = s.fault := by
  rcases hwFault_cases i s with h | ⟨d, -, -, -, h⟩
  · rw [h]
  · rw [h]; rfl

/-! ### One step -/

/-- An issued command answers a next state without F_UNWRITTEN_SLOT, an illegal word included (R74, R75). -/
theorem issue_answers {c : Command} {s : State} (hf : s.fault = none) (hs : s.RingsOk) :
    ∃ t, issue c s = .next t ∧ t.NoSlotFault := by
  have illegal : (s.raise (.illegalCommand c.word)).NoSlotFault := nofun
  unfold issue
  split
  · exact ⟨_, rfl, illegal⟩
  · split
    · exact ⟨_, rfl, illegal⟩
    · exact exec_answers hf hs (Bool.eq_false_iff.2 ‹_›)

/-- A dispatcher's turn answers a state without a fault. -/
theorem dispatchTurn_answers {w : Word} {s : State} (hf : s.fault = none) (hs : s.RingsOk) :
    ∃ t, dispatchTurn w s = .next t ∧ t.fault = none := by
  unfold dispatchTurn
  split
  · exact ⟨s, rfl, hf⟩
  · split
    · exact exec_event_answers hf hs ‹_›
    · exact ⟨s, rfl, hf⟩

/-- Settles O60: a turn that issues no command answers a state without a fault; a command that is issued answers one
without F_UNWRITTEN_SLOT. -/
theorem soundStateStepsWithoutSlotFault : Obligations.SoundStateStepsWithoutSlotFault := by
  intro s hs hf
  have hrings : s.RingsOk := hs.ringsOk
  have quiet (h : ∃ t, step s = .next t ∧ t.fault = none) : ∃ t, step s = .next t ∧ t.NoSlotFault ∧
      (t.fault ≠ none → ∃ w o rest turns, s.Issues w o rest turns) :=
    h.imp fun t ⟨hstep, hft⟩ => ⟨hstep, State.noSlotFault_of_none hft, fun hne => absurd hft hne⟩
  cases hsched : s.sched with
  | nil => exact quiet ⟨s, by simp [step, takeTurn, hsched, hf], hf⟩
  | cons turn turns =>
    have hstep : step s = turnStep turn (s.setSched turns) := by simp [step, takeTurn, hsched, hf]
    cases turn with
    | foreground =>
      cases hpend : s.pending with
      | some p =>
        have hturn : step s = writePhase2 p (s.setSched turns) := by simp [hstep, turnStep, foregroundTurn, hpend]
        rw [hturn] at quiet ⊢
        exact quiet (writePhase2_answers (s := s.setSched turns) hf hrings (hs.2.2 p hpend).2)
      | none =>
        cases hprog : s.program with
        | nil => exact quiet ⟨s.setSched turns, by simp [hstep, turnStep, foregroundTurn, hpend, hprog], hf⟩
        | cons c rest =>
          have hturn : step s = issue c ((s.setSched turns).setProgram rest) := by
            simp [hstep, turnStep, foregroundTurn, hpend, hprog]
          obtain ⟨t, ht, hslot⟩ := issue_answers (c := c) (s := (s.setSched turns).setProgram rest) hf hrings
          exact ⟨t, hturn.trans ht, hslot, fun _ => ⟨c.word, c.operands, rest, turns, hf, hpend, hprog, hsched⟩⟩
    | dispatch w =>
      rw [hstep] at quiet ⊢
      exact quiet (dispatchTurn_answers (s := s.setSched turns) hf hrings)
    | rxArrive i b => exact quiet ⟨_, hstep, (rxArrive_fault i b _).trans hf⟩
    | txDrain i => exact quiet ⟨_, hstep, (txDrain_fault i _).trans hf⟩
    | hwFault i => exact quiet ⟨_, hstep, (hwFault_fault i _).trans hf⟩
    | reset => exact quiet ⟨_, hstep, rfl⟩

end Sys2Proof.Machine
end

section
/-! The packing of the control images into bytes in the default layout and the divisor's two registers (R33, R53). -/

namespace Sys2Proof.Machine

/-- Of a byte that packs one field at `pos`, bit `pos` is the field and every other bit is 0. -/
@[simp] theorem getElem_bitAt (pos n : Nat) (v : Bool) (hn : n < 8) : (bitAt pos v)[n] = (n == pos && v) := by
  cases v with
  | false => simp [bitAt]
  | true =>
    rw [Bool.eq_iff_iff]
    simp only [bitAt, if_true, BitVec.getElem_shiftLeft, BitVec.getElem_one, Bool.and_true, beq_iff_eq,
      Bool.and_eq_true, Bool.not_eq_true', decide_eq_false_iff_not, decide_eq_true_eq]
    omega

/-- Settles O59: each bit of an image byte is the one field whose place it is; the divisor's two registers are its
quotient and remainder by 256. -/
theorem imagePackingAndDivisorSplit : Obligations.ImagePackingAndDivisorSplit := by
  intro p
  have hdiv : p.div.toNat < 4096 := p.div.isLt
  refine ⟨fun n hn => ?_, ?_, ?_, ?_, ?_⟩
  · simp [Port.byteA, CtrlLayout.default, hn]
  · simp [Port.byteB, CtrlLayout.default]
  · simp [Port.byteC, CtrlLayout.default]
  · simp only [Port.divHigh, Port.divLow, BitVec.toNat_ofNat]
    omega
  · simp only [Port.divHigh, BitVec.toNat_ofNat]
    omega

end Sys2Proof.Machine
end

section
/-! Which instructions can change a ring slot of an index (R50, R51): a pop moves the head and leaves the storage, so only
the pushes write a slot, and only CONSTRUCT and DESTRUCT replace the rings. -/

namespace Sys2Proof.Machine

/-! ### Storages that a change of a driver keeps -/

/-- A pop leaves the storage (R86). -/
theorem ringPop_store {r r' : Ring} {b : Byte} (h : ringPop r = .ok (b, r')) : r'.store = r.store := by
  rw [(ringPop_inv h).2.2]

/-- A new rx ring with the old one's storage changes no storage of the driver. -/
theorem Driver.store_with_rx {d : Driver} {rx : Ring} (h : rx.store = d.rx.store) (sel : RingSel) :
    (({ d with rx := rx } : Driver).ring sel).store = (d.ring sel).store := by
  cases sel with
  | rx => exact h
  | tx => rfl

/-- A new tx ring with the old one's storage changes no storage of the driver. -/
theorem Driver.store_with_tx {d : Driver} {tx : Ring} (h : tx.store = d.tx.store) (sel : RingSel) :
    (({ d with tx := tx } : Driver).ring sel).store = (d.ring sel).store := by
  cases sel with
  | rx => rfl
  | tx => exact h

/-- A new ring with the old one's storage, put where a direct ring command selects (R71), changes no storage of the
driver. -/
theorem Driver.store_setRing {d : Driver} {r : Ring} {sel : RingSel} (h : r.store = (d.ring sel).store)
    (sel' : RingSel) : ((d.setRing sel r).ring sel').store = (d.ring sel').store := by
  cases sel with
  | rx => exact Driver.store_with_rx h sel'
  | tx => exact Driver.store_with_tx h sel'

/-- An index with the same registry slot reads as before. -/
theorem State.slot_of_reg_eq {s t : State} {j : Idx} (h : (t.port j).reg = (s.port j).reg) (sel : RingSel) (k : Nat) :
    t.slot j sel k = s.slot j sel k :=
  State.slot_congr (by rw [h])

/-- An index whose driver gave way to one with the same storages reads as before. -/
theorem State.slot_of_store_eq {s t : State} {j : Idx} {d d' : Driver} (hs : (s.port j).reg = some d)
    (ht : (t.port j).reg = some d') (h : ∀ sel, (d'.ring sel).store = (d.ring sel).store) (sel : RingSel) (k : Nat) :
    t.slot j sel k = s.slot j sel k :=
  State.slot_congr (by simp [hs, ht, h sel])

/-! ### The instructions that change a slot -/

/-- An effect leaves every ring slot of an index, or its instruction is one of the five that store or that replace a
driver, and acts on that index. -/
theorem Effect.slot_same_or_stores {s t : State} {ins : Instr} (h : Effect s ins t) (j : Idx) :
    (∀ sel k, t.slot j sel k = s.slot j sel k) ∨
      (∃ sel b, ins = .rbPush j sel b) ∨ (∃ bytes, ins = .write j bytes) ∨ ins = .evRxc j ∨
      (∃ nRx nTx, ins = .construct j nRx nTx) ∨ ins = .destruct j := by
  by_cases hj : ins.idx? = some j
  case neg => exact .inl (State.slot_of_reg_eq (by rw [h.port_ne hj]))
  case pos =>
    cases h with
    | construct | destruct | write | rbPush | rxcDiscard | rxcStore => cases hj; exact .inr (by simp)
    | csEnter | csExit | baudSelect => cases hj
    | read i len d out rx _ hr hpop =>
      cases hj
      exact .inl (State.slot_of_store_eq hr (d' := { d with rx := rx }) (by simp)
        (Driver.store_with_rx (ringPopMany_store hpop)))
    | flushSent i d b tx _ hr _ hpop =>
      cases hj
      exact .inl (State.slot_of_store_eq hr (d' := { d with tx := tx }) (by simp [Machine.flushSent])
        (Driver.store_with_tx (ringPop_store hpop)))
    | udreSend i d b tx _ hr _ hpop =>
      cases hj
      exact .inl (State.slot_of_store_eq hr (d' := { d with tx := tx }) (by simp)
        (Driver.store_with_tx (ringPop_store hpop)))
    | rbPop i sel d b r _ hr _ _ hpop =>
      cases hj
      exact .inl (State.slot_of_store_eq hr (d' := d.setRing sel r) (by simp)
        (Driver.store_setRing (ringPop_store hpop)))
    | configure i par stb baud d div dbl _ hr _ _ _ =>
      cases hj
      exact .inl (State.slot_of_store_eq hr (d' := { d with settings := some ⟨baud, stb, par⟩ })
        (by simp [configurePort]) (fun sel => by cases sel <;> rfl))
    | ovfClear i d _ hr =>
      cases hj
      exact .inl (State.slot_of_store_eq hr (d' := { d with overwritten := false }) (by simp)
        (fun sel => by cases sel <;> rfl))
    | flushEmpty | udreDisable | ovfRead | badRead | rbFull | rbEmpty | rbSize | rbCapacity =>
      cases hj
      exact .inl (State.slot_of_reg_eq (by simp))

/-- Settles O55: an instruction that answers leaves every index or has its effect, and an effect leaves the slots of an
index unless its instruction is one of the five the statement excludes there. -/
theorem formsThatStoreNothing : Obligations.FormsThatStoreNothing := by
  intro ins s t j sel k h hins
  obtain ⟨hport, -, -⟩ | heff := exec_same_or_effect h
  · exact State.slot_of_reg_eq (by rw [hport]) sel k
  · obtain hslot | ⟨_, _, rfl⟩ | ⟨_, rfl⟩ | rfl | ⟨_, _, rfl⟩ | rfl := heff.slot_same_or_stores j
    · exact hslot sel k
    · exact hins.elim
    · exact hins.elim
    · exact hins.elim
    · exact absurd rfl hins
    · exact absurd rfl hins

end Sys2Proof.Machine
end

section
/-! The decoder and the encoder are inverse to each other (30_encoding.md R65 to R72): each decoder of one form reads back
the codes its words are built from, and a word that decodes is a legal word and the word of its instruction. -/

namespace Sys2Proof

/-! ### Reading back the fields of a word that is built from them -/

theorem Word.sub_wordOf {op sub : Nat} (i : Idx) (ho : op < 16) (hs : sub < 256) : (wordOf op i sub).sub = sub := by
  rw [Word.sub, Word.field_wordOf i ho hs (by decide) (by decide)]
  omega

/-- The `idx` field as the number that a global command's check reads (R66). -/
theorem Word.field_idx_wordOf {op sub : Nat} (i : Idx) (hs : sub < 256) : (wordOf op i sub).field 11 8 = i.val := by
  have := i.isLt
  simp only [wordOf, Word.field, BitVec.toNat_ofNat]
  omega

theorem decodePlain_wordOf {op : Nat} (i : Idx) (ins : Instr) (ho : op < 16) :
    decodePlain (wordOf op i 0) ins = .ok ins := by
  simp [decodePlain, Word.sub_wordOf i ho]

theorem decodeGlobal_wordOf {op : Nat} (ins : Instr) (ho : op < 16) : decodeGlobal (wordOf op 0 0) ins = .ok ins := by
  simp [decodeGlobal, Word.field_idx_wordOf, decodePlain_wordOf 0 ins ho]

theorem decodeConfigure_wordOf (i : Idx) (par : Parity) (stb : StopBits) (o : Operands) :
    decodeConfigure (wordOf 0x3 i (parCode par * 2 + stbCode stb)) o = .ok (.configure i par stb o.baud) := by
  cases par <;> cases stb <;> simp [decodeConfigure, parCode, stbCode, Word.field_wordOf, Word.idx_wordOf]

/-- The six primitives of a ring, by their code in sub[2:0] (R71). -/
theorem decodeRing_wordOf (i : Idx) (sel : RingSel) (o : Operands) :
    decodeRing (wordOf 0xA i (selCode sel * 128 + 0)) o = .ok (.rbPush i sel o.byte) ∧
    decodeRing (wordOf 0xA i (selCode sel * 128 + 1)) o = .ok (.rbPop i sel) ∧
    decodeRing (wordOf 0xA i (selCode sel * 128 + 2)) o = .ok (.rbFull i sel) ∧
    decodeRing (wordOf 0xA i (selCode sel * 128 + 3)) o = .ok (.rbEmpty i sel) ∧
    decodeRing (wordOf 0xA i (selCode sel * 128 + 4)) o = .ok (.rbSize i sel) ∧
    decodeRing (wordOf 0xA i (selCode sel * 128 + 5)) o = .ok (.rbCapacity i sel) := by
  cases sel <;> simp [decodeRing, selCode, Word.field_wordOf, Word.idx_wordOf]

/-! ### Decoding an encoding -/

theorem parCode_lt (par : Parity) : parCode par < 3 := by cases par <;> decide

theorem stbCode_lt (stb : StopBits) : stbCode stb < 2 := by cases stb <;> decide

theorem selCode_lt (sel : RingSel) : selCode sel < 2 := by cases sel <;> decide

/-- The decoder reads an instruction back from its word and its operand record. -/
theorem decode_encode (i : Instr) : decode (encodeWord i) (encodeOperands i) = .ok i := by
  cases i with
  | construct | destruct | write | read | flush | evRxc | evUdre =>
    simp [encodeWord, encodeOperands, decode, Word.op_wordOf, Word.idx_wordOf, decodePlain_wordOf]
  | csEnter | csExit | baudSelect =>
    simp [encodeWord, encodeOperands, decode, Word.op_wordOf, decodeGlobal_wordOf]
  | ovfRead | ovfClear | badRead =>
    simp [encodeWord, decode, Word.op_wordOf, Word.idx_wordOf, decodeFlags, Word.field_wordOf]
  | configure idx par stb baud =>
    have hpar := parCode_lt par
    have hstb := stbCode_lt stb
    simp (disch := omega) only [encodeWord, encodeOperands, decode, Word.op_wordOf, decodeConfigure_wordOf]
  | rbPush idx sel | rbPop idx sel | rbFull idx sel | rbEmpty idx sel | rbSize idx sel | rbCapacity idx sel =>
    have hsel := selCode_lt sel
    simp (disch := omega) only [encodeWord, encodeOperands, decode, Word.op_wordOf, decodeRing_wordOf]

/-- Settles O1: the form's own decoder reads back each code of the word, and the operands are the record's entries. -/
theorem decodeOfEncode : Obligations.DecodeOfEncode := decode_encode

/-! ### What a word that decodes is -/

/-- The forms a legal word has (R66 to R71): its `sub` all 0, a global command with `idx` 0 too, a CONFIGURE, a FLAGS, a
ring primitive. -/
def Word.Legal (w : Word) : Prop :=
  ((w.op = 0x1 ∨ w.op = 0x2 ∨ w.op = 0x4 ∨ w.op = 0x5 ∨ w.op = 0x6 ∨ w.op = 0xC ∨ w.op = 0xD) ∧ w.sub = 0) ∨
  ((w.op = 0x8 ∨ w.op = 0x9 ∨ w.op = 0xB) ∧ w.field 11 8 = 0 ∧ w.sub = 0) ∨
  (w.op = 0x3 ∧ w.field 7 3 = 0 ∧ w.field 2 1 < 3) ∨
  (w.op = 0x7 ∧ w.field 7 2 = 0 ∧ w.field 1 0 < 3) ∨
  (w.op = 0xA ∧ w.field 6 3 = 0 ∧ w.field 2 0 < 6)

theorem Word.wordOf_of_sub_zero {w : Word} {op : Nat} (ho : w.op = op) (hs : w.sub = 0) : wordOf op w.idx 0 = w := by
  have h := w.wordOf_fields
  rwa [ho, hs] at h

/-- A CONFIGURE's `sub` is its parity code and its stop code (R69). -/
theorem Word.sub_of_configure {w : Word} (h : w.field 7 3 = 0) : w.sub = w.field 2 1 * 2 + w.field 0 0 := by
  simp only [Word.sub, Word.field] at h ⊢
  omega

/-- A FLAGS's `sub` is its flag operation (R70). -/
theorem Word.sub_of_flags {w : Word} (h : w.field 7 2 = 0) : w.sub = w.field 1 0 := by
  simp only [Word.sub, Word.field] at h ⊢
  omega

/-- A ring command's `sub` is its buffer select and its primitive (R71). -/
theorem Word.sub_of_ring {w : Word} (h : w.field 6 3 = 0) : w.sub = w.field 7 7 * 128 + w.field 2 0 := by
  simp only [Word.sub, Word.field] at h ⊢
  omega

/-- The stop count that bit 0 selects has that bit as its code (R69). -/
theorem Word.stbCode_bit (w : Word) :
    stbCode (if w.field 0 0 = 0 then StopBits.one else StopBits.two) = w.field 0 0 := by
  have hbit : w.field 0 0 < 2 := Nat.mod_lt _ (by decide)
  split
  · exact Eq.symm ‹_›
  · change 1 = _
    omega

/-- The ring that bit 7 selects has that bit as its code (R71). -/
theorem Word.selCode_bit (w : Word) : selCode (if w.field 7 7 = 0 then RingSel.rx else RingSel.tx) = w.field 7 7 := by
  have hbit : w.field 7 7 < 2 := Nat.mod_lt _ (by decide)
  split
  · exact Eq.symm ‹_›
  · change 1 = _
    omega

theorem decodeGlobal_ok {w : Word} {i j : Instr} (h : decodeGlobal w i = .ok j) :
    w.field 11 8 = 0 ∧ w.idx = 0 ∧ w.sub = 0 ∧ j = i := by
  unfold decodeGlobal at h
  split at h
  · rename_i hidx
    exact ⟨hidx, by simp [Word.idx, hidx], decodePlain_ok h⟩
  · cases h

theorem decodeConfigure_ok {w : Word} {o : Operands} {i : Instr} (h : decodeConfigure w o = .ok i) :
    w.field 7 3 = 0 ∧ w.field 2 1 < 3 ∧ encodeWord i = wordOf 0x3 w.idx w.sub := by
  unfold decodeConfigure at h
  split at h
  · rename_i hsub
    refine ⟨hsub, ?_⟩
    have hstb := w.stbCode_bit
    generalize (if w.field 0 0 = 0 then StopBits.one else StopBits.two) = stb at h hstb
    rw [Word.sub_of_configure hsub, ← hstb]
    split at h <;> cases h
    all_goals simp [*, encodeWord, parCode]
  · cases h

theorem decodeFlags_ok {w : Word} {i : Instr} (h : decodeFlags w = .ok i) :
    w.field 7 2 = 0 ∧ w.field 1 0 < 3 ∧ encodeWord i = wordOf 0x7 w.idx w.sub := by
  unfold decodeFlags at h
  split at h
  · rename_i hsub
    refine ⟨hsub, ?_⟩
    rw [Word.sub_of_flags hsub]
    split at h <;> cases h
    all_goals simp [*, encodeWord]
  · cases h

theorem decodeRing_ok {w : Word} {o : Operands} {i : Instr} (h : decodeRing w o = .ok i) :
    w.field 6 3 = 0 ∧ w.field 2 0 < 6 ∧ encodeWord i = wordOf 0xA w.idx w.sub := by
  unfold decodeRing at h
  split at h
  · rename_i hsub
    refine ⟨hsub, ?_⟩
    have hsel := w.selCode_bit
    generalize (if w.field 7 7 = 0 then RingSel.rx else RingSel.tx) = sel at h hsel
    rw [Word.sub_of_ring hsub, ← hsel]
    split at h <;> cases h
    all_goals simp [*, encodeWord]
  · cases h

/-- A word that decodes has one of the legal forms and is the word of its instruction. -/
theorem decode_ok {w : Word} {o : Operands} {i : Instr} (h : decode w o = .ok i) : w.Legal ∧ encodeWord i = w := by
  unfold decode at h
  split at h
  case h_1 ho | h_2 ho | h_4 ho | h_5 ho | h_6 ho | h_12 ho | h_13 ho =>
    obtain ⟨hs, rfl⟩ := decodePlain_ok h
    exact ⟨.inl ⟨by simp [ho], hs⟩, Word.wordOf_of_sub_zero ho hs⟩
  case h_8 ho | h_9 ho | h_11 ho =>
    obtain ⟨hidx, hzero, hs, rfl⟩ := decodeGlobal_ok h
    exact ⟨.inr (.inl ⟨by simp [ho], hidx, hs⟩), by rw [← Word.wordOf_of_sub_zero ho hs, hzero]; rfl⟩
  case h_3 ho =>
    obtain ⟨hsub, hpar, hw⟩ := decodeConfigure_ok h
    exact ⟨.inr (.inr (.inl ⟨ho, hsub, hpar⟩)), by rw [hw, ← ho, w.wordOf_fields]⟩
  case h_7 ho =>
    obtain ⟨hsub, hflag, hw⟩ := decodeFlags_ok h
    exact ⟨.inr (.inr (.inr (.inl ⟨ho, hsub, hflag⟩))), by rw [hw, ← ho, w.wordOf_fields]⟩
  case h_10 ho =>
    obtain ⟨hsub, hprim, hw⟩ := decodeRing_ok h
    exact ⟨.inr (.inr (.inr (.inr ⟨ho, hsub, hprim⟩))), by rw [hw, ← ho, w.wordOf_fields]⟩
  case h_14 => cases h

/-- The row of an instruction is in the table, and its word has the row's fixed bits. -/
theorem row_fits_encodeWord (i : Instr) : i.row ∈ opcodeTable ∧ i.row.fits (encodeWord i) := by
  cases i with
  | construct idx nRx nTx => exact Laws.RowMatch.construct idx nRx nTx
  | destruct idx => exact Laws.RowMatch.destruct idx
  | configure idx par stb baud => exact Laws.RowMatch.configure idx par stb baud
  | write idx bytes => exact Laws.RowMatch.write idx bytes
  | read idx len => exact Laws.RowMatch.read idx len
  | flush idx => exact Laws.RowMatch.flush idx
  | ovfRead idx => exact Laws.RowMatch.ovfRead idx
  | ovfClear idx => exact Laws.RowMatch.ovfClear idx
  | badRead idx => exact Laws.RowMatch.badRead idx
  | csEnter => exact Laws.RowMatch.csEnter
  | csExit => exact Laws.RowMatch.csExit
  | rbPush idx sel b => exact Laws.RowMatch.rbPush idx sel b
  | rbPop idx sel => exact Laws.RowMatch.rbPop idx sel
  | rbFull idx sel => exact Laws.RowMatch.rbFull idx sel
  | rbEmpty idx sel => exact Laws.RowMatch.rbEmpty idx sel
  | rbSize idx sel => exact Laws.RowMatch.rbSize idx sel
  | rbCapacity idx sel => exact Laws.RowMatch.rbCapacity idx sel
  | baudSelect baud => exact Laws.RowMatch.baudSelect baud
  | evRxc idx => exact Laws.RowMatch.evRxc idx
  | evUdre idx => exact Laws.RowMatch.evUdre idx

/-- Settles O2: a word that decodes is the word of its instruction, and that word fits the instruction's row. -/
theorem encodeOfDecode : Obligations.EncodeOfDecode := by
  intro w o i h
  obtain ⟨-, rfl⟩ := decode_ok h
  exact ⟨rfl, row_fits_encodeWord i⟩

end Sys2Proof
end

section
/-! The words the foreground may not issue and the words that name dispatcher steps (R74, R75): an illegal word has none
of the legal forms, an event record decodes to an event. -/

namespace Sys2Proof.Machine

/-- A foreground turn with no WRITE between its phases issues the next command, which is taken off the inputs (R166). -/
theorem step_of_issues {s : State} {w : Word} {o : Operands} {rest : List Command} {turns : List Turn}
    (h : s.Issues w o rest turns) : step s = issue ⟨w, o⟩ ((s.setSched turns).setProgram rest) := by
  obtain ⟨hf, hpend, hprog, hsched⟩ := h
  simp [step, takeTurn, hsched, hf, turnStep, foregroundTurn, hpend, hprog]

/-- A word that decodes to no command of the foreground is illegal there (R74, R75). -/
theorem issue_illegal {w : Word} {o : Operands} (s : State) (h : ∀ i, decode w o = .ok i → i.isEvent = true) :
    issue ⟨w, o⟩ s = .next (s.raise (.illegalCommand w)) := by
  unfold issue
  split
  · rfl
  · rename_i i hd
    rw [if_pos (h i hd)]

/-- Settles O4: a word that decodes has a legal form and fits a row, and each class of the statement excludes one of the
two, so no illegal word decodes. -/
theorem illegalWordRaises : Obligations.IllegalWordRaises := by
  intro s w o rest turns hissues hclass
  rw [step_of_issues hissues]
  refine issue_illegal _ fun i hd => False.elim ?_
  obtain ⟨hlegal, hword⟩ := decode_ok hd
  have hrows : ¬ ∀ r ∈ opcodeTable, ¬ r.fits w := fun hnone =>
    hnone i.row (row_fits_encodeWord i).1 (hword ▸ (row_fits_encodeWord i).2)
  simp only [hrows, or_false] at hclass
  unfold Word.Legal at hlegal
  omega

/-- Only event records have op 0xC or 0xD (R67, R75). -/
theorem isEvent_of_decode {w : Word} {o : Operands} {i : Instr} (h : decode w o = .ok i)
    (ho : w.op = 0xC ∨ w.op = 0xD) : i.isEvent = true := by
  obtain ho | ho := ho
  all_goals
    simp only [decode, ho] at h
    rw [(decodePlain_ok h).2]
    rfl

/-- A dispatcher turn with the record of an event, in a block that is not halted, is that event (R75). -/
theorem step_of_record {s : State} {i : Instr} {turns : List Turn} (hf : s.fault = none) (he : i.isEvent = true)
    (hd : decode (encodeWord i) .zero = .ok i) (hs : s.sched = .dispatch (encodeWord i) :: turns) :
    step s = exec i (s.setSched turns) := by
  simp [step, takeTurn, hs, hf, turnStep, dispatchTurn, hd, he]

/-- Settles O5: a word of op 0xC or 0xD decodes to nothing but an event, which the foreground may not issue; the record of an
event decodes to it. -/
theorem eventRecordsNameDispatcherSteps : Obligations.EventRecordsNameDispatcherSteps := by
  refine ⟨fun s w o rest turns hissues hop => ?_, fun s i turns hf => ⟨fun hs => ?_, fun hs => ?_⟩⟩
  · rw [step_of_issues hissues]
    exact issue_illegal _ fun i hd => isEvent_of_decode hd hop
  · exact step_of_record hf rfl (decode_encode (.evRxc i)) hs
  · exact step_of_record hf rfl (decode_encode (.evUdre i)) hs

end Sys2Proof.Machine
end

section
/-! The checks made before a command's own, in the order of R79: every command is issued through `foreground`, a command
of an index through `perIndex`, a driver command through `perDriver`. -/

namespace Sys2Proof.Machine

theorem exec_eq_foreground (ins : Instr) (s : State) (he : ins.isEvent = false) :
    ∃ x, exec ins s = foreground ins s x := by
  cases ins
  case evRxc | evUdre => cases he
  all_goals exact ⟨_, rfl⟩

theorem exec_eq_perIndex {ins : Instr} {i : Idx} (s : State) (hi : ins.idx? = some i) (he : ins.isEvent = false) :
    ∃ x, exec ins s = foreground ins s (perIndex i s x) := by
  cases ins
  case evRxc | evUdre => cases he
  case csEnter | csExit | baudSelect => cases hi
  all_goals
    cases hi
    exact ⟨_, rfl⟩

theorem exec_eq_perDriver {ins : Instr} {i : Idx} (s : State) (hi : ins.idx? = some i)
    (hd : ins.isDriverCommand = true) : ∃ f, exec ins s = foreground ins s (perDriver i s f) := by
  cases ins
  case construct | csEnter | csExit | baudSelect | evRxc | evUdre => cases hd
  all_goals
    cases hi
    exact ⟨_, rfl⟩

/-- Step 3 of R79: an operand out of range ends a command before any check of its own. -/
theorem exec_badOperand {ins : Instr} {s : State} (he : ins.isEvent = false) (hf : s.fault = none)
    (hw : ins.wf = false) : exec ins s = .next (s.raise (.badOperand (encodeWord ins) (encodeOperands ins))) := by
  obtain ⟨x, hx⟩ := exec_eq_foreground ins s he
  simp [hx, foreground, hf, hw]

/-- Settles O8: an operand out of its range makes the instruction ill-formed, and that is checked before the index. -/
theorem operandOutOfRangeRaises : Obligations.OperandOutOfRangeRaises := by
  intro s hf
  refine ⟨fun i nRx nTx h => exec_badOperand rfl hf ?_, fun i bytes h => exec_badOperand rfl hf ?_,
    fun i len h => exec_badOperand rfl hf ?_, fun i par stb baud h => exec_badOperand rfl hf ?_,
    fun baud h => exec_badOperand rfl hf ?_, fun i sel b h => exec_badOperand rfl hf ?_⟩
  · simp only [Instr.wf, capacityInRange, Bool.and_eq_false_iff, decide_eq_false_iff_not, maxLength]
    omega
  · simp [Instr.wf, lengthInRange, h]
  · simp [Instr.wf, lengthInRange, h]
  · simpa [Instr.wf, baudInRange] using h
  · simpa [Instr.wf, baudInRange] using h
  · simp [Instr.wf, byteInRange, h]

/-- Settles O9: the operands are in range, so the index is the check that ends the command (R79 step 4). -/
theorem indexOutOfRangeAnswersError : Obligations.IndexOutOfRangeAnswersError := by
  intro ins i s hi he hw hf hrange
  obtain ⟨x, hx⟩ := exec_eq_perIndex s hi he
  rw [hx, foreground_eq hf hw, perIndex, if_neg (Nat.not_lt.2 hrange)]
  rfl

/-- Settles O10: the index exists, so the empty slot is the check that ends the command (R79 step 5), before the guard on
I of the direct ring commands. -/
theorem emptySlotAnswersNotConstructed : Obligations.EmptySlotAnswersNotConstructed := by
  intro ins i s hi hd hw hf hp hr
  obtain ⟨f, hx⟩ := exec_eq_perDriver s hi hd
  rw [hx, foreground_eq hf hw, perDriver, perIndex_eq hp, hr]
  rfl

end Sys2Proof.Machine
end

section
/-! What an instruction that answers can reply (R73, R160, R162), and that it leaves the other indices (R66, R50). -/

namespace Sys2Proof.Machine

/-- Settles O54: an instruction that answers leaves every index or has its own effect, which stays at its index. -/
theorem commandsTouchOnlyTheirIndex : Obligations.CommandsTouchOnlyTheirIndex := by
  intro ins s t j h hj
  obtain ⟨hport, -, -⟩ | heff := exec_same_or_effect h
  · exact hport j
  · exact heff.port_ne hj

/-- An instruction with an error status is no event: a handler raises no error (R170). -/
theorem isEvent_eq_false_of_mem_errors {ins : Instr} {e : Status} (h : e ∈ Instr.errors ins) : ins.isEvent = false := by
  cases ins
  case evRxc | evUdre => cases h
  all_goals rfl

/-- An effect replies OK once; an event replies nothing, and a WRITE's reply waits for its second phase (R133). -/
theorem Effect.reply {s t : State} {ins : Instr} (h : Effect s ins t) :
    (ins.isEvent = false ∧ ∃ x, t.replies = s.replies ++ [⟨.ok, x⟩]) ∨
      (t.replies = s.replies ∧ (ins.isEvent = true ∨
        ∃ i bytes k, ins = .write i bytes ∧ t.pending = some { idx := i, written := k })) := by
  cases h with
  | write => exact .inr ⟨rfl, .inr ⟨_, _, _, rfl, rfl⟩⟩
  | rxcDiscard | rxcStore | udreSend | udreDisable => exact .inr ⟨by simp [rxcTaken], .inl rfl⟩
  | flushSent => exact .inl ⟨rfl, .empty, by simp [Machine.flushSent]⟩
  | _ => exact .inl ⟨rfl, _, rfl⟩

/-- Settles O11: of the four ways an instruction can end, an idle event and a raised fault reply nothing, an error status
of the instruction's own list is the only change, and the effect replies OK or nothing. -/
theorem errorStatusesPerCommand : Obligations.ErrorStatusesPerCommand := by
  intro ins s t h
  cases (exec_ended h).2 with
  | idle he ht => exact .inl ⟨by rw [ht], .inl he⟩
  | raised f ht => exact .inl ⟨by rw [ht]; rfl, .inr (.inl (by simp [ht]))⟩
  | error e he ht =>
    refine .inr ⟨⟨e, .empty⟩, by rw [ht]; rfl, isEvent_eq_false_of_mem_errors he, fun _ => ht, .inr ?_⟩
    cases ins
    case csEnter | csExit | baudSelect | evRxc | evUdre => cases he
    all_goals simpa [Instr.errors] using he
  | effect heff =>
    obtain ⟨he, x, hr⟩ | ⟨hr, he | hw⟩ := heff.reply
    · exact .inr ⟨⟨.ok, x⟩, hr, he, fun hne => absurd rfl hne, .inl rfl⟩
    · exact .inl ⟨hr, .inl he⟩
    · exact .inl ⟨hr, .inr (.inr hw)⟩

end Sys2Proof.Machine
end

section
/-! The ring functions as a FIFO queue that loses its oldest bytes on overflow (40_ring_buffer.md R85 to R87, R95, R96),
and the direct ring commands inside and outside a critical section (R88 to R94). -/

namespace Sys2Proof.Machine

/-! ### One push, one pop, one push with eviction -/

/-- Settles O12: a push needs only that the tail names a slot. -/
theorem ringPushAppends : Obligations.RingPushAppends := by
  intro r b _ ht
  exact ⟨_, ringPush_eq b ht, Memory.read_write_same _ _ _, fun k hk => Memory.read_write_ne _ _ hk, rfl, rfl, rfl, rfl,
    fun hwf => Memory.wf_write hwf _ _⟩

/-- Settles O13: a pop needs only that the head names a written slot. -/
theorem ringPopRemovesHead : Obligations.RingPopRemovesHead := by
  intro r b _ hh hb
  exact ⟨_, ringPop_eq hh hb, rfl, rfl, rfl, rfl, rfl⟩

/-- In a full ring the tail has come round to the head (R26). -/
theorem Ring.Ok.tail_eq_head {r : Ring} (h : r.Ok) (hc : r.count = r.N) : r.tail = r.head := by
  obtain ⟨-, -, ⟨hh, -⟩, he, -⟩ := h
  rw [he, hc, Nat.add_mod_right, Nat.mod_eq_of_lt hh]

/-- Settles O14: on a full ring the push with eviction writes the tail's slot, and the tail is the head; on another ring
it is the push. -/
theorem ringPushOverwriteEvicts : Obligations.RingPushOverwriteEvicts := by
  intro r b h
  constructor
  · intro hc
    obtain ⟨r', hp, -, hN, hs, ht, -, hfull⟩ := ringPushOverwrite_ok h b
    obtain ⟨-, hcount, hhead⟩ := hfull hc
    refine ⟨h.tail_eq_head hc, r', by simpa [hc] using hp, hhead, ht, hcount, hN, ?_, fun k hk => ?_⟩
    · rw [hs, Memory.read_write_same]
    · rw [hs, Memory.read_write_ne _ _ hk]
  · intro hc
    obtain ⟨r', hp, -⟩ := ringPush_ok h (Nat.lt_of_le_of_ne h.2.1 hc) b
    exact ⟨r', hp, by simp only [ringPushOverwrite, hc, if_false, hp]⟩

/-! ### The queue -/

/-- The `j`-th held byte is in the slot `j` places after the head, modulo the capacity (R96): it is the head's slot once
`j` bytes have been popped. -/
theorem Ring.Ok.contents_getElem? {r : Ring} (h : r.Ok) {j : Nat} (hj : j < r.count) :
    r.contents[j]? = r.store.read ((r.head + j) % r.N) := by
  induction j generalizing r with
  | zero =>
    obtain ⟨b, r', -, -, hcon, -, hb, -⟩ := ringPop_ok h hj
    obtain ⟨-, -, ⟨hh, -⟩, -⟩ := h
    rw [hcon, Nat.add_zero, Nat.mod_eq_of_lt hh, hb]
    rfl
  | succ j ih =>
    obtain ⟨b, r', -, hok, hcon, hN, -, hhead, -, hcount, hs⟩ := ringPop_ok h (by omega)
    rw [hcon, List.getElem?_cons_succ, ih hok (by omega), hs, hN, hhead, Nat.mod_add_mod, Nat.add_assoc,
      Nat.add_comm 1 j]

/-- Settles O15: the laws of the three ring functions, each on a sound ring. -/
theorem ringIsFifo : Obligations.RingIsFifo := by
  refine ⟨fun n h1 h2 => ⟨Ring.fresh_ok h1 h2, rfl⟩, fun r b h =>
    ⟨fun j hj => h.contents_getElem? hj, Ring.length_contents h, fun hc => ?_, fun hc => ?_, ?_⟩⟩
  · obtain ⟨r', hp, hok, hcon, -⟩ := ringPush_ok h hc b
    exact ⟨r', hp, hok, hcon⟩
  · obtain ⟨c, r', hp, hok, hcon, -⟩ := ringPop_ok h hc
    exact ⟨c, r', hp, hok, hcon⟩
  · obtain ⟨r', hp, hok, -, -, -, hroom, hfull⟩ := ringPushOverwrite_ok h b
    refine ⟨r', hp, hok, ?_⟩
    split
    case isTrue hc => exact (hfull hc).1
    case isFalse hc => exact (hroom (Nat.lt_of_le_of_ne h.2.1 hc)).1

/-! ### Feeding bytes into a ring -/

/-- The last `n` bytes of a sequence, or all of it where it is shorter. -/
def newest (n : Nat) (l : List Byte) : List Byte := l.drop (l.length - n)

theorem newest_of_length_le {n : Nat} {l : List Byte} (h : l.length ≤ n) : newest n l = l := by
  rw [newest, Nat.sub_eq_zero_of_le h, List.drop_zero]

/-- What was lost before is lost in the end. -/
theorem newest_newest_append (n : Nat) (l m : List Byte) : newest n (newest n l ++ m) = newest n (l ++ m) := by
  have hdrop : newest n l ++ m = (l ++ m).drop (l.length - n) :=
    (List.drop_append_of_le_length (Nat.sub_le _ _)).symm
  rw [hdrop, newest, newest, List.drop_drop]
  congr 1
  simp only [List.length_drop, List.length_append]
  omega

/-- The receive handler's push keeps the newest bytes (R87, R96). -/
theorem ringPushOverwrite_newest {r : Ring} (h : r.Ok) (b : Byte) :
    ∃ r', ringPushOverwrite r b = .ok (decide (r.count = r.N), r') ∧ r'.Ok ∧ r'.N = r.N ∧
      r'.contents = newest r.N (r.contents ++ [b]) ∧ r'.count = min (r.count + 1) r.N := by
  obtain ⟨r', hp, hok, hN, -, -, hroom, hfull⟩ := ringPushOverwrite_ok h b
  have hlen := Ring.length_contents h
  obtain ⟨⟨hpos, -⟩, hle, -⟩ := h
  refine ⟨r', hp, hok, hN, ?_⟩
  obtain hc | hc := Nat.lt_or_eq_of_le hle
  · obtain ⟨hcon, hcount, -⟩ := hroom hc
    exact ⟨by rw [hcon, newest_of_length_le (by simp; omega)], by omega⟩
  · obtain ⟨hcon, hcount, -⟩ := hfull hc
    refine ⟨?_, by omega⟩
    have hone : (r.contents ++ [b]).length - r.N = 1 := by simp; omega
    rw [hcon, newest, hone, List.drop_one, List.tail_append_of_ne_nil (List.ne_nil_of_length_pos (by omega))]

/-- The pushes of any bytes, by induction on them: each push keeps the newest bytes of what came before it, and evicts
once the ring has filled. -/
theorem pushAll_newest {r : Ring} (h : r.Ok) (bs : List Byte) :
    ∃ e r', pushAll r bs = .ok (e, r') ∧ r'.Ok ∧ r'.N = r.N ∧ r'.contents = newest r.N (r.contents ++ bs) ∧
      (e = true ↔ r.N < r.count + bs.length) := by
  induction bs generalizing r with
  | nil =>
    have hlen := Ring.length_contents h
    have hle := h.2.1
    exact ⟨false, r, rfl, h, rfl, by rw [List.append_nil, newest_of_length_le (by omega)], by simpa using hle⟩
  | cons b bs ih =>
    have hle := h.2.1
    obtain ⟨r₁, hp₁, hok₁, hN₁, hcon₁, hcount₁⟩ := ringPushOverwrite_newest h b
    obtain ⟨e, r₂, hp₂, hok₂, hN₂, hcon₂, hev⟩ := ih hok₁
    refine ⟨decide (r.count = r.N) || e, r₂, by simp only [pushAll, hp₁, hp₂], hok₂, hN₂.trans hN₁, ?_, ?_⟩
    · rw [hcon₂, hcon₁, hN₁, newest_newest_append, List.append_assoc, List.singleton_append]
    · rw [Bool.or_eq_true, decide_eq_true_eq, hev, List.length_cons]
      omega

/-- Settles O16: the statement writes out what `newest` keeps. -/
theorem overflowKeepsNewestBytes : Obligations.OverflowKeepsNewestBytes := fun _ bs h => pushAll_newest h bs

/-! ### The direct ring commands -/

/-- Inside a critical section a direct ring command on a driver is its own reaction on the selected ring (R79, R88). -/
theorem foreground_guardedRing {ins : Instr} {w : Word} {i : Idx} {sel : RingSel} {s : State}
    {f : Driver → Ring → Reaction} {d : Driver} (h : s.Ready i d) (hI : s.I = false) (hw : ins.wf = true) :
    foreground ins s (guardedRing w i sel s f) = settle s (f d (d.ring sel)) := by
  obtain ⟨hf, hp, hr⟩ := h
  rw [foreground_eq hf hw, guardedRing_eq hp hr hI]

/-- Outside a critical section it records F_UNGUARDED_ACCESS (R88). -/
theorem foreground_guardedRing_unguarded {ins : Instr} {w : Word} {i : Idx} {sel : RingSel} {s : State}
    {f : Driver → Ring → Reaction} {d : Driver} (h : s.Ready i d) (hI : s.I = true) (hw : ins.wf = true) :
    foreground ins s (guardedRing w i sel s f) = .next (s.raise (.unguardedAccess w)) := by
  obtain ⟨hf, hp, hr⟩ := h
  rw [foreground_eq hf hw, guardedRing, perDriver_eq hp hr, if_pos hI, settle_raise]

theorem Instr.wf_rbPush {i : Idx} {sel : RingSel} {b : Nat} (h : b ≤ 255) : (Instr.rbPush i sel b).wf = true := by
  simpa [Instr.wf, byteInRange] using h

/-- Settles O19: the guard passes, and the query replies. -/
theorem ringQueriesAnswer : Obligations.RingQueriesAnswer := fun _ _ _ _ h hI =>
  ⟨foreground_guardedRing h hI rfl, foreground_guardedRing h hI rfl, foreground_guardedRing h hI rfl,
    foreground_guardedRing h hI rfl⟩

/-- Settles O20: with I = 1 the guard raises whatever the command; with I = 0 a push looks first whether the ring is
full, and a pop whether it is empty. -/
theorem ringCommandFaults : Obligations.RingCommandFaults := by
  intro s i sel d h
  refine ⟨fun hI ins hins => ?_, fun hI b hb hc => ?_, fun hI hc => ?_⟩
  · obtain rfl | rfl | rfl | rfl | rfl | ⟨b, hb, rfl⟩ := hins
    case inr.inr.inr.inr.inr => exact foreground_guardedRing_unguarded h hI (Instr.wf_rbPush hb)
    all_goals exact foreground_guardedRing_unguarded h hI rfl
  · refine (foreground_guardedRing h hI (Instr.wf_rbPush hb)).trans ?_
    rw [if_pos hc, settle_raise]
  · refine (foreground_guardedRing h hI rfl).trans ?_
    rw [if_pos hc, settle_raise]

/-- RB_PUSH inside a critical section on a ring with room (R89). -/
theorem exec_rbPush {s : State} {i : Idx} {sel : RingSel} {b : Nat} {d : Driver} {r : Ring} (h : s.Ready i d)
    (hI : s.I = false) (hb : b ≤ 255) (hc : (d.ring sel).count ≠ (d.ring sel).N)
    (hp : ringPush (d.ring sel) (BitVec.ofNat 8 b) = .ok r) :
    exec (.rbPush i sel b) s = .next ((s.setReg i (some (d.setRing sel r))).answer replyOk) := by
  refine (foreground_guardedRing h hI (Instr.wf_rbPush hb)).trans ?_
  rw [if_neg hc, hp]
  rfl

/-- RB_POP inside a critical section on a ring that holds a byte (R90). -/
theorem exec_rbPop {s : State} {i : Idx} {sel : RingSel} {b : Byte} {d : Driver} {r : Ring} (h : s.Ready i d)
    (hI : s.I = false) (hc : (d.ring sel).count ≠ 0) (hp : ringPop (d.ring sel) = .ok (b, r)) :
    exec (.rbPop i sel) s = .next ((s.setReg i (some (d.setRing sel r))).answerOk (.byte b)) := by
  refine (foreground_guardedRing h hI rfl).trans ?_
  rw [if_neg hc, hp]
  rfl

theorem State.slot_of_reg {s : State} {i : Idx} {d : Driver} (hr : (s.port i).reg = some d) (sel : RingSel) (k : Nat) :
    s.slot i sel k = (d.ring sel).store.read k := by
  rw [State.slot, hr, Option.bind_some]

/-- A new ring put where `sel` names one: its slots read from it, and every other slot as before. -/
theorem State.slot_setRing {s : State} {i : Idx} {d : Driver} (hr : (s.port i).reg = some d) (sel : RingSel) (r : Ring)
    (j : Idx) (sel' : RingSel) (k : Nat) :
    (s.setReg i (some (d.setRing sel r))).slot j sel' k =
      if j = i ∧ sel' = sel then r.store.read k else s.slot j sel' k := by
  by_cases hj : j = i
  case neg =>
    rw [if_neg (fun h => hj h.1)]
    exact State.slot_of_reg_eq (by rw [State.port_setReg_ne _ _ hj]) sel' k
  case pos =>
    subst hj
    rw [State.slot_of_reg (d := d.setRing sel r) (by rw [State.port_setReg_same]), State.slot_of_reg hr]
    by_cases hsel : sel' = sel
    case neg => rw [if_neg (fun h => hsel h.2), Driver.ring_setRing_ne _ _ hsel]
    case pos =>
      subst hsel
      rw [if_pos ⟨rfl, rfl⟩, Driver.ring_setRing_same]

/-- Settles O17: the ring's own push, with its one slot, seen through the driver. -/
theorem rbPushAppendsOneByte : Obligations.RbPushAppendsOneByte := by
  intro s i sel b d h hI hb hok hc
  obtain ⟨r, hp, -, hcon, -, -, -, -, hs⟩ := ringPush_ok hok hc (BitVec.ofNat 8 b)
  have ⟨_, _, hr⟩ := h
  refine ⟨r, _, hp, exec_rbPush h hI hb (Nat.ne_of_lt hc) hp, rfl, hcon, ?_, fun j sel' k hk => ?_⟩
  · rw [State.slot_answer, State.slot_setRing hr, if_pos ⟨rfl, rfl⟩, hs, Memory.read_write_same]
  · rw [State.slot_answer, State.slot_setRing hr]
    split
    case isFalse => rfl
    case isTrue hji =>
      obtain ⟨rfl, rfl⟩ := hji
      have hne : k ≠ (d.ring sel').tail := by simpa using hk
      rw [hs, Memory.read_write_ne _ _ hne, State.slot_of_reg hr]

/-- Settles O18: the ring's own pop, seen through the driver; RB_POP is none of the forms that store (O55). -/
theorem rbPopRemovesOldestByte : Obligations.RbPopRemovesOldestByte := by
  intro s i sel d h hI hok hc
  obtain ⟨b, r, hp, -, hcon, -⟩ := ringPop_ok hok hc
  have hexec := exec_rbPop h hI (Nat.ne_of_gt hc) hp
  exact ⟨b, r, _, hp, hexec, rfl, hcon, fun j sel' k => formsThatStoreNothing _ s _ j sel' k hexec trivial⟩

end Sys2Proof.Machine
end

section
/-! The explicit critical sections, how they nest, and the internal ones of the driver commands and handlers
(41_critical_section.md R100 to R103). -/

namespace Sys2Proof.Machine

/-- CS_ENTER in a block that is not halted (R100). -/
theorem exec_csEnter {s : State} (hf : s.fault = none) :
    exec .csEnter s = .next (({ s with I := false, csStack := s.csStack ++ [s.I] } : State).answer replyOk) :=
  foreground_eq hf rfl

/-- CS_EXIT with an open section (R101). -/
theorem exec_csExit {s : State} {st : List Bool} {v : Bool} (hf : s.fault = none) (hk : s.csStack = st ++ [v]) :
    exec .csExit s = .next (({ s with I := v, csStack := st } : State).answer replyOk) := by
  refine (foreground_eq hf rfl).trans ?_
  rw [hk, List.getLast?_concat, List.dropLast_concat]
  rfl

/-- CS_EXIT with no open section (R101). -/
theorem exec_csExit_underflow {s : State} (hf : s.fault = none) (hk : s.csStack = []) :
    exec .csExit s = .next (s.raise (.csUnderflow 0x9000)) := by
  refine (foreground_eq hf rfl).trans ?_
  rw [hk]
  rfl

/-- Settles O21: neither command has an operand to check, and CS_EXIT looks whether the save stack has a last value. -/
theorem csEnterAndExit : Obligations.CsEnterAndExit := fun _ hf =>
  ⟨exec_csEnter hf, fun _ _ hk => exec_csExit hf hk, exec_csExit_underflow hf⟩

/-! ### Nesting (R103) -/

/-- A step keeps the first saved values `k` as long as it leaves at least that many sections open: CS_ENTER and CS_EXIT
write the stack's end only, and a reset, which empties it, leaves none open. -/
theorem step_keeps_prefix {s t : State} {k : List Bool} (h : step s = .next t) (hs : k <+: s.csStack)
    (hlen : k.length ≤ t.csStack.length) : k <+: t.csStack := by
  by_cases hr : s.resets
  case pos =>
    obtain ⟨turns, rfl⟩ := step_resets h hr
    obtain rfl : k = [] := List.eq_nil_of_length_eq_zero (Nat.le_zero.1 hlen)
    exact List.nil_prefix
  case neg =>
    obtain hk | ⟨_, _, _, _, -, -, hk, -⟩ | ⟨_, _, _, _, -, -, hk⟩ := csStackChangesOnlyByEnterAndExit s t h hr
    · rwa [hk]
    · rw [hk]
      exact hs.trans (List.prefix_append _ _)
    · rw [hk] at hs
      exact List.prefix_of_prefix_length_le hs (List.prefix_append _ _) hlen

/-- The saved values of sections that stay open stay (R103). -/
theorem Within.keeps_prefix {a b : State} {k : List Bool} (h : Within k.length a b) (ha : k <+: a.csStack) :
    k <+: b.csStack := by
  induction h with
  | here => exact ha
  | more _ _ _ hstep hlen ih => exact step_keeps_prefix hstep ih hlen

/-- Settles O23: the value CS_ENTER saved is still the last one when its section alone is left open, so it is the one
CS_EXIT restores. -/
theorem nestingLaw : Obligations.NestingLaw := by
  intro s a b t henter hwithin hlen hexit
  have hk : (s.csStack ++ [s.I]).length = s.csStack.length + 1 := List.length_append
  obtain rfl := Host.Outcome.next.inj ((exec_csEnter (exec_ended henter).1).symm.trans henter)
  rw [← hk] at hwithin hlen
  have hb : b.csStack = s.csStack ++ [s.I] := ((hwithin.keeps_prefix List.prefix_rfl).eq_of_length hlen.symm).symm
  obtain rfl := Host.Outcome.next.inj ((exec_csExit (exec_ended hexit).1 hb).symm.trans hexit)
  exact ⟨rfl, rfl⟩

/-! ### The internal critical section and the handlers (R102, R128, R152) -/

/-- An instruction other than CS_ENTER, CS_EXIT and CONSTRUCT leaves I and the save stack as it found them, whether it
has its effect, answers an error, records a fault or is an event not delivered. -/
theorem exec_keeps_I_csStack {s t : State} {ins : Instr} (h : exec ins s = .next t) (henter : ins ≠ .csEnter)
    (hexit : ins ≠ .csExit) (hcon : ∀ i nRx nTx, ins ≠ .construct i nRx nTx) :
    t.I = s.I ∧ t.csStack = s.csStack := by
  cases (exec_ended h).2 with
  | idle _ ht => rw [ht]; exact ⟨rfl, rfl⟩
  | raised _ ht => rw [ht]; exact ⟨rfl, rfl⟩
  | error _ _ ht => rw [ht]; exact ⟨rfl, rfl⟩
  | effect hx =>
    constructor
    · obtain hI | rfl | rfl | ⟨i, nRx, nTx, rfl⟩ := hx.I
      · exact hI
      · exact absurd rfl henter
      · exact absurd rfl hexit
      · exact absurd rfl (hcon i nRx nTx)
    · obtain ⟨hk, -⟩ | ⟨rfl, -⟩ | ⟨rfl, -⟩ := hx.csStack
      · exact hk
      · exact absurd rfl henter
      · exact absurd rfl hexit

/-- Settles O24: CS_ENTER, CS_EXIT and CONSTRUCT are neither driver commands nor events, and the second phase of a WRITE
leaves I and the save stack too. -/
theorem driverCommandsRestoreI : Obligations.DriverCommandsRestoreI := by
  refine ⟨fun ins s t h hins => exec_keeps_I_csStack h ?_ ?_ ?_, fun p s t h => ?_⟩
  · rintro rfl; exact absurd hins (by decide)
  · rintro rfl; exact absurd hins (by decide)
  · rintro i nRx nTx rfl; simp [Instr.isDriverCommand, Instr.isEvent] at hins
  · obtain ⟨hk, hI, -⟩ := writePhase2_frame h
    exact ⟨hI, hk⟩

end Sys2Proof.Machine
end

section
/-! The baud LUT, its query and the check of an instance (42_baud.md R109 to R112). -/

namespace Sys2Proof.Machine

/-- `select` is the library's linear search for the rate (R111). -/
theorem select_eq_find? (lut : List LutEntry) (baud : Nat) :
    select lut baud = (lut.find? (fun e => e.baud == baud)).map (fun e => (e.divisor, e.dbl)) := by
  induction lut with
  | nil => rfl
  | cons e es ih =>
    by_cases he : e.baud = baud
    · simp [select, he]
    · simp [select, he, ih]

/-- The entry of a match has the rate as its key, so the answer determines it. -/
theorem select_eq_some_iff_find? {lut : List LutEntry} {baud div : Nat} {dbl : Bool} :
    select lut baud = some (div, dbl) ↔ lut.find? (fun e => e.baud == baud) = some ⟨baud, div, dbl⟩ := by
  rw [select_eq_find?, Option.map_eq_some_iff]
  constructor
  · rintro ⟨e, hfind, hans⟩
    have hkey : e.baud = baud := by simpa using List.find?_some hfind
    obtain ⟨rfl, rfl⟩ := Prod.mk.inj hans
    rw [hfind, ← hkey]
  · exact fun hfind => ⟨_, hfind, rfl⟩

/-- Settles O26: `select` is `find?`, whose first match splits the table and which misses iff no entry matches. -/
theorem selectIsFirstMatch : Obligations.SelectIsFirstMatch := by
  refine fun lut baud => ⟨fun div dbl => ?_, ?_⟩
  · simp [select_eq_some_iff_find?, List.find?_eq_some_iff_append]
  · simp [select_eq_find?]

/-! ### The check of an instance (R7, R109) -/

/-- What the check asks of parameters, its 16 MHz clause put through `select` (R110, log 15). -/
theorem Params.wf_iff {p : Params} :
    p.wf = true ↔ 1 ≤ p.maxUarts ∧ p.maxUarts ≤ 16 ∧ 0 < p.fCpu ∧
      (∀ e ∈ p.baudLut, e.divisor < 2 ^ divW ∧ e.baud < 2 ^ 32) ∧
      (p.fCpu = 16000000 → select p.baudLut 9600 = some (103, false)) := by
  simp only [Params.wf, Bool.and_eq_true, Bool.or_eq_true, decide_eq_true_eq, List.all_eq_true, bne_iff_ne, beq_iff_eq,
    select_eq_some_iff_find?, Decidable.imp_iff_not_or (a := p.fCpu = 16000000), ne_eq, and_assoc]

/-- Settles O27: a built instance passed the check. -/
theorem sixteenMegahertzSelects103 : Obligations.SixteenMegahertzSelects103 := by
  intro c hclock
  obtain ⟨-, -, -, -, hselect⟩ := Params.wf_iff.1 c.ok
  exact hselect hclock

/-- Settles O28: each fault of the statement's list breaks one clause of the check; at another clock the 16 MHz clause
holds of any table. -/
theorem instanceCheckRefusesBadTables : Obligations.InstanceCheckRefusesBadTables := by
  refine fun p => ⟨fun hbad => dif_neg fun hwf => ?_, fun hlow hhigh hcpu hclock hlut => ?_⟩
  · obtain ⟨hlow, hhigh, hcpu, hlut, hselect⟩ := Params.wf_iff.1 hwf
    obtain ⟨e, he, hdiv⟩ | hzero | hmany | hstill | ⟨hclock, hmiss⟩ := hbad
    · exact absurd (hlut e he).1 (Nat.not_lt.2 hdiv)
    · omega
    · omega
    · omega
    · exact hmiss (mem_of_select (hselect hclock))
  · have hwf : p.wf = true := Params.wf_iff.2 ⟨hlow, hhigh, hcpu, hlut, fun h => absurd h hclock⟩
    exact ⟨⟨p, hwf⟩, dif_pos hwf, rfl⟩

/-! ### BAUD_SELECT (R112) -/

/-- Settles O29: the checks of R79 pass, and the reply is the query's answer. -/
theorem baudSelectAnswersQuery : Obligations.BaudSelectAnswersQuery := by
  intro s baud hf hbaud
  have hwf : (Instr.baudSelect baud).wf = true := by simpa [Instr.wf, baudInRange] using hbaud
  refine ⟨fun div dbl hsel => ?_, fun hsel => ?_⟩
  all_goals
    refine (foreground_eq hf hwf).trans ?_
    rw [hsel]
    rfl

end Sys2Proof.Machine
end

section
/-! Construction and destruction of a driver, and the events of an index with no driver (43_lifecycle.md R118 to R122). -/

namespace Sys2Proof.Machine

/-! ### Events that are not delivered -/

/-- A dispatcher's step whose delivery condition fails, in a block that is not halted (log 2). -/
theorem deliver_idle {c : Bool} {body : State → Reaction} {s : State} (hf : s.fault = none) (hc : ¬ c = true) :
    deliver c body s = .next s := by
  simp [deliver, hf, hc]

/-- With RXCIE and UDRIE 0 neither event of the index is delivered (R150, R151). -/
theorem events_idle_of_disabled {s : State} {i : Idx} (hf : s.fault = none) (hrx : (s.port i).ctrlB.rxcie = false)
    (hud : (s.port i).ctrlB.udrie = false) : exec (.evRxc i) s = .next s ∧ exec (.evUdre i) s = .next s := by
  refine ⟨deliver_idle hf fun hc => ?_, deliver_idle hf fun hc => ?_⟩
  · obtain ⟨-, -, hon, -⟩ := rxcDeliverable_iff.1 hc
    exact Bool.false_ne_true (hrx.symm.trans hon)
  · obtain ⟨-, -, hon, -⟩ := udreDeliverable_iff.1 hc
    exact Bool.false_ne_true (hud.symm.trans hon)

/-- In a sound index with no driver RXCIE and UDRIE are 0 (R118, R120, R155). -/
theorem Port.Ok.disabled_of_empty {c : Config} {p : Port} (h : p.Ok c) (hr : p.reg = none) :
    p.ctrlB.rxcie = false ∧ p.ctrlB.udrie = false := by
  obtain ⟨-, -, hudrie, hoff, -⟩ := h
  obtain ⟨hrxcie, -, -⟩ := hoff (by rw [hr]; rfl)
  exact ⟨hrxcie, hudrie hr⟩

/-- Settles O43: the invariant keeps both interrupt enables of an empty slot 0. -/
theorem emptySlotDeliversNoEvent : Obligations.EmptySlotDeliversNoEvent := by
  rintro s i ⟨hports, -, -⟩ hf hr
  obtain ⟨hrx, hud⟩ := (hports i).disabled_of_empty hr
  exact events_idle_of_disabled hf hrx hud

/-! ### DESTRUCT -/

/-- DESTRUCT on a driver (R120): the critical section gives I back as it found it. -/
theorem exec_destruct {s : State} {i : Idx} {d : Driver} (h : s.Ready i d) :
    exec (.destruct i) s = .next
      ((s.setPort i { s.port i with ctrlB := (s.port i).ctrlB.clearEnables, reg := none }).answer replyOk) := by
  obtain ⟨hf, hp, hr⟩ := h
  refine (foreground_eq hf rfl).trans ?_
  rw [perDriver_eq hp hr]
  rfl

/-- Settles O32: DESTRUCT clears the interrupt enables, so the index delivers no event after it. -/
theorem destructClearsEnablesAndSlot : Obligations.DestructClearsEnablesAndSlot := by
  intro s i d h
  have ⟨hf, _, _⟩ := h
  refine ⟨_, exec_destruct h, rfl, events_idle_of_disabled hf ?_ ?_⟩
  all_goals
    rw [State.port_answer, State.port_setPort_same]
    rfl

/-! ### CONSTRUCT -/

theorem Instr.wf_construct {i : Idx} {nRx nTx : Nat} (hrx : 1 ≤ nRx) (hrx' : nRx ≤ 65535) (htx : 1 ≤ nTx)
    (htx' : nTx ≤ 65535) : (Instr.construct i nRx nTx).wf = true := by
  simp [Instr.wf, capacityInRange, *]

/-- Settles O31: the checks of R79 pass, and CONSTRUCT looks whether the slot is occupied. -/
theorem constructRegistersDriver : Obligations.ConstructRegistersDriver := by
  intro s i nRx nTx hf hp hrx hrx' htx htx'
  have hchecked : exec (.construct i nRx nTx) s = _ := foreground_eq hf (Instr.wf_construct hrx hrx' htx htx')
  rw [hchecked, perIndex_eq hp]
  refine ⟨fun hr => ?_, fun hr => ?_⟩
  · rw [hr]
    rfl
  · obtain ⟨d, hd⟩ := Option.ne_none_iff_exists'.1 hr
    rw [hd]
    rfl

end Sys2Proof.Machine
end

section
/-! The driver commands on a driver, and the second phase of a WRITE (44_driver_ops.md R128 to R139). -/

namespace Sys2Proof.Machine

/-- Once the checks of R79 have passed, a driver command is its own reaction on the driver. -/
theorem foreground_perDriver {ins : Instr} {i : Idx} {s : State} {f : Driver → Reaction} {d : Driver}
    (h : s.Ready i d) (hw : ins.wf = true) : foreground ins s (perDriver i s f) = settle s (f d) := by
  obtain ⟨hf, hp, hr⟩ := h
  rw [foreground_eq hf hw, perDriver_eq hp hr]

/-! ### OVF_READ, OVF_CLEAR, BAD_READ -/

/-- Settles O39: the checks of R79 pass, and the critical section gives I back as it found it. -/
theorem flagCommandsAnswer : Obligations.FlagCommandsAnswer := fun _ _ _ h =>
  ⟨foreground_perDriver h rfl, foreground_perDriver h rfl, foreground_perDriver h rfl⟩

/-! ### CONFIGURE -/

theorem Instr.wf_configure {i : Idx} {par : Parity} {stb : StopBits} {baud : Nat} (h : baud < 2 ^ 32) :
    (Instr.configure i par stb baud).wf = true := by
  simpa [Instr.wf, baudInRange] using h

/-- CONFIGURE with a rate that the LUT does not have (R113, R129). -/
theorem exec_configure_unsupported {s : State} {i : Idx} {d : Driver} {par : Parity} {stb : StopBits} {baud : Nat}
    (h : s.Ready i d) (hbaud : baud < 2 ^ 32) (hsel : select s.cfg.baudLut baud = none) :
    exec (.configure i par stb baud) s = .next (s.answer ⟨.eBaudUnsupported, .empty⟩) := by
  refine (foreground_perDriver h (Instr.wf_configure hbaud)).trans ?_
  simp only [criticalSection, State.setI_cfg, hsel]
  rfl

/-- CONFIGURE with a rate that the LUT has: the policy decides between E_TX_BUSY and the writes (R129, R132). -/
theorem exec_configure_supported {s : State} {i : Idx} {d : Driver} {par : Parity} {stb : StopBits} {baud div : Nat}
    {dbl : Bool} (h : s.Ready i d) (hbaud : baud < 2 ^ 32) (hsel : select s.cfg.baudLut baud = some (div, dbl)) :
    exec (.configure i par stb baud) s = .next
      (if s.cfg.policy = .reject ∧ 0 < d.tx.count then s.answer ⟨.eTxBusy, .empty⟩
       else (s.setPort i (configurePort (s.port i) d { baud := baud, stop := stb, parity := par } div dbl)).answer
         replyOk) := by
  refine (foreground_perDriver h (Instr.wf_configure hbaud)).trans ?_
  by_cases hbusy : s.cfg.policy = .reject ∧ 0 < d.tx.count
  · simp only [criticalSection, State.setI_cfg, hsel, hbusy, and_self, if_true]
    rfl
  · simp only [criticalSection, State.setI_cfg, hsel, hbusy, if_false]
    rfl

/-- Settles O34: an absent rate is the first error of CONFIGURE, a busy ring under Reject the second. -/
theorem configureErrorsWriteNothing : Obligations.ConfigureErrorsWriteNothing := by
  intro s i d par stb baud h hbaud
  refine ⟨exec_configure_unsupported h hbaud, fun hsel hpol hc => ?_⟩
  obtain ⟨⟨div, dbl⟩, hmatch⟩ := Option.ne_none_iff_exists'.1 hsel
  rw [exec_configure_supported h hbaud hmatch, if_pos ⟨hpol, hc⟩]

/-- Settles O33: the divisor of a built instance fits DIV, so DIV is exactly the entry's. -/
theorem configureLoadsSettings : Obligations.ConfigureLoadsSettings := by
  intro s i d par stb baud div dbl h hbaud hsel hpol
  have hfits : (BitVec.ofNat divW div).toNat = div :=
    (BitVec.toNat_ofNat ..).trans (Nat.mod_eq_of_lt (select_divisor_lt s.cfg hsel))
  have hfree : ¬ (s.cfg.policy = .reject ∧ 0 < d.tx.count) := by
    rintro ⟨hreject, hc⟩
    obtain hproceed | hzero := hpol
    · exact nomatch hreject.symm.trans hproceed
    · exact Nat.ne_of_gt hc hzero
  refine ⟨BitVec.ofNat divW div, hfits, ?_⟩
  rw [exec_configure_supported h hbaud hsel, if_neg hfree]
  rfl

/-! ### FLUSH and the second phase of WRITE -/

/-- FLUSH on a driver is the flush body (R136). -/
theorem exec_flush {s : State} {i : Idx} {d : Driver} (h : s.Ready i d) :
    exec (.flush i) s = settle s (flushBody i d replyOk s) :=
  foreground_perDriver h rfl

/-- The foreground's turn while a WRITE is between its phases is the flush body, with the count of the first phase as
its answer (R133, R134). -/
theorem step_writePhase2 {s : State} {p : PendingWrite} {d : Driver} {turns : List Turn} (hf : s.fault = none)
    (hpend : s.pending = some p) (hs : s.sched = .foreground :: turns) (hr : (s.port p.idx).reg = some d) :
    step s = settle (s.setSched turns)
      (flushBody p.idx d ⟨.ok, .written p.written⟩ ((s.setSched turns).setPending none)) := by
  simp [step, takeTurn, hs, hf, turnStep, foregroundTurn, hpend, writePhase2, hr]

/-- Settles O37: the flush body on an empty ring and on one that holds bytes, and the transmit write where the register
is empty. -/
theorem flushPrimesOrDisables : Obligations.FlushPrimesOrDisables := by
  intro s i d h hok
  rw [exec_flush h]
  refine ⟨fun hc => ?_, fun hc => ?_⟩
  · rw [flushBody_zero hc]
    rfl
  · obtain ⟨b, tx, hpop, -, hcon, -⟩ := ringPop_ok hok hc
    rw [flushBody_pos hc hpop, flushSent_eq]
    refine ⟨b, tx, hpop, hcon, rfl, fun he => ?_⟩
    rw [settle_reply, txdWrite_empty (by simpa using he), State.port_setPort_same, State.setPort_setPort]

/-- Settles O36: the second phase is the flush body of FLUSH with another reply. -/
theorem writeSecondPhaseFlushes : Obligations.WriteSecondPhaseFlushes := by
  intro s p d turns hf hpend hs hr hok
  rw [step_writePhase2 hf hpend hs hr]
  refine ⟨fun hc => ?_, fun hc => ?_⟩
  · rw [flushBody_zero hc]
    rfl
  · obtain ⟨b, tx, hpop, -, hcon, -⟩ := ringPop_ok hok hc
    rw [flushBody_pos hc hpop, flushSent_eq]
    exact ⟨b, tx, hpop, hcon, rfl⟩

/-! ### The first phase of WRITE -/

/-- The first phase of WRITE on a driver, from what its enqueue loop answers (R133). -/
theorem exec_write {s : State} {i : Idx} {bytes : List Byte} {d : Driver} {k : Nat} {tx : Ring} (h : s.Ready i d)
    (hlen : bytes.length ≤ 65535) (hpush : ringPushMany d.tx bytes = .ok (k, tx)) :
    exec (.write i bytes) s = .next
      ((s.setReg i (some { d with tx := tx })).setPending (some { idx := i, written := k })) := by
  have hwf : (Instr.write i bytes).wf = true := by simpa [Instr.wf, lengthInRange] using hlen
  refine (foreground_perDriver h hwf).trans ?_
  simp only [criticalSection, hpush]
  rfl

/-- Settles O35: the enqueue loop's answer and the slots it writes, seen through the driver. -/
theorem writeEnqueuesWhatFits : Obligations.WriteEnqueuesWhatFits := by
  intro s i bytes d h hok hlen
  obtain ⟨tx, hpush, htx, hN, hhead, hcon⟩ := ringPushMany_ok hok bytes
  obtain ⟨hwritten, hkept, hcount, -⟩ := ringPushMany_slots hok hpush
  have ⟨_, _, hr⟩ := h
  have hslot (j : Idx) (sel : RingSel) (k : Nat) :
      (s.setReg i (some { d with tx := tx })).slot j sel k =
        if j = i ∧ sel = .tx then tx.store.read k else s.slot j sel k := State.slot_setRing hr .tx tx j sel k
  refine ⟨tx, _, exec_write h hlen hpush, rfl, htx, hN, hhead, hcount, hcon, fun m hm => ?_, fun j sel k hk => ?_⟩
  · rw [State.slot_setPending, hslot, if_pos ⟨rfl, rfl⟩, hwritten m hm]
  · rw [State.slot_setPending, hslot]
    split
    case isFalse => rfl
    case isTrue hji =>
      obtain ⟨rfl, rfl⟩ := hji
      have hne : ∀ m < min bytes.length (d.tx.N - d.tx.count), k ≠ (d.tx.tail + m) % d.tx.N := by simpa using hk
      rw [hkept k hne, State.slot_of_reg hr, Driver.ring_tx]

/-! ### READ -/

/-- READ on a driver, from what its dequeue loop answers (R135). -/
theorem exec_read {s : State} {i : Idx} {len : Nat} {d : Driver} {out : List Byte} {rx : Ring} (h : s.Ready i d)
    (hlen : len ≤ 65535) (hpop : ringPopMany d.rx (min len d.rx.count) = .ok (out, rx)) :
    exec (.read i len) s = .next ((s.setReg i (some { d with rx := rx })).answerOk
      (.read out (min len d.rx.count) rx.count d.rx.N)) := by
  have hwf : (Instr.read i len).wf = true := by simpa [Instr.wf, lengthInRange] using hlen
  refine (foreground_perDriver h hwf).trans ?_
  simp only [criticalSection, hpop]
  rfl

/-- Settles O38: as many pops as asked for and held; to take or drop more bytes than are held is to take or drop all.
READ is none of the forms that store (O55). -/
theorem readDequeuesOldestBytes : Obligations.ReadDequeuesOldestBytes := by
  intro s i len d h hok hlen
  obtain ⟨rx, hpop, hrx, hN, hstore, htail, hcount, hcon⟩ := ringPopMany_ok hok (Nat.min_le_right len d.rx.count)
  have hout : d.rx.contents.take (min len d.rx.count) = d.rx.contents.take len := by
    rw [← Ring.length_contents hok, ← List.take_eq_take_min]
  have hrest : d.rx.contents.drop (min len d.rx.count) = d.rx.contents.drop len := by
    rw [← Ring.length_contents hok, ← List.drop_eq_drop_min]
  have hexec := exec_read h hlen hpop
  rw [hout, hcount] at hexec
  exact ⟨rx, _, hexec, rfl, hrx, hcon.trans hrest, hcount, hN, htail, hstore, fun j sel k =>
    formsThatStoreNothing _ s _ j sel k hexec trivial⟩

end Sys2Proof.Machine
end

section
/-! The two interrupt handlers, run when their event is deliverable and left alone when it is not (45_handlers.md R150
to R155). -/

namespace Sys2Proof.Machine

/-! ### Delivery of an event -/

/-- The RXC event is ready with some byte iff it is deliverable (R150). -/
theorem exists_rxcReady_iff {s : State} {i : Idx} (hf : s.fault = none) :
    (∃ b, s.RxcReady i b) ↔ rxcDeliverable i s = true := by
  simp [rxcDeliverable_iff, State.RxcReady, hf, Port.rxcPending, Option.isSome_iff_exists]

/-- The UDRE event is ready iff it is deliverable (R151). -/
theorem udreReady_iff {s : State} {i : Idx} (hf : s.fault = none) :
    s.UdreReady i ↔ udreDeliverable i s = true := by
  simp [udreDeliverable_iff, State.UdreReady, hf, Port.udrePending]

/-- A deliverable event: the handler's body runs with I clear, and I is 1 again after it (R152, R169). -/
theorem deliver_quiet {body : State → Reaction} {c : Bool} {s t : State} (hf : s.fault = none) (hc : c = true)
    (hb : body (s.setI false) = .quiet (t.setI false)) (hI : t.I = true) : deliver c body s = .next t := by
  simp [deliver, hf, hc, handler, State.handlerEntry_eq, hb, State.handlerReturn_eq, State.setI_eq_self hI]

/-- Settles O42: a dispatcher's step whose delivery condition fails leaves the state. -/
theorem eventsNeedTheirConditions : Obligations.EventsNeedTheirConditions := by
  intro s i hf
  refine ⟨fun hrx => deliver_idle hf fun hc => ?_, fun hud => deliver_idle hf fun hc => ?_⟩
  · obtain ⟨b, hb⟩ := (exists_rxcReady_iff hf).2 hc
    exact hrx b hb
  · exact hud ((udreReady_iff hf).2 hc)

/-! ### The receive handler (R153) -/

/-- With no driver the byte is taken from the receive register and discarded. -/
theorem exec_evRxc_discard {s : State} {i : Idx} {b : Byte} (h : s.RxcReady i b) (hr : (s.port i).reg = none) :
    exec (.evRxc i) s = .next (s.setPort i { s.port i with rxHold := none }) := by
  have ⟨hf, _, hI, _, hb⟩ := h
  refine deliver_quiet hf ((exists_rxcReady_iff hf).1 ⟨b, h⟩) ?_ hI
  simp [rxcBody, rxdRead, hb, hr]

/-- With a driver the byte is pushed into its rx ring, from what `ring_push_overwrite` answers. -/
theorem exec_evRxc_store {s : State} {i : Idx} {b : Byte} {d : Driver} {evicted : Bool} {rx : Ring}
    (h : s.RxcReady i b) (hr : (s.port i).reg = some d) (hpush : ringPushOverwrite d.rx b = .ok (evicted, rx)) :
    exec (.evRxc i) s = .next (s.setPort i { s.port i with
      rxHold := none,
      reg := some { d with rx := rx, overwritten := d.overwritten || evicted } }) := by
  have ⟨hf, _, hI, _, hb⟩ := h
  refine deliver_quiet hf ((exists_rxcReady_iff hf).1 ⟨b, h⟩) ?_ hI
  simp [rxcBody, rxdRead, hb, hr, hpush, State.setReg]

/-- Settles O40: the handler's push is that of `ring_push_overwrite`, whose one write is at the old tail. -/
theorem rxcHandlerStoresByte : Obligations.RxcHandlerStoresByte := by
  intro s i b h
  refine ⟨exec_evRxc_discard h, fun d hr hok => ?_⟩
  obtain ⟨rx, hpush, -, -, hstore, -, hroom, hfull⟩ := ringPushOverwrite_ok hok b
  refine ⟨rx, _, hpush, exec_evRxc_store h hr hpush, rfl, ?_, ?_, fun j sel k hk => ?_⟩
  · by_cases hc : d.rx.count = d.rx.N
    · rw [if_pos hc, (hfull hc).1]
    · rw [if_neg hc, (hroom (Nat.lt_of_le_of_ne hok.2.1 hc)).1]
  · simp [State.slot_setPort, hstore]
  · by_cases hj : j = i
    case neg => rw [State.slot_setPort, if_neg hj]
    case pos =>
      subst hj
      rw [State.slot_setPort, if_pos rfl, Option.bind_some, State.slot_of_reg hr]
      cases sel with
      | rx => exact (congrArg (·.read k) hstore).trans (Memory.read_write_ne _ _ (by simpa using hk))
      | tx => rfl

/-! ### The transmit handler (R154, R155) -/

/-- With a driver whose tx ring holds bytes the oldest goes to the transmit register, from what `ring_pop` answers. -/
theorem exec_evUdre_send {s : State} {i : Idx} {d : Driver} {b : Byte} {tx : Ring} (h : s.UdreReady i)
    (hr : (s.port i).reg = some d) (hc : 0 < d.tx.count) (hpop : ringPop d.tx = .ok (b, tx)) :
    exec (.evUdre i) s = .next (s.setPort i { s.port i with
      reg := some { d with tx := tx }, txdReg := b, txdEmpty := false }) := by
  have ⟨hf, _, hI, _, he⟩ := h
  refine deliver_quiet hf ((udreReady_iff hf).1 h) ?_ hI
  simp [udreBody, hr, hc, hpop, State.setReg, txdWrite_empty, he]

/-- With nothing to send the handler disables its own interrupt. -/
theorem exec_evUdre_disable {s : State} {i : Idx} (h : s.UdreReady i) (hd : ∀ d ∈ (s.port i).reg, d.tx.count = 0) :
    exec (.evUdre i) s = .next (s.setUdrie i false) := by
  have ⟨hf, _, hI, _, _⟩ := h
  refine deliver_quiet hf ((udreReady_iff hf).1 h) ?_ hI
  cases hr : (s.port i).reg with
  | none => simp [udreBody, hr]
  | some d => simp [udreBody, hr, hd d hr]

/-- Settles O41: the handler disables itself with nothing to send, and else pops one byte; EV_UDRE is none of the forms
that store (O55). -/
theorem udreHandlerFeedsOrDisables : Obligations.UdreHandlerFeedsOrDisables := by
  intro s i h
  refine ⟨fun hnothing => exec_evUdre_disable h fun d hd => ?_, fun d hr hok hc => ?_⟩
  · obtain hr | ⟨d', hr, hc⟩ := hnothing
    · rw [hr] at hd
      cases hd
    · rw [hr] at hd
      cases hd
      exact hc
  · obtain ⟨b, tx, hpop, -, hcon, -⟩ := ringPop_ok hok hc
    have hexec := exec_evUdre_send h hr hc hpop
    exact ⟨b, tx, _, hpop, hcon, hexec, rfl, fun j sel k => formsThatStoreNothing _ s _ j sel k hexec trivial⟩

end Sys2Proof.Machine
end

section
/-! The tx path of an index (10_state.md R45): the steps that write UDRIE, and the transitions of 45_handlers.md R156. -/

namespace Sys2Proof.Machine

theorem Port.txPath_eq_idle {p : Port} : p.txPath = .idle ↔ p.ctrlB.udrie = false := by
  unfold Port.txPath
  cases p.ctrlB.udrie <;> simp

theorem Port.txPath_eq_draining {p : Port} : p.txPath = .draining ↔ p.ctrlB.udrie = true := by
  unfold Port.txPath
  cases p.ctrlB.udrie <;> simp

/-- What an effect does to UDRIE of an index: FLUSH and CONFIGURE set it to whether the tx ring holds bytes, DESTRUCT and
the UDRE event with nothing to send clear it, every other effect keeps it (R120, R130, R136, R154). -/
theorem Effect.udrie {s t : State} {ins : Instr} (h : Effect s ins t) (j : Idx) :
    (t.port j).ctrlB.udrie = (s.port j).ctrlB.udrie ∨
      (∃ d, (s.port j).reg = some d ∧ (t.port j).ctrlB.udrie = decide (0 < d.tx.count) ∧
        (ins = .flush j ∨ ∃ par stb baud, ins = .configure j par stb baud ∧
          ¬ (s.cfg.policy = .reject ∧ 0 < d.tx.count))) ∨
      ((t.port j).ctrlB.udrie = false ∧
        (ins = .destruct j ∨ (ins = .evUdre j ∧ ∀ d ∈ (s.port j).reg, d.tx.count = 0))) := by
  by_cases hj : ins.idx? = some j
  case neg => rw [h.port_ne hj]; exact .inl rfl
  case pos =>
    cases h with
    | csEnter | csExit | baudSelect => cases hj
    | destruct => cases hj; exact .inr (.inr (by simp [CtrlB.clearEnables]))
    | configure i par stb baud d div dbl _ hr _ _ hfree =>
      cases hj
      exact .inr (.inl ⟨d, hr, by simp [configurePort, imageB], .inr ⟨par, stb, baud, rfl, hfree⟩⟩)
    | flushSent i d b tx _ hr hc _ =>
      cases hj
      exact .inr (.inl ⟨d, hr, by simp [Machine.flushSent, hc], .inl rfl⟩)
    | flushEmpty i d _ hr hc =>
      cases hj
      exact .inr (.inl ⟨d, hr, by simp [hc], .inl rfl⟩)
    | udreDisable i _ hd => cases hj; exact .inr (.inr ⟨by simp, .inr ⟨rfl, hd⟩⟩)
    | construct | write | read | ovfRead | ovfClear | badRead | rbPush | rbPop | rbFull | rbEmpty | rbSize |
      rbCapacity | rxcDiscard | rxcStore | udreSend =>
      cases hj
      exact .inl (by simp [port_rxcTaken])

/-- The second phase of a WRITE that changes UDRIE of an index is one to it, and sets it as FLUSH does (R133, R136). -/
theorem writePhase2_udrie {p : PendingWrite} {s t : State} (h : writePhase2 p s = .next t) (j : Idx) :
    (t.port j).ctrlB.udrie = (s.port j).ctrlB.udrie ∨
      (p.idx = j ∧ ∃ d, (s.port j).reg = some d ∧ (t.port j).ctrlB.udrie = decide (0 < d.tx.count)) := by
  rcases writePhase2_ports h with ⟨f, rfl⟩ | ⟨d, b, tx, v, hr, hc, -, hport, hne, -⟩ | ⟨d, hr, hc, hport, hne, -⟩
  · exact .inl rfl
  all_goals
    by_cases hj : j = p.idx
    case neg => exact .inl (by rw [hne j hj])
    case pos =>
      subst hj
      exact .inr ⟨rfl, d, hr, by simp [hport, hc]⟩

/-- The steps, but a reset, that may change UDRIE of an index, and the value each leaves there. -/
inductive UdrieWritten (s t : State) (i : Idx) : Prop where
  /-- a FLUSH -/
  | flush (w : Word) (o : Operands) (rest : List Command) (turns : List Turn) (d : Driver) :
      s.Issues w o rest turns → decode w o = .ok (.flush i) → (s.port i).reg = some d →
      (t.port i).ctrlB.udrie = decide (0 < d.tx.count) → UdrieWritten s t i
  /-- the second phase of a WRITE -/
  | phase2 (p : PendingWrite) (d : Driver) : s.pending = some p → p.idx = i → s.sched.head? = some .foreground →
      (s.port i).reg = some d → (t.port i).ctrlB.udrie = decide (0 < d.tx.count) → UdrieWritten s t i
  /-- a CONFIGURE that proceeds -/
  | configure (w : Word) (o : Operands) (rest : List Command) (turns : List Turn) (par : Parity) (stb : StopBits)
      (baud : Nat) (d : Driver) :
      s.Issues w o rest turns → decode w o = .ok (.configure i par stb baud) → (s.port i).reg = some d →
      ¬ (s.cfg.policy = .reject ∧ 0 < d.tx.count) → (t.port i).ctrlB.udrie = decide (0 < d.tx.count) →
      UdrieWritten s t i
  /-- a DESTRUCT -/
  | destruct (w : Word) (o : Operands) (rest : List Command) (turns : List Turn) :
      s.Issues w o rest turns → decode w o = .ok (.destruct i) → (t.port i).ctrlB.udrie = false → UdrieWritten s t i
  /-- a UDRE event with nothing to send -/
  | event (w : Word) (turns : List Turn) : s.sched = .dispatch w :: turns → decode w .zero = .ok (.evUdre i) →
      (∀ d ∈ (s.port i).reg, d.tx.count = 0) → (t.port i).ctrlB.udrie = false → UdrieWritten s t i

/-- Every step but a reset keeps UDRIE of an index, or is one of those that write it. -/
theorem step_udrie {s t : State} (h : step s = .next t) (hr : ¬ s.resets) (i : Idx) :
    (t.port i).ctrlB.udrie = (s.port i).ctrlB.udrie ∨ UdrieWritten s t i := by
  cases step_next h with
  | wait _ _ h => subst h; exact .inl rfl
  | idle _ _ _ _ _ h => subst h; exact .inl rfl
  | illegal _ _ _ _ _ h => subst h; exact .inl rfl
  | command w o rest turns ins hi hd he hx =>
    rcases exec_same_or_effect hx with ⟨hsame, -⟩ | hx
    · exact .inl (by rw [hsame i]; rfl)
    · rcases hx.udrie i with hu | ⟨d, hreg, hu, rfl | ⟨par, stb, baud, rfl, hfree⟩⟩ | ⟨hu, rfl | ⟨rfl, -⟩⟩
      · exact .inl hu
      · exact .inr (.flush w o rest turns d hi hd hreg hu)
      · exact .inr (.configure w o rest turns par stb baud d hi hd hreg hfree hu)
      · exact .inr (.destruct w o rest turns hi hd hu)
      · cases he
  | phase2 p turns _ hp hs hx =>
    rcases writePhase2_udrie hx i with hu | ⟨hpi, d, hreg, hu⟩
    · exact .inl hu
    · exact .inr (.phase2 p d hp hpi (by rw [hs]; rfl) hreg hu)
  | event w turns ins _ hs hd he hx =>
    rcases exec_same_or_effect hx with ⟨hsame, -⟩ | hx
    · exact .inl (by rw [hsame i]; rfl)
    · rcases hx.udrie i with hu | ⟨d, -, -, rfl | ⟨par, stb, baud, rfl, -⟩⟩ | ⟨hu, rfl | ⟨rfl, hempty⟩⟩
      · exact .inl hu
      · cases he
      · cases he
      · cases he
      · exact .inr (.event w turns hs hd hempty hu)
  | rxArrive j b turns _ _ h =>
    subst h
    rcases port_rxArrive j b (s.setSched turns) i with h | ⟨-, h⟩ <;> exact .inl (by rw [h]; rfl)
  | txDrain j turns _ _ h =>
    subst h
    rcases port_txDrain j (s.setSched turns) i with h | ⟨-, -, l, -, h⟩ <;> exact .inl (by rw [h]; rfl)
  | hwFault j turns _ _ h =>
    subst h
    rcases port_hwFault j (s.setSched turns) i with h | ⟨-, -, d, -, h⟩ <;> exact .inl (by rw [h]; rfl)
  | reset turns hs _ => exact absurd (by rw [State.resets, hs]; rfl) hr

/-- Settles O58: only the steps that write UDRIE move the path, and each writes whether the tx ring holds bytes, or 0. -/
theorem txPathTransitions : Obligations.TxPathTransitions := by
  intro s t i h hr
  simp only [Port.txPath_eq_idle, Port.txPath_eq_draining]
  refine ⟨fun hs ht => ?_, fun hs ht => ?_⟩
  · obtain hsame | hwritten := step_udrie h hr i
    · rw [hsame, hs] at ht
      cases ht
    cases hwritten with
    | flush w o rest turns d hi hd hreg hu =>
      exact ⟨d, hreg, of_decide_eq_true (hu ▸ ht), .inl ⟨w, o, rest, turns, hi, hd⟩⟩
    | phase2 p d hp hpi hsch hreg hu =>
      exact ⟨d, hreg, of_decide_eq_true (hu ▸ ht), .inr (.inl ⟨p, hp, hpi, hsch⟩)⟩
    | configure w o rest turns par stb baud d hi hd hreg hfree hu =>
      have hc : 0 < d.tx.count := of_decide_eq_true (hu ▸ ht)
      have hpolicy : s.cfg.policy = .proceed := by
        cases hpol : s.cfg.policy with
        | reject => exact absurd ⟨hpol, hc⟩ hfree
        | proceed => rfl
      exact ⟨d, hreg, hc, .inr (.inr ⟨w, o, rest, turns, par, stb, baud, hi, hd, hpolicy⟩)⟩
    | destruct _ _ _ _ _ _ hu => rw [hu] at ht; cases ht
    | event _ _ _ _ _ hu => rw [hu] at ht; cases ht
  · have empty {d : Driver} (hreg : (s.port i).reg = some d)
        (hu : (t.port i).ctrlB.udrie = decide (0 < d.tx.count)) (e : Driver) (he : (s.port i).reg = some e) :
        e.tx.count = 0 := by
      obtain rfl : d = e := Option.some.inj (hreg.symm.trans he)
      exact Nat.eq_zero_of_not_pos (of_decide_eq_false (hu ▸ ht))
    obtain hsame | hwritten := step_udrie h hr i
    · rw [hsame, hs] at ht
      cases ht
    cases hwritten with
    | destruct w o rest turns hi hd _ => exact .inl ⟨w, o, rest, turns, hi, hd⟩
    | flush w o rest turns d hi hd hreg hu => exact .inr ⟨empty hreg hu, .inl ⟨w, o, rest, turns, hi, hd⟩⟩
    | phase2 p d hp hpi hsch hreg hu => exact .inr ⟨empty hreg hu, .inr (.inl ⟨p, hp, hpi, hsch⟩)⟩
    | event w turns hsch hd hempty _ => exact .inr ⟨hempty, .inr (.inr (.inl ⟨w, turns, hsch, hd⟩))⟩
    | configure w o rest turns par stb baud d hi hd hreg _ hu =>
      exact .inr ⟨empty hreg hu, .inr (.inr (.inr ⟨w, o, rest, turns, par, stb, baud, hi, hd⟩))⟩

end Sys2Proof.Machine
end

section
/-! A draining tx path ends Idle with its bytes on the line: along the schedule in which the UDRE event and the drain
alternate, and along every run fair to the two (45_handlers.md R157, 60_exceptions.md R166). -/

namespace Sys2Proof.Machine

/-! ### The alternating schedule -/

@[simp] theorem State.setPort_setSched (s : State) (v : List Turn) (i : Idx) (p : Port) :
    (s.setPort i p).setSched v = (s.setSched v).setPort i p := rfl
@[simp] theorem State.setSched_setSched (s : State) (v w : List Turn) : (s.setSched v).setSched w = s.setSched w := rfl

/-- A run that takes two steps goes on from where they end. -/
theorem run_succ_succ {k : Nat} {s t u : State} (h₁ : step s = .next t) (h₂ : step t = .next u) :
    Host.Core.run Sys2Proof.core (k + 2) s = Host.Core.run Sys2Proof.core k u :=
  (run_succ h₁).trans (run_succ h₂)

/-- A turn TX_DRAIN of a transmitter that is on puts the register's byte on the line (R174). -/
theorem step_txDrain {s : State} {i : Idx} {turns : List Turn} (hf : s.fault = none) (hp : s.present i)
    (he : (s.port i).txdEmpty = false) (hx : (s.port i).ctrlB.txen = true) (hs : s.sched = .txDrain i :: turns) :
    step s = .next ((s.setSched turns).setPort i { s.port i with
      lineOut := (s.port i).lineOut ++ [(s.port i).txdReg], txdEmpty := true }) := by
  simp [step, takeTurn, hs, hf, turnStep, txDrain, hp, he, hx]

/-- A dispatcher turn with the record of the UDRE event is that event (R75). -/
theorem step_udreRecord {s : State} {i : Idx} {turns : List Turn} (hf : s.fault = none)
    (hs : s.sched = .dispatch (encodeWord (.evUdre i)) :: turns) :
    step s = exec (.evUdre i) (s.setSched turns) :=
  step_of_record hf rfl (decode_encode _) hs

/-- The state after one round of UDRE event and drain: the byte has gone from the tx ring to the line. -/
def State.sentOne (s : State) (i : Idx) (d : Driver) (b : Byte) (tx : Ring) (turns : List Turn) : State :=
  (s.setSched turns).setPort i { s.port i with
    reg := some { d with tx := tx }, txdReg := b, lineOut := (s.port i).lineOut ++ [b] }

/-- One round of UDRE event and drain moves the oldest byte to the line (R154, R174). -/
theorem run_round {s : State} {i : Idx} {d : Driver} {b : Byte} {tx : Ring} {turns : List Turn} (h : s.UdreReady i)
    (hr : (s.port i).reg = some d) (hx : (s.port i).ctrlB.txen = true) (hc : 0 < d.tx.count)
    (hpop : ringPop d.tx = .ok (b, tx)) (hs : s.sched = .dispatch (encodeWord (.evUdre i)) :: .txDrain i :: turns)
    (k : Nat) :
    Host.Core.run Sys2Proof.core (k + 2) s = Host.Core.run Sys2Proof.core k (s.sentOne i d b tx turns) := by
  have ⟨hf, hp, _, _, he⟩ := h
  have hsend := (step_udreRecord hf hs).trans
    (exec_evUdre_send (s := s.setSched (.txDrain i :: turns)) (d := d) h hr hc hpop)
  refine run_succ_succ hsend ((step_txDrain (i := i) (turns := turns) ?_ ?_ ?_ ?_ ?_).trans ?_)
  · exact hf
  · exact hp
  · rw [State.port_setPort_same]
  · rw [State.port_setPort_same]
    exact hx
  · rfl
  · simp [State.sentOne, ← he]

/-- Along the alternating schedule the tx ring empties onto the line and the path ends Idle (R157). -/
theorem run_drainSchedule {s : State} {i : Idx} {d : Driver} (h : s.UdreReady i) (hr : (s.port i).reg = some d)
    (hok : d.tx.Ok) (hx : (s.port i).ctrlB.txen = true) (hs : s.sched = drainSchedule i d.tx.count) :
    ∃ (tx : Ring) (v : Byte), tx.count = 0 ∧ tx.store = d.tx.store ∧ tx.N = d.tx.N ∧ tx.tail = d.tx.tail ∧
      tx.head = (d.tx.head + d.tx.count) % d.tx.N ∧
      Host.Core.run Sys2Proof.core (2 * d.tx.count + 1) s = .next ((s.setSched []).setPort i { s.port i with
        reg := some { d with tx := tx },
        ctrlB := { (s.port i).ctrlB with udrie := false },
        txdReg := v,
        lineOut := (s.port i).lineOut ++ d.tx.contents }) := by
  induction hn : d.tx.count generalizing s d with
  | zero =>
    have ⟨hf, _⟩ := h
    have hcon : d.tx.contents = [] := List.length_eq_zero_iff.1 ((Ring.length_contents hok).trans hn)
    have hhead : d.tx.head = (d.tx.head + 0) % d.tx.N := (Nat.mod_eq_of_lt hok.2.2.1.1).symm
    rw [hn] at hs
    have hstep := (step_udreRecord hf hs).trans
      (exec_evUdre_disable (s := s.setSched []) h fun e he => by
        rw [State.port_setSched, hr] at he
        cases he
        exact hn)
    refine ⟨d.tx, (s.port i).txdReg, hn, rfl, rfl, rfl, hhead, ?_⟩
    rw [run_succ hstep, hcon, ← hr, List.append_nil]
    rfl
  | succ n ih =>
    obtain ⟨b, tx, hpop, htx, hcon, hN, -, hhead, htail, hcount, hstore⟩ := ringPop_ok hok (by omega)
    rw [hn] at hs
    have hround := run_round h hr hx (by omega) hpop hs (2 * n + 1)
    have hnext : (s.sentOne i d b tx (drainSchedule i n)).UdreReady i := by
      simpa [State.UdreReady, State.sentOne] using h
    obtain ⟨tx', v, hcount', hstore', hN', htail', hhead', hrun⟩ :=
      ih (s := s.sentOne i d b tx (drainSchedule i n)) (d := { d with tx := tx }) hnext (by simp [State.sentOne]) htx
        (by simpa [State.sentOne] using hx) (by simp [State.sentOne, hcount, hn]) (by simp [hcount, hn])
    refine ⟨tx', v, hcount', hstore'.trans hstore, hN'.trans hN, htail'.trans htail, ?_, ?_⟩
    · rw [hhead', hhead, hN, Nat.mod_add_mod]
      congr 1
      omega
    · refine hround.trans (hrun.trans ?_)
      simp [State.sentOne, hcon]

/-! ### Runs fair to the index -/

/-- A run with no command of the foreground and no reset, fair to the UDRE event and the drain of index `i`. -/
structure DrainRun (turn : Nat → Turn) (state : Nat → State) (i : Idx) : Prop where
  run : IsRun turn (fun _ => none) state
  noReset : ∀ n, turn n ≠ .reset
  fairUdre : FairFor turn state (.dispatch (encodeWord (.evUdre i)))
  fairDrain : FairFor turn state (.txDrain i)

/-- The tx path at point `n`, with `k` UDRE events of the index taken before it. -/
abbrev DrainAt (turn : Nat → Turn) (state : Nat → State) (i : Idx) (n : Nat) (tx : Ring) (e : Bool) (v : Byte)
    (l : List Byte) (k : Nat) : Prop :=
  TxAt (state n) i tx e v l ∧ timesTaken turn state (.dispatch (encodeWord (.evUdre i))) n = k

section
variable {turn : Nat → Turn} {state : Nat → State} {i : Idx} {n k : Nat} {tx : Ring} {e : Bool} {v : Byte}
  {l : List Byte}

theorem DrainRun.fault_none (hrun : DrainRun turn state i) (n : Nat) : (state n).fault = none :=
  hrun.run.fault_none (hrun.noReset n)

/-- A step that is taken while it is enabled counts. -/
theorem timesTaken_succ_of_taken {τ : Turn} (ht : turn n = τ) (he : (state n).enabled τ = true) :
    timesTaken turn state τ (n + 1) = timesTaken turn state τ n + 1 := by
  simp [timesTaken, ht, he]

/-- A step that is not taken, or is not enabled where it is, does not count. -/
theorem timesTaken_succ_of_not_taken {τ : Turn} (h : turn n = τ → (state n).enabled τ = false) :
    timesTaken turn state τ (n + 1) = timesTaken turn state τ n := by
  simp only [timesTaken, Nat.add_eq_left, ite_eq_right_iff, and_imp]
  intro ht he
  rw [h ht] at he
  cases he

/-- While the transmit register is empty, every turn but the UDRE event keeps the path: the drain is not enabled. -/
theorem DrainAt.keep_until_udre (hrun : DrainRun turn state i) (h : DrainAt turn state i n tx true v l k)
    (ht : turn n ≠ .dispatch (encodeWord (.evUdre i))) : DrainAt turn state i (n + 1) tx true v l k := by
  obtain ⟨hat, hk⟩ := h
  have hf := hrun.fault_none
  refine ⟨?_, (timesTaken_succ_of_not_taken fun h => absurd h ht).trans hk⟩
  by_cases hd : turn n = .txDrain i
  · exact hat.not_enabled (hf n) (hrun.noReset n) (hd ▸ (hat.enabled (hf n)).2) (hrun.run n)
  · exact hat.other (hrun.noReset n) ht hd (hrun.run n) (hf (n + 1))

/-- While the transmit register holds a byte, every turn but the drain keeps the path: the UDRE event is not enabled. -/
theorem DrainAt.keep_until_drain (hrun : DrainRun turn state i) (h : DrainAt turn state i n tx false v l k)
    (ht : turn n ≠ .txDrain i) : DrainAt turn state i (n + 1) tx false v l k := by
  obtain ⟨hat, hk⟩ := h
  have hf := hrun.fault_none
  have hdis := (hat.enabled (hf n)).1
  refine ⟨?_, (timesTaken_succ_of_not_taken fun _ => hdis).trans hk⟩
  by_cases hu : turn n = .dispatch (encodeWord (.evUdre i))
  · exact hat.not_enabled (hf n) (hrun.noReset n) (hu ▸ hdis) (hrun.run n)
  · exact hat.other (hrun.noReset n) hu ht (hrun.run n) (hf (n + 1))

/-- With the transmit register empty, fairness takes the UDRE event, which then counts. -/
theorem DrainAt.reaches_udre (hrun : DrainRun turn state i) (h : DrainAt turn state i n tx true v l k) :
    ∃ m, TxAt (state m) i tx true v l ∧
      step ((state m).facing (.dispatch (encodeWord (.evUdre i))) none) = .next (state (m + 1)) ∧
      timesTaken turn state (.dispatch (encodeWord (.evUdre i))) (m + 1) = k + 1 := by
  obtain ⟨m, -, ⟨hat, hk⟩, ht⟩ := hrun.fairUdre.leads_to (K := fun m => DrainAt turn state i m tx true v l k) h
    (fun m hm => (hm.1.enabled (hrun.fault_none m)).1) (fun m hm => hm.keep_until_udre hrun)
  have hen := (hat.enabled (hrun.fault_none m)).1
  exact ⟨m, hat, ht ▸ hrun.run m, by rw [timesTaken_succ_of_taken ht hen, hk]⟩

/-- With a byte in the transmit register, fairness takes the drain, and the byte reaches the line. -/
theorem DrainAt.reaches_drained (hrun : DrainRun turn state i) (h : DrainAt turn state i n tx false v l k) :
    ∃ m, DrainAt turn state i m tx true v (l ++ [v]) k := by
  obtain ⟨m, -, ⟨hat, hk⟩, ht⟩ := hrun.fairDrain.leads_to (K := fun m => DrainAt turn state i m tx false v l k) h
    (fun m hm => (hm.1.enabled (hrun.fault_none m)).2) (fun m hm => hm.keep_until_drain hrun)
  refine ⟨m + 1, hat.drain (hrun.fault_none m) (ht ▸ hrun.run m), (timesTaken_succ_of_not_taken fun h => ?_).trans hk⟩
  rw [ht] at h
  cases h

/-- With the transmit register empty, the tx ring empties onto the line and the path ends Idle (R157). -/
theorem DrainAt.reaches_idle (hrun : DrainRun turn state i) (hok : tx.Ok) (h : DrainAt turn state i n tx true v l k) :
    ∃ (m : Nat) (d : Driver), ((state m).port i).reg = some d ∧ d.tx.count = 0 ∧ ((state m).port i).txPath = .idle ∧
      timesTaken turn state (.dispatch (encodeWord (.evUdre i))) m = k + tx.count + 1 ∧
      ((state m).port i).txdEmpty = true ∧ ((state m).port i).lineOut = l ++ tx.contents := by
  obtain ⟨m, hat, hstep, hk⟩ := h.reaches_udre hrun
  induction hc : tx.count generalizing n tx v l k m with
  | zero =>
    obtain ⟨hreg, hu, he, hl⟩ := hat.udre_idle (hrun.fault_none m) hc hstep
    obtain ⟨d, hd, rfl⟩ := Option.map_eq_some_iff.1 hreg
    have hcon : d.tx.contents = [] := List.length_eq_zero_iff.1 ((Ring.length_contents hok).trans hc)
    exact ⟨m + 1, d, hd, hc, Port.txPath_eq_idle.2 hu, hk, he, by rw [hl, hcon, List.append_nil]⟩
  | succ c ih =>
    obtain ⟨b, tx', hok', hcon, hcount, hsent⟩ := hat.udre_send (hrun.fault_none m) hok (by omega) hstep
    obtain ⟨n', hdrained⟩ := DrainAt.reaches_drained hrun ⟨hsent, hk⟩
    obtain ⟨m', hat', hstep', hk'⟩ := hdrained.reaches_udre hrun
    obtain ⟨r, d, hd, hzero, hidle, htimes, he, hl⟩ := ih hok' hdrained m' hat' hstep' hk' (by omega)
    exact ⟨r, d, hd, hzero, hidle, by omega, he, by rw [hl, hcon, List.append_assoc, List.singleton_append]⟩

end

/-- Settles O45: each round of the schedule moves one byte to the line; along a run fairness takes the two steps by turns,
as no other step reaches the path and only one of the two is enabled. -/
theorem drainProgress : Obligations.DrainProgress := by
  refine ⟨fun s i d h hr hok hx hs => run_drainSchedule h hr hok hx hs,
    fun turn offer state i d hrun hquiet hudre hdrain hp hI hpr hr hok hpath hx => ?_⟩
  obtain rfl : offer = fun _ => none := funext fun n => (hquiet n).1
  have hdr : DrainRun turn state i := ⟨hrun, fun n => (hquiet n).2, hudre, hdrain⟩
  have hstart (e : Bool) (he : ((state 0).port i).txdEmpty = e) :
      DrainAt turn state i 0 d.tx e ((state 0).port i).txdReg ((state 0).port i).lineOut 0 :=
    ⟨⟨hp, hI, hpr, by rw [hr]; rfl, Port.txPath_eq_draining.1 hpath, hx, he, fun _ => rfl, rfl⟩, rfl⟩
  cases he : ((state 0).port i).txdEmpty with
  | true =>
    simpa using (hstart true he).reaches_idle hdr hok
  | false =>
    obtain ⟨n, hn⟩ := (hstart false he).reaches_drained hdr
    simpa using hn.reaches_idle hdr hok

end Sys2Proof.Machine
end

section
/-! What a turn runs and what a recorded fault stops (60_exceptions.md R165, R166): in a block that is not halted a turn
is its agent's step, in a halted block only a reset is taken, and raising a fault writes the fault register alone. -/

namespace Sys2Proof.Machine

/-! ### A turn in a block that is not halted -/

/-- In a block that is not halted the next turn is taken off the schedule and its agent's step runs. -/
theorem step_of_turn {s : State} {turn : Turn} {turns : List Turn} (hf : s.fault = none)
    (hs : s.sched = turn :: turns) : step s = turnStep turn (s.setSched turns) := by
  simp [step, takeTurn, hs, hf]

/-- A word that decodes to a command of the foreground is issued as that command. -/
theorem issue_command {w : Word} {o : Operands} {i : Instr} (s : State) (hd : decode w o = .ok i)
    (he : i.isEvent = false) : issue ⟨w, o⟩ s = exec i s := by
  simp [issue, hd, he]

/-- Settles O6: each kind of turn names its agent's step, and an empty schedule names none. -/
theorem stepRunsDecodedInstruction : Obligations.StepRunsDecodedInstruction := by
  refine ⟨fun s w o rest turns i hissues hd he => ?_, fun s p turns hf hpend hs => ?_,
    fun s w turns i hf hs hd he => ?_, fun s hf hs => ?_⟩
  · rw [step_of_issues hissues, issue_command _ hd he]
  · rw [step_of_turn hf hs]
    simp [turnStep, foregroundTurn, hpend]
  · rw [step_of_turn hf hs]
    simp [turnStep, dispatchTurn, hd, he]
  · simp [step, takeTurn, hs, hf]

/-! ### Raising a fault -/

/-- What is left of a clear fault register by a step that keeps it records no fault. -/
theorem State.fault_ne_some_of_kept {s t : State} (hnone : s.fault = none) (hkept : t.fault = s.fault)
    (f : FaultRecord) : t.fault ≠ some f := by
  rw [hkept, hnone]
  exact nofun

/-- The fault that was raised is the one found recorded. -/
theorem State.eq_raise_of_fault {s t : State} {f g : FaultRecord} (ht : t = s.raise g) (hf : t.fault = some f) :
    t = s.raise f := by
  subst ht
  cases hf
  rfl

/-- An instruction that leaves a fault recorded has raised it and written nothing else: an error status and the
instruction's own effect keep the fault register, which was empty. -/
theorem exec_raised {ins : Instr} {s t : State} {f : FaultRecord} (h : exec ins s = .next t) (hf : t.fault = some f) :
    t = s.raise f := by
  obtain ⟨hnone, hended⟩ := exec_ended h
  have kept (hkept : t.fault = s.fault) : t = s.raise f :=
    absurd hf (State.fault_ne_some_of_kept hnone hkept f)
  cases hended with
  | idle _ ht => exact kept (by rw [ht])
  | raised g ht => exact State.eq_raise_of_fault ht hf
  | error e _ ht => exact kept (by rw [ht, State.answer_fault])
  | effect hx => exact kept hx.fault

/-- The second phase of a WRITE that leaves a fault recorded has raised it and written nothing else. -/
theorem writePhase2_raised {p : PendingWrite} {s t : State} {f : FaultRecord} (hnone : s.fault = none)
    (h : writePhase2 p s = .next t) (hf : t.fault = some f) : t = s.raise f := by
  have kept (hkept : t.fault = s.fault) : t = s.raise f :=
    absurd hf (State.fault_ne_some_of_kept hnone hkept f)
  obtain ⟨g, ht⟩ | ⟨d, b, tx, -, -, -, ht⟩ | ⟨d, -, -, ht⟩ := writePhase2_next h
  · exact State.eq_raise_of_fault ht hf
  · exact kept (by rw [ht]; simp [flushSent])
  · exact kept (by rw [ht]; simp)

/-- A step that leaves a fault recorded has raised it: nothing else is written, but the turn, and the command where the
step issued one, are taken off the inputs. -/
theorem step_raised {s t : State} {f : FaultRecord} (h : step s = .next t) (hf : t.fault = some f) :
    t = (s.setSched s.sched.tail).raise f ∨
      ∃ w o rest turns, s.Issues w o rest turns ∧ t = ((s.setSched turns).setProgram rest).raise f := by
  have clean {u : State} (hnone : u.fault = none) (hkept : t.fault = u.fault) : False :=
    State.fault_ne_some_of_kept hnone hkept f hf
  cases step_next h with
  | wait hnone _ ht => exact (clean hnone (congrArg State.fault ht)).elim
  | idle _ _ _ hnone _ ht => exact (clean hnone (by rw [ht, State.setSched_fault])).elim
  | illegal w o rest turns hissues ht => exact .inr ⟨w, o, rest, turns, hissues, State.eq_raise_of_fault ht hf⟩
  | command w o rest turns i hissues _ _ hx => exact .inr ⟨w, o, rest, turns, hissues, exec_raised hx hf⟩
  | phase2 p turns hnone _ hs hx =>
    rw [hs]
    exact .inl (writePhase2_raised hnone hx hf)
  | event w turns i _ hs _ _ hx =>
    rw [hs]
    exact .inl (exec_raised hx hf)
  | rxArrive i b turns hnone _ ht => exact (clean hnone (ht ▸ rxArrive_fault i b _)).elim
  | txDrain i turns hnone _ ht => exact (clean hnone (ht ▸ txDrain_fault i _)).elim
  | hwFault i turns hnone _ ht => exact (clean hnone (ht ▸ hwFault_fault i _)).elim
  | reset turns _ ht => exact (clean rfl (congrArg State.fault ht)).elim

/-! ### The halted block -/

/-- In a halted block no turn but a reset is taken. -/
theorem step_halted {s : State} (hf : s.fault ≠ none) (hr : ¬ s.resets) : step s = .fault .halted := by
  have hsome : s.fault.isSome = true := Option.isSome_iff_ne_none.2 hf
  cases hs : s.sched with
  | nil => simp [step, takeTurn, hs, hsome]
  | cons turn turns =>
    have hne : turn ≠ .reset := fun he => hr (by rw [State.resets, hs, he]; rfl)
    simp [step, takeTurn, hs, hsome, hne]

/-- A reset is taken whether the block is halted or not (R185). -/
theorem step_of_resets {s : State} (hr : s.resets) : step s = .next (resetEvent (s.setSched s.sched.tail)) := by
  obtain ⟨turns, hs⟩ := List.head?_eq_some_iff.1 hr
  simp [step, takeTurn, hs, turnStep]

/-- Settles O7: of the ways an instruction, a second phase or a step can end, only raising a fault leaves one recorded;
and with one recorded only a reset goes on. -/
theorem faultRecordedAndHalts : Obligations.FaultRecordedAndHalts := by
  refine ⟨fun _ _ _ _ h hf => exec_raised h hf, fun _ _ _ _ hnone h hf => writePhase2_raised hnone h hf,
    fun _ _ _ h hf => step_raised h hf, fun _ _ _ hf h => hf (exec_ended h).1, fun s t hf h => ?_,
    fun s hr => ⟨_, step_of_resets hr, rfl⟩⟩
  by_cases hr : s.resets
  · obtain ⟨turns, rfl⟩ := step_resets h hr
    exact ⟨hr, rfl⟩
  · rw [step_halted hf hr] at h
    cases h

end Sys2Proof.Machine
end

section
/-! The external core's registers (60_exceptions.md R172, R173, R174): an empty one takes the byte, a busy receive or
transmit register and the drain of a transmitter that is off each make one free choice of two outcomes. -/

namespace Sys2Proof.Machine

/-! ### The receive register (R172) -/

/-- An arrival at an empty receive register fills it. -/
theorem rxArrive_empty {i : Idx} {b : Byte} {s : State} (hp : s.present i) (hx : (s.port i).ctrlB.rxen = true)
    (hh : (s.port i).rxHold = none) : rxArrive i b s = s.setPort i { s.port i with rxHold := some b } := by
  simp [rxArrive, hp, hx, hh]

/-- An overrun: of the byte held and the byte that arrives one is held after it. -/
theorem rxArrive_overrun {i : Idx} {b c : Byte} {s : State} (hp : s.present i) (hx : (s.port i).ctrlB.rxen = true)
    (hh : (s.port i).rxHold = some c) : ∃ v : Byte, (v = b ∨ v = c) ∧
      rxArrive i b s = (s.setPort i { s.port i with rxHold := some v }).draw := by
  cases hchoice : Config.freeChoice s.choices with
  | true => exact ⟨b, .inl rfl, by simp [rxArrive, hp, hx, hh, hchoice]⟩
  | false =>
    have hkept : rxArrive i b s = s.draw := by simp [rxArrive, hp, hx, hh, hchoice]
    exact ⟨c, .inr rfl, by rw [hkept, ← hh, State.setPort_self]⟩

/-- Settles O46: an arrival that is enabled finds the receive register empty or holding a byte; one with RXEN = 0 is not
enabled. -/
theorem receiveArrivalAndRead : Obligations.ReceiveArrivalAndRead := by
  refine ⟨fun s i b turns hf hs hp hx => ?_, fun s i b turns hf hs hx => ?_, fun s i b hh => ?_⟩
  · rw [step_of_turn hf hs]
    refine ⟨fun hh => congrArg Host.Outcome.next (rxArrive_empty (s := s.setSched turns) hp hx hh), fun c hh => ?_⟩
    obtain ⟨v, hv, harrive⟩ := rxArrive_overrun (b := b) (s := s.setSched turns) hp hx hh
    exact ⟨v, hv, congrArg Host.Outcome.next harrive⟩
  · exact step_of_not_enabled hf hs (by simp) (by simp [State.enabled, hx])
  · simp [rxdRead, hh]

/-! ### The transmit register (R173) -/

/-- A write to a busy transmit register: of the byte held and the byte written one is held after it. -/
theorem txdWrite_busy {i : Idx} {s : State} (b : Byte) (he : (s.port i).txdEmpty = false) :
    ∃ v : Byte, (v = b ∨ v = (s.port i).txdReg) ∧
      txdWrite i b s = (s.setPort i { s.port i with txdReg := v, txdEmpty := false }).draw := by
  cases hchoice : Config.freeChoice s.choices with
  | true =>
    have hreplaced : txdWrite i b s = (s.setPort i { s.port i with txdReg := b }).draw := by
      simp [txdWrite, he, hchoice]
    exact ⟨b, .inl rfl, by rw [hreplaced, ← he]⟩
  | false =>
    have hkept : txdWrite i b s = s.draw := by simp [txdWrite, he, hchoice]
    exact ⟨(s.port i).txdReg, .inr rfl, by rw [hkept, ← he, State.setPort_self]⟩

/-- Settles O47: an empty register takes the byte, a busy one makes the free choice. -/
theorem transmitWriteOrBusyChoice : Obligations.TransmitWriteOrBusyChoice :=
  fun _ _ b => ⟨txdWrite_empty, txdWrite_busy b⟩

/-! ### The line (R174) -/

/-- A drain of a transmitter that is off empties the register, and the line gains its byte or nothing. -/
theorem txDrain_off {i : Idx} {s : State} (hp : s.present i) (he : (s.port i).txdEmpty = false)
    (hx : (s.port i).ctrlB.txen = false) : ∃ l : List Byte,
      (l = (s.port i).lineOut ++ [(s.port i).txdReg] ∨ l = (s.port i).lineOut) ∧
      txDrain i s = (s.setPort i { s.port i with lineOut := l, txdEmpty := true }).draw := by
  cases hchoice : Config.freeChoice s.choices with
  | true => exact ⟨_, .inl rfl, by simp [txDrain, hp, he, hx, hchoice]⟩
  | false => exact ⟨_, .inr rfl, by simp [txDrain, hp, he, hx, hchoice]⟩

/-- Settles O48: with an empty transmit register the drain is not enabled; else the line gains the byte where the
transmitter is on, and the free choice decides where it is off. -/
theorem transmitDrainAppendsToLine : Obligations.TransmitDrainAppendsToLine := by
  intro s i turns hf hs
  refine ⟨fun he => ?_, fun hp he hx => step_txDrain hf hp he hx hs, fun hp he hx => ?_⟩
  · exact step_of_not_enabled hf hs (by simp) (by simp [State.enabled, he])
  · rw [step_of_turn hf hs]
    obtain ⟨l, hl, hdrain⟩ := txDrain_off (s := s.setSched turns) hp he hx
    exact ⟨l, hl, congrArg Host.Outcome.next hdrain⟩

end Sys2Proof.Machine
end

section
/-! The reset event (70_reset_and_hazards.md R185) and the steps that raise I from 0 to 1 (R189). -/

namespace Sys2Proof.Machine

/-! ### The reset values (R42, R185) -/

/-- Settles O51: a reset is taken in a halted block too, and the state it gives, like the machine's reset state, has
every index at `Port.reset`. -/
theorem resetSetsEveryElement : Obligations.ResetSetsEveryElement := by
  intro s hr
  refine ⟨_, step_of_resets hr, fun u hu => ?_⟩
  have hreset : u.I = false ∧ u.csStack = [] ∧ u.fault = none ∧ ∀ i, u.port i = Port.reset := by
    obtain rfl | rfl := hu
    · exact ⟨rfl, rfl, rfl, port_resetEvent _⟩
    · exact ⟨rfl, rfl, rfl, State.port_resetWith _⟩
  obtain ⟨hI, hk, hf, hport⟩ := hreset
  refine ⟨hI, hk, hf, fun i => ?_⟩
  rw [hport i]
  exact ⟨rfl, rfl, rfl, rfl, rfl, rfl, rfl, rfl⟩

/-! ### What raises I (R189) -/

/-- An effect that raises I is that of a CONSTRUCT, which fills an empty slot, or of a CS_EXIT, which restores a saved
1. -/
theorem Effect.I_rises {s t : State} {ins : Instr} (h : Effect s ins t) (hs : s.I = false) (ht : t.I = true) :
    (∃ i nRx nTx, ins = .construct i nRx nTx ∧ (s.port i).reg = none ∧
      (t.port i).reg = some (Driver.fresh nRx nTx)) ∨
    (ins = .csExit ∧ s.csStack.getLast? = some true) := by
  obtain hI | rfl | rfl | ⟨i, nRx, nTx, rfl⟩ := h.I
  · rw [hI, hs] at ht; cases ht
  · cases h with
    | csEnter => cases ht
  · cases h with
    | csExit v hv =>
      obtain rfl : v = true := ht
      exact .inr ⟨rfl, hv⟩
  · cases h with
    | construct _ _ _ _ hr _ => exact .inl ⟨i, nRx, nTx, rfl, hr, by simp⟩

/-- An instruction that raises I has its effect, since recording a fault or answering an error keeps I. -/
theorem exec_effect_of_I_rises {s t : State} {ins : Instr} (h : exec ins s = .next t) (hs : s.I = false)
    (ht : t.I = true) : Effect s ins t := by
  have changed (hI : t.I = s.I) : Effect s ins t := by rw [hI, hs] at ht; cases ht
  cases (exec_ended h).2 with
  | idle _ h => exact changed (by rw [h])
  | raised _ h => exact changed (by rw [h, State.raise_I])
  | error _ _ h => exact changed (by rw [h, State.answer_I])
  | effect h => exact h

/-- A step that raises I is a command the foreground issued, with its own effect: the other steps restore or keep I, and
a reset clears it. -/
theorem step_I_rises {s t : State} (h : step s = .next t) (hs : s.I = false) (ht : t.I = true) :
    ∃ w o rest turns ins, s.Issues w o rest turns ∧ decode w o = .ok ins ∧
      Effect ((s.setSched turns).setProgram rest) ins t := by
  have kept {p : Prop} (hI : t.I = s.I) : p := by rw [hI, hs] at ht; cases ht
  cases step_next h with
  | wait _ _ h => exact kept (by rw [h])
  | idle _ _ _ _ _ h => exact kept (by rw [h]; rfl)
  | illegal _ _ _ _ _ h => exact kept (by rw [h]; rfl)
  | command w o rest turns ins hi hd _ hx =>
    exact ⟨w, o, rest, turns, ins, hi, hd, exec_effect_of_I_rises hx hs ht⟩
  | phase2 _ _ _ _ _ hx => exact kept (writePhase2_frame hx).2.1
  | event _ _ _ _ _ _ he hx => exact kept (driverCommandsRestoreI.1 _ _ _ hx (.inr he)).1
  | rxArrive i b _ _ _ h => exact kept (by rw [h]; exact (rxArrive_frame i b _).2.1)
  | txDrain i _ _ _ h => exact kept (by rw [h]; exact (txDrain_frame i _).2.1)
  | hwFault i _ _ _ h => exact kept (by rw [h]; exact (hwFault_frame i _).2.1)
  | reset _ _ h => subst h; cases ht

/-- Settles O25: only an issued command's effect raises I, and that effect is CONSTRUCT's or CS_EXIT's. -/
theorem interruptEnableRises : Obligations.InterruptEnableRises := by
  intro s t h hs ht
  obtain ⟨w, o, rest, turns, ins, hi, hd, hx⟩ := step_I_rises h hs ht
  obtain ⟨i, nRx, nTx, rfl, hempty, hfilled⟩ | ⟨rfl, hsaved⟩ := hx.I_rises hs ht
  · exact .inl ⟨w, o, rest, turns, i, nRx, nTx, hi, hd, hempty, hfilled⟩
  · exact .inr ⟨w, o, rest, turns, hi, hd, hsaved⟩

end Sys2Proof.Machine
end

section
/-! The decoding vectors of the spec (95_test_vectors.md section 4): fixed words, on which the decoder is run. -/

namespace Sys2Proof

/-- Settles O3: each vector is a closed word with a closed operand record, on which the decoder evaluates to the outcome
the table gives. -/
theorem decodingVectors : Obligations.DecodingVectors := by
  unfold Obligations.DecodingVectors
  intro o
  and_intros
  all_goals rfl

end Sys2Proof
end
